-- ==== Sys2Proof/Word.lean ====
section
/-! DEFINITION. The words HUFFCORE's spec computes with: widths only (spec/00_scope.md R6 and R7). -/

namespace Sys2Proof

/-- A byte of INBUF or OUTBUF (R43). -/
abbrev Byte := BitVec 8

/-- A 32-bit bus word, register value or command word (R7, R62). -/
abbrev Word := BitVec 32

/-- A byte offset into the 64 KiB window: the only address bits the block decodes (R60). -/
abbrev Offset := BitVec 16

/-- A symbol of the alphabet, SYM_W = 8 bits (R6, R11). -/
abbrev Symbol := BitVec 8

/-- A node index, NODE_IDX_W = 9 bits (R6). -/
abbrev NodeIdx := BitVec 9

/-- The representation of a bit stream that ENC writes and DEC reads, chosen by the command's
A bit (R102): `P` packs eight bits to a byte (R72), `A` holds one character a bit (R73). -/
inductive Mode where
  | P
  | A
  deriving DecidableEq, Repr

end Sys2Proof
end

