-- ==== Sys2Proof/Syntax.lean ====
section
/-! DEFINITION. The commands of HUFFCORE: one constructor for each row of spec/opcode_table.json
(spec/30_encoding.md R103). An operand is a field of the command word (R101, R102); every other operand
of a command is a fixed register or memory. -/

namespace Sys2Proof

/-- A decoded command (R103). -/
inductive Instr where
  /-- NOP (R123). -/
  | nop
  /-- SRST, soft reset (R124). -/
  | srst
  /-- FCLR, empty the frequency map (R140). -/
  | fclr
  /-- FSET sym, make `sym` a key with count DATA (R141). -/
  | fset (sym : Symbol)
  /-- FDEL sym, remove `sym` from the map (R142). -/
  | fdel (sym : Symbol)
  /-- BUILD, build the Huffman tree (R150). -/
  | build
  /-- GENC, derive the code table (R170). -/
  | genc
  /-- ENC.P / ENC.A, encode INBUF into OUTBUF (R190). -/
  | enc (mode : Mode)
  /-- DEC.P / DEC.A, decode INBUF into OUTBUF (R210). -/
  | dec (mode : Mode)
  /-- MOVE, copy OUTBUF and OUT_LEN to INBUF and IN_LEN (R125). -/
  | move
  deriving DecidableEq, Repr

end Sys2Proof
end

