-- ==== Sys2Proof/WellFormed.lean ====
section
/-! DEFINITION. When a command is well formed. A word is legal when it matches a row of the opcode map
(spec/30_encoding.md R103, R104); a line of the assembler is well formed when its operand is one the
command admits (R106). Each operand of `Instr` has exactly the values its field admits, so every `Instr`
is well formed. -/

namespace Sys2Proof

/-- One row of the opcode map: a word is the command of the row if (word and mask) = match (R103). -/
structure OpRow where
  mnemonic : String
  pattern  : Word
  mask     : Word
  deriving DecidableEq, Repr

/-- The opcode map, row by row (R103, spec/opcode_table.json). -/
def opRows : List OpRow :=
  [ ⟨"NOP",   0x00000000#32, 0xFFFFFFFF#32⟩,
    ⟨"SRST",  0x01000000#32, 0xFFFFFFFF#32⟩,
    ⟨"FCLR",  0x02000000#32, 0xFFFFFFFF#32⟩,
    ⟨"FSET",  0x03000000#32, 0xFFFFFF00#32⟩,
    ⟨"FDEL",  0x04000000#32, 0xFFFFFF00#32⟩,
    ⟨"BUILD", 0x10000000#32, 0xFFFFFFFF#32⟩,
    ⟨"GENC",  0x11000000#32, 0xFFFFFFFF#32⟩,
    ⟨"ENC",   0x20000000#32, 0xFFFFFFFE#32⟩,
    ⟨"DEC",   0x30000000#32, 0xFFFFFFFE#32⟩,
    ⟨"MOVE",  0x40000000#32, 0xFFFFFFFF#32⟩ ]

/-- A word is the command of a row if (word and mask) = match (R103). -/
def OpRow.holds (r : OpRow) (w : Word) : Bool := w &&& r.mask == r.pattern

/-- A word is legal when it matches a row; every other word is illegal (R104). -/
def legalWord (w : Word) : Bool := opRows.any (fun r => r.holds w)

/-- The operand of FSET and FDEL as an assembler line writes it (R106): a number, or a quoted character
that stands for its ASCII code (K3). -/
inductive SymOperand where
  | num (n : Nat)
  | chr (c : Char)
  deriving DecidableEq, Repr

/-- One line of the assembler: the mnemonic, then its operand if it has one (R106). -/
inductive AsmLine where
  | nop | srst | fclr
  | fset (sym : SymOperand)
  | fdel (sym : SymOperand)
  | build | genc
  | encP | encA | decP | decA
  | move
  deriving DecidableEq, Repr

/-- A `sym` outside 0 to 255 is an assembly error (R106); a quoted character has an ASCII code. -/
def SymOperand.wellFormed : SymOperand → Bool
  | .num n => n ≤ 255
  | .chr c => c.toNat ≤ 127

/-- The symbol a well-formed operand stands for (R106). -/
def SymOperand.value : SymOperand → Symbol
  | .num n => BitVec.ofNat 8 n
  | .chr c => BitVec.ofNat 8 c.toNat

/-- A line is well formed when its operand, if it has one, is (R106). -/
def AsmLine.wellFormed : AsmLine → Bool
  | .nop | .srst | .fclr | .build | .genc | .encP | .encA | .decP | .decA | .move => true
  | .fset sym => sym.wellFormed
  | .fdel sym => sym.wellFormed

/-- The command a line names; none for an assembly error, so that no illegal word is ever emitted (R106). -/
def AsmLine.command (l : AsmLine) : Option Instr :=
  if l.wellFormed then
    match l with
    | .nop => some .nop
    | .srst => some .srst
    | .fclr => some .fclr
    | .fset sym => some (.fset sym.value)
    | .fdel sym => some (.fdel sym.value)
    | .build => some .build
    | .genc => some .genc
    | .encP => some (.enc .P)
    | .encA => some (.enc .A)
    | .decP => some (.dec .P)
    | .decA => some (.dec .A)
    | .move => some .move
  else none

end Sys2Proof
end

