-- ==== Sys2Proof/Decode.lean ====
section
/-! DEFINITION. Decoding and encoding a command word (spec/30_encoding.md R100 to R105). A command is one
32-bit word, whole; decoding is total on the words, and an illegal word is rejected with the class of
R104 it falls in. -/

namespace Sys2Proof

/-- Why a word is illegal (R104). Every class ends in the one cause ILLEGAL_CMD (R121). -/
inductive Illegal where
  /-- A nonzero RSV field. -/
  | reservedBits (rsv : BitVec 16)
  /-- An ARG the opcode does not admit: nonzero, or for ENC and DEC a nonzero ARG[7:1]. -/
  | argument (op arg : BitVec 8)
  /-- An OP value other than the ten of R103. -/
  | opcode (op : BitVec 8)
  deriving DecidableEq, Repr

/-- OP = word[31:24] (R101). -/
def opField (w : Word) : BitVec 8 := w.extractLsb' 24 8

/-- RSV = word[23:8] (R101). -/
def rsvField (w : Word) : BitVec 16 := w.extractLsb' 8 16

/-- ARG = word[7:0] (R101). -/
def argField (w : Word) : BitVec 8 := w.extractLsb' 0 8

/-- A command that takes no argument: ARG must be 0 (R101, R105). -/
def withoutArg (op arg : BitVec 8) (i : Instr) : Except Illegal Instr :=
  if arg = 0#8 then .ok i else .error (.argument op arg)

/-- The mode of ARG[0] (R102). -/
def modeOfArg (arg : BitVec 8) : Mode := if arg.getLsbD 0 then .A else .P

/-- A command whose argument is MODE: ARG[7:1] must be 0 (R102, R105). -/
def withMode (op arg : BitVec 8) (f : Mode → Instr) : Except Illegal Instr :=
  if arg.extractLsb' 1 7 = 0#7 then .ok (f (modeOfArg arg)) else .error (.argument op arg)

/-- The decode function, total on every 32-bit word (R105). -/
def decode (w : Word) : Except Illegal Instr :=
  let op := opField w
  let arg := argField w
  if rsvField w ≠ 0#16 then .error (.reservedBits (rsvField w))
  else if op = 0x00#8 then withoutArg op arg .nop
  else if op = 0x01#8 then withoutArg op arg .srst
  else if op = 0x02#8 then withoutArg op arg .fclr
  else if op = 0x03#8 then .ok (.fset arg)
  else if op = 0x04#8 then .ok (.fdel arg)
  else if op = 0x10#8 then withoutArg op arg .build
  else if op = 0x11#8 then withoutArg op arg .genc
  else if op = 0x20#8 then withMode op arg .enc
  else if op = 0x30#8 then withMode op arg .dec
  else if op = 0x40#8 then withoutArg op arg .move
  else .error (.opcode op)

/-- The word with the fields OP, RSV = 0 and ARG (R101, the diagram). -/
def commandWord (op arg : BitVec 8) : Word := op ++ 0#16 ++ arg

/-- ARG of a mode: A = 0 selects mode P, A = 1 mode A (R102). -/
def argOfMode : Mode → BitVec 8
  | .P => 0x00#8
  | .A => 0x01#8

/-- The word of a command (R103, R106). -/
def encode : Instr → Word
  | .nop => commandWord 0x00#8 0#8
  | .srst => commandWord 0x01#8 0#8
  | .fclr => commandWord 0x02#8 0#8
  | .fset sym => commandWord 0x03#8 sym
  | .fdel sym => commandWord 0x04#8 sym
  | .build => commandWord 0x10#8 0#8
  | .genc => commandWord 0x11#8 0#8
  | .enc m => commandWord 0x20#8 (argOfMode m)
  | .dec m => commandWord 0x30#8 (argOfMode m)
  | .move => commandWord 0x40#8 0#8

/-- The command word whose low `nbits` bits are those of `w` and whose other bits are 0. -/
def tableWord (nbits w : Nat) : Word := BitVec.ofNat 32 (w % 2 ^ nbits)

/-- The instruction the decoder reads from the bits of an opcode-table row. -/
def decodeTableWord (nbits w : Nat) : Option Instr :=
  match decode (tableWord nbits w) with
  | .ok i => some i
  | .error _ => none

end Sys2Proof
end

