-- ==== Sys2Proof/Config.lean ====
section
/-! DEFINITION. The implementation parameters of HUFFCORE (spec/00_scope.md R6), its constant registers,
and the free values: what the spec calls "any value" (spec/93_implementation_defined.md) is an opaque
constant here, so that no proof can see which value it is. -/

namespace Sys2Proof.Config

/-- NSYM: the number of symbol values (R6). -/
def nsym : Nat := 256

/-- NODE_MAX: the number of node memory entries (R6, R41). -/
def nodeMax : Nat := 511

/-- CODE_STORE: the bits of code storage per symbol (R6, R42). -/
def codeStore : Nat := 256

/-- BUF_BYTES: the bytes in INBUF and in OUTBUF each (R6); this hardware has 16384. -/
def bufBytes : Nat := 16384

/-- The greatest frequency that FREQ_W = 32 bits hold (R155). -/
def freqMax : Nat := 0xFFFFFFFF

/-- The constant the ID register reads (R21). -/
def idValue : Word := 0x48554601#32

/-- The constant the CAP register reads, BUF_BYTES (R36). -/
def capValue : Word := BitVec.ofNat 32 bufBytes

/-- HUFF_BASE divided by the window's size: the base is an OPEN parameter of the platform (R6, R60, U15).
Since the block takes the low 16 bits of a bus address as the byte offset, HUFF_BASE is a multiple of
2^16 (DEDUCED, log entry 7). -/
opaque huffPage : Nat

/-- HUFF_BASE: the bus address of offset 0x0000 (R60). -/
def huffBase : Nat := huffPage * 65536

/-- FREE VALUE (U1): `freeFreq d s` is the unspecified content of FREQ[s] of draw `d` (R46). -/
opaque freeFreq : Nat → Nat → Word

/-- FREE VALUE (U1, U3): the unspecified `f` of NODE[n] of draw `d` (R46, R232). -/
opaque freeNodeFreq : Nat → Nat → Word

/-- FREE VALUE (U1, U3): the unspecified `leaf` bit of NODE[n] of draw `d`. -/
opaque freeNodeLeaf : Nat → Nat → Bool

/-- FREE VALUE (U1, U3): the unspecified `sym` of NODE[n] of draw `d`. -/
opaque freeNodeSym : Nat → Nat → Symbol

/-- FREE VALUE (U1, U3): the unspecified `left` of NODE[n] of draw `d`. -/
opaque freeNodeLeft : Nat → Nat → NodeIdx

/-- FREE VALUE (U1, U3): the unspecified `right` of NODE[n] of draw `d`. -/
opaque freeNodeRight : Nat → Nat → NodeIdx

/-- FREE VALUE (U1): the unspecified CLEN[s] of draw `d` (R46). -/
opaque freeLen : Nat → Nat → BitVec 9

/-- FREE VALUE (U1): the unspecified CODE[s] of draw `d` (R46). -/
opaque freeCode : Nat → Nat → BitVec 256

/-- FREE VALUE (U1, U2, U4, U5): the unspecified byte k of a stream buffer of draw `d` (R43, R46, R232). -/
opaque freeByte : Nat → Nat → Byte

/-- FREE VALUE (U6): what a host read of a location the running command writes returns (R67); one draw
a read. -/
opaque freeRead : Nat → Word

/-- FREE VALUE (U14): LATENCY, taken as the number of host operations performed between the acceptance of
a command and its execution, a natural number with no bound (R6, R121, R270); one draw an acceptance. -/
opaque latency : Nat → Nat

end Sys2Proof.Config
end

