-- ==== Sys2Proof/Machine/State.lean ====
section
/-! DEFINITION. The state of HUFFCORE (spec/10_state.md): its registers, flags and internal memories, the
pending command, and the host that drives the bus (spec/00_scope.md R5). Plain data throughout. -/

namespace Sys2Proof.Machine

/-- Why the machine stops with a fault. -/
inductive Fault where
  /-- A host bus access while `rst` is asserted: "outside this spec", for which a model may fault (R260,
  U12). Raised by the host's access operations. Safe: the model stops where the spec says nothing. -/
  | accessDuringReset
  /-- BUSY_F = 1 with no pending command. Raised by the engine's turn. Safe: acceptance sets both and
  completion clears both (R120, R122), so no run reaches it. -/
  | noPendingCommand
  /-- GENC walked a node memory that is no strict binary tree although TREE_VALID = 1. Raised by GENC.
  Safe: R47 says that the tree is strict whenever TREE_VALID = 1, so no run reaches it. -/
  | brokenTree
  deriving DecidableEq, Repr

/-- Why the machine refuses an instruction. -/
inductive Refusal where
  /-- The instruction has no meaning in the model. Raised only by an arm of `exec`; no arm raises it. Safe. -/
  | notModelled (mnemonic : String)
  deriving DecidableEq, Repr

/-- An internal memory of elements `α`, indexed from 0. `cells` lists, index strictly rising, the elements
that hold a known value; an element not listed is "unspecified" and holds the free value of draw `fill`
at its index (R46, R232; log entry 1). -/
structure Table (α : Type) where
  cells : List (Nat × α)
  fill  : Nat
  deriving DecidableEq, Repr

/-- A stream buffer, INBUF or OUTBUF (R43): its cells are `Host.Cell`s. -/
abbrev Memory := Table Byte

/-- An entry of the node memory (R41). -/
structure Node where
  f     : Word
  leaf  : Bool
  sym   : Symbol
  left  : NodeIdx
  right : NodeIdx
  deriving DecidableEq, Repr

/-- One operation of the host (R79, R107). -/
inductive HostOp where
  /-- `WR off, v`: a 32-bit write at a byte offset. -/
  | wr (off : Offset) (v : Word)
  /-- `RD off`: a 32-bit read at a byte offset. -/
  | rd (off : Offset)
  /-- `EXPECT off, v`: a 32-bit read whose value the test requires to be `v`. -/
  | expect (off : Offset) (v : Word)
  /-- `WAIT`: repeat a read of STATUS until DONE is 1. -/
  | wait
  /-- A read access of any size in bytes at any bus address (R60, R63). -/
  | busRead (addr bytes : Nat)
  /-- A write access of any size in bytes at any bus address (R60, R63). -/
  | busWrite (addr bytes : Nat) (v : Word)
  /-- Assert the `rst` input (R260). -/
  | assertRst
  /-- Release the `rst` input (R260). -/
  | releaseRst
  deriving DecidableEq, Repr

/-- The response of a bus access (R62, R63). -/
inductive Response where
  | ok
  | error
  deriving DecidableEq, Repr

/-- What a bus access gives the host: a response, and the word of a read (0 for a write). -/
structure BusReply where
  resp : Response
  data : Word
  deriving DecidableEq, Repr

/-- The state of HUFFCORE and of its host. ID and CAP are constants (`Config.idValue`, `Config.capValue`);
STATUS and `irq` are computed from the fields (R23, R38). -/
structure State where
  /-- CMD.LAST, the last accepted command word (R22). -/
  cmdLast : Word
  /-- RESULT.CODE (R24). -/
  result : BitVec 8
  /-- ERR_INFO (R25). -/
  errInfo : Word
  /-- DATA, the operand of FSET (R27). -/
  data : Word
  /-- IN_LEN (R28). -/
  inLen : Word
  /-- OUT_LEN (R29). -/
  outLen : Word
  /-- ROOT[8:0] (R30). -/
  root : NodeIdx
  /-- NNODE[9:0] (R31). -/
  nnode : BitVec 10
  /-- NLEAF[8:0] (R32). -/
  nleaf : BitVec 9
  /-- CODE_MAXLEN[8:0] (R33). -/
  codeMaxLen : BitVec 9
  /-- IRQ_EN[2:0]: OVR_EN, ERR_EN, DONE_EN (R34). -/
  irqEn : BitVec 3
  /-- IRQ_STATUS[2:0]: OVR, ERR, DONE (R35). -/
  irqStatus : BitVec 3
  /-- BUSY_F (R37). -/
  busyF : Bool
  /-- DONE_F (R37). -/
  doneF : Bool
  /-- TREE_VALID (R37). -/
  treeValid : Bool
  /-- CODES_VALID (R37). -/
  codesValid : Bool
  /-- PEND, the accepted command word until its completion (R44). -/
  pend : Option Word
  /-- FREQ[0..255] (R40). -/
  freq : Table Word
  /-- FVALID[0..255], FVALID[s] in bit s (R40, R69). -/
  fvalid : BitVec 256
  /-- NODE[0..510] (R41). -/
  node : Table Node
  /-- CLEN[0..255] (R42). -/
  clen : Table (BitVec 9)
  /-- CODE[0..255]; CODE[s][j] is bit 255 - j, so the first bit is the most significant (R42, R71). -/
  code : Table (BitVec 256)
  /-- INBUF[0..BUF_BYTES-1] (R43). -/
  inbuf : Memory
  /-- OUTBUF[0..BUF_BYTES-1] (R43). -/
  outbuf : Memory
  /-- The `rst` input is asserted (R260). -/
  rstAsserted : Bool
  /-- Host state: the bus operations the host has still to perform (R26, R107). -/
  hostOps : List HostOp
  /-- Host state: the replies its accesses returned, the latest first (R271). -/
  hostReplies : List BusReply
  /-- Host state: an EXPECT did not hold (R107). -/
  expectFailed : Bool
  /-- The model's own: host operations still to pass before the engine's step (R121, log entry 3). -/
  latency : Nat
  /-- The model's own: the number of the next free draw (log entry 2). -/
  draws : Nat
  deriving DecidableEq, Repr

/-- Every element of the memory is unspecified, draw `fill` (R46). -/
def Table.unspecified {α : Type} (fill : Nat) : Table α := { cells := [], fill := fill }

/-- The state after `rst` (R46), its unspecified memories taken from the free draws numbered from `draws`,
with an idle host. -/
def State.afterRst (draws : Nat) : State where
  cmdLast := 0#32
  result := 0#8
  errInfo := 0#32
  data := 0#32
  inLen := 0#32
  outLen := 0#32
  root := 0#9
  nnode := 0#10
  nleaf := 0#9
  codeMaxLen := 0#9
  irqEn := 0#3
  irqStatus := 0#3
  busyF := false
  doneF := false
  treeValid := false
  codesValid := false
  pend := none
  freq := Table.unspecified draws
  fvalid := 0#256
  node := Table.unspecified draws
  clen := Table.unspecified draws
  code := Table.unspecified draws
  inbuf := Table.unspecified draws
  outbuf := Table.unspecified (draws + 1)
  rstAsserted := false
  hostOps := []
  hostReplies := []
  expectFailed := false
  latency := 0
  draws := draws + 2

/-- The machine right after reset (R46), with no host operation waiting. -/
def State.reset : State := State.afterRst 0

end Sys2Proof.Machine
end

