-- ==== Sys2Proof/Machine/Ops.lean ====
section
/-! DEFINITION. The named operations over memories and registers: element reads and writes of the internal
memories, acceptance and completion of a command (spec/40_control.md R120, R122), and the failing
completion `raise` (spec/60_exceptions.md R230 to R232), which is how HUFFCORE takes an exception. -/

namespace Sys2Proof.Machine

/-! ### Internal memories -/

/-- The known value at index `k`, if it is listed. -/
def cellAt {α : Type} : List (Nat × α) → Nat → Option α
  | [], _ => none
  | (i, v) :: cs, k => if i = k then some v else cellAt cs k

/-- The cells with `v` at index `k`, index strictly rising. -/
def putCell {α : Type} : List (Nat × α) → Nat → α → List (Nat × α)
  | [], k, v => [(k, v)]
  | (i, u) :: cs, k, v =>
    if k < i then (k, v) :: (i, u) :: cs
    else if k = i then (k, v) :: cs
    else (i, u) :: putCell cs k v

/-- Element read: the known value, or the free value of the memory's draw (R9, R46). -/
def Table.get {α : Type} (free : Nat → Nat → α) (t : Table α) (k : Nat) : α :=
  match cellAt t.cells k with
  | some v => v
  | none => free t.fill k

/-- Element write (R9). -/
def Table.put {α : Type} (t : Table α) (k : Nat) (v : α) : Table α :=
  { t with cells := putCell t.cells k v }

/-- The cells `(k, v0), (k+1, v1), ...`. -/
def cellsFrom {α : Type} : Nat → List α → List (Nat × α)
  | _, [] => []
  | k, v :: vs => (k, v) :: cellsFrom (k + 1) vs

/-- Elements 0, 1, ... take the listed values, and every element above them keeps what it holds. -/
def Table.putFirst {α : Type} (t : Table α) (vs : List α) : Table α :=
  { t with cells := cellsFrom 0 vs ++ t.cells.filter (fun c => vs.length ≤ c.1) }

/-- Each index is at least `lo` and greater than the one before it. -/
def risingFrom {α : Type} : Nat → List (Nat × α) → Bool
  | _, [] => true
  | lo, (i, _) :: cs => lo ≤ i && risingFrom (i + 1) cs

/-- The canonical form: indices strictly rising, each below the memory's size. -/
def Table.wf {α : Type} (size : Nat) (t : Table α) : Bool :=
  risingFrom 0 t.cells && t.cells.all (fun c => c.1 < size)

/-- The canonical form of a stream buffer, BUF_BYTES long (R43). -/
def Memory.wf (m : Memory) : Bool := Table.wf Config.bufBytes m

/-- The unspecified entry n of the node memory, draw `d`: five free fields (R41, R46). -/
def freeNode (d n : Nat) : Node where
  f := Config.freeNodeFreq d n
  leaf := Config.freeNodeLeaf d n
  sym := Config.freeNodeSym d n
  left := Config.freeNodeLeft d n
  right := Config.freeNodeRight d n

/-- FREQ[s] (R40). -/
def State.freqAt (s : State) (k : Nat) : Word := s.freq.get Config.freeFreq k

/-- FVALID[s] (R40). -/
def State.fvalidAt (s : State) (k : Nat) : Bool := s.fvalid.getLsbD k

/-- NODE[n] (R41). -/
def State.nodeAt (s : State) (n : Nat) : Node := s.node.get freeNode n

/-- CLEN[s] (R42). -/
def State.clenAt (s : State) (k : Nat) : BitVec 9 := s.clen.get Config.freeLen k

/-- CODE[s] (R42). -/
def State.codeAt (s : State) (k : Nat) : BitVec 256 := s.code.get Config.freeCode k

/-- INBUF[k] (R43). -/
def State.inByte (s : State) (k : Nat) : Byte := s.inbuf.get Config.freeByte k

/-- OUTBUF[k] (R43). -/
def State.outByte (s : State) (k : Nat) : Byte := s.outbuf.get Config.freeByte k

/-! ### Result codes -/

/-- The causes of a failure (R230). -/
inductive Cause where
  | emptyAlphabet
  | unknownSymbol
  | malformedInput
  | illegalCmd
  | noTree
  | noCodes
  | inLenRange
  | outOverflow
  | freqOverflow
  deriving DecidableEq, Repr

/-- The result code of a cause (R230); 0x00 is success. -/
def Cause.resultCode : Cause → BitVec 8
  | .emptyAlphabet => 0x01#8
  | .unknownSymbol => 0x02#8
  | .malformedInput => 0x03#8
  | .illegalCmd => 0x04#8
  | .noTree => 0x05#8
  | .noCodes => 0x06#8
  | .inLenRange => 0x07#8
  | .outOverflow => 0x08#8
  | .freqOverflow => 0x09#8

/-- A failure a command's rule raises: its cause and the value ERR_INFO records (R9, R231). -/
structure Failure where
  cause : Cause
  info  : Word
  deriving DecidableEq, Repr

/-- ERR_INFO with `tag` in [31:24] and `pos` in [23:0] (R231). -/
def taggedInfo (tag : BitVec 8) (pos : Nat) : Word := tag ++ BitVec.ofNat 24 pos

/-! ### Acceptance and completion -/

/-- IRQ_STATUS after the bits of `set` are set and those of `clear` cleared at one instant: set wins (R35). -/
def irqNext (old set clear : BitVec 3) : BitVec 3 := (old &&& ~~~clear) ||| set

/-- IRQ_STATUS.DONE (R35). -/
def irqDone : BitVec 3 := 0b001#3

/-- IRQ_STATUS.ERR (R35). -/
def irqErr : BitVec 3 := 0b010#3

/-- IRQ_STATUS.OVR (R35). -/
def irqOvr : BitVec 3 := 0b100#3

/-- Acceptance of the word `w` (R120). The free LATENCY of this command is drawn here (R121). -/
def accept (w : Word) (s : State) : State :=
  { s with pend := some w, cmdLast := w, busyF := true, doneF := false,
           latency := Config.latency s.draws, draws := s.draws + 1 }

/-- Successful completion, `complete()` (R122). IRQ_STATUS.ERR is not changed by a success. -/
def complete (s : State) : State :=
  { s with result := 0x00#8, errInfo := 0#32, irqStatus := irqNext s.irqStatus irqDone 0#3,
           busyF := false, doneF := true, pend := none }

/-- The part of a failing completion that is the same for every command (R232, its last three lines). -/
def completeFailed (f : Failure) (s : State) : State :=
  { s with result := f.cause.resultCode, errInfo := f.info,
           irqStatus := irqNext s.irqStatus (irqDone ||| irqErr) 0#3,
           busyF := false, doneF := true, pend := none }

/-- The commands that can fail, as R232 sorts them. -/
inductive FailingCommand where
  | build
  | genc
  | stream
  | illegal
  deriving DecidableEq, Repr

/-- Failures of ENC and DEC that leave OUTBUF's contents not fixed (R232). -/
def Cause.unfixesOutbuf : Cause → Bool
  | .unknownSymbol | .malformedInput | .outOverflow => true
  | .emptyAlphabet | .illegalCmd | .noTree | .noCodes | .inLenRange | .freqOverflow => false

/-- NODE[0..510] <- any (R232, U3). -/
def unfixNodes (s : State) : State :=
  { s with node := Table.unspecified s.draws, draws := s.draws + 1 }

/-- OUTBUF[0..BUF_BYTES-1] <- any (R232, U4). -/
def unfixOutbuf (s : State) : State :=
  { s with outbuf := Table.unspecified s.draws, draws := s.draws + 1 }

/-- BUILD's registers after a failure: no tree, no codes (R232). -/
def dropTree (s : State) : State :=
  { s with treeValid := false, codesValid := false, root := 0#9, nnode := 0#10, nleaf := 0#9,
           codeMaxLen := 0#9 }

/-- GENC's registers after a failure: no codes (R232). -/
def dropCodes (s : State) : State := { s with codesValid := false, codeMaxLen := 0#9 }

/-- OUT_LEN <- 0 (R232). -/
def dropOutput (s : State) : State := { s with outLen := 0#32 }

/-- The failure effects of the running command (R232, the case). -/
def failureEffects (c : FailingCommand) (cause : Cause) (s : State) : State :=
  match c with
  | .build => if cause = .freqOverflow then unfixNodes (dropTree s) else dropTree s
  | .genc => dropCodes s
  | .stream => if cause.unfixesOutbuf then unfixOutbuf (dropOutput s) else dropOutput s
  | .illegal => s

/-- Failing completion, `raise CAUSE(info)` (R232). `s` is the state at the start of the command's step,
so every earlier write of its rule is discarded. -/
def raiseFailure (c : FailingCommand) (f : Failure) (s : State) : State :=
  completeFailed f (failureEffects c f.cause s)

/-- The host's return from a failure: clear the IRQ_STATUS bits written 1 (R35, R237). No other state
needs restoring. -/
def clearIrq (bits : BitVec 3) (s : State) : State :=
  { s with irqStatus := irqNext s.irqStatus 0#3 bits }

/-- The overrun event of a dropped host write: IRQ_STATUS.OVR <- 1 and nothing else (R66, R234). -/
def overrun (s : State) : State := { s with irqStatus := irqNext s.irqStatus irqOvr 0#3 }

/-- Assertion of `rst`: the reset state (R46, R260), its unspecified memories newly drawn; a running
command is abandoned (R261). The host keeps its own position and replies. -/
def hardReset (s : State) : State :=
  { State.afterRst s.draws with
      rstAsserted := true, hostOps := s.hostOps, hostReplies := s.hostReplies,
      expectFailed := s.expectFailed }

end Sys2Proof.Machine
end

