-- ==== Sys2Proof/Machine/Flags.lean ====
section
/-! DEFINITION. What HUFFCORE computes from its flags: the STATUS word (spec/10_state.md R23) and the
interrupt output (R38). The flags themselves are written by acceptance, completion and the commands
(R37). -/

namespace Sys2Proof.Machine

/-- STATUS.ERR = (RESULT != 0) (R23). -/
def statusErr (s : State) : Bool := s.result != 0#8

/-- STATUS.OVR = IRQ_STATUS.OVR (R23). -/
def statusOvr (s : State) : Bool := s.irqStatus.getLsbD 2

/-- STATUS.SINGLE = (TREE_VALID = 1 and NLEAF = 1) (R23). -/
def statusSingle (s : State) : Bool := s.treeValid && s.nleaf == 1#9

/-- The STATUS word, bit 6 (SINGLE) down to bit 0 (BUSY), bits [31:7] zero (R23). -/
def statusWord (s : State) : Word :=
  0#25 ++ BitVec.ofBool (statusSingle s) ++ BitVec.ofBool s.codesValid ++ BitVec.ofBool s.treeValid ++
    BitVec.ofBool (statusOvr s) ++ BitVec.ofBool (statusErr s) ++ BitVec.ofBool s.doneF ++
    BitVec.ofBool s.busyF

/-- The level of the `irq` output (R38). -/
def irq (s : State) : Bool :=
  (s.irqStatus.getLsbD 0 && s.irqEn.getLsbD 0) || (s.irqStatus.getLsbD 1 && s.irqEn.getLsbD 1) ||
    (s.irqStatus.getLsbD 2 && s.irqEn.getLsbD 2)

end Sys2Proof.Machine
end

