-- ==== Sys2Proof/Machine/Operands.lean ====
section
/-! DEFINITION. How commands read their operands and lay out their results: bit streams in mode P and mode A
(spec/20_memory.md R72, R73), codes as bit strings (R42, R71), and the byte order of the buffer windows
(R68). -/

namespace Sys2Proof.Machine

/-! ### Bit streams -/

/-- Bit `i` of a packed stream: bit 7 - (i mod 8) of byte i div 8 (R72). -/
def bitP (byteAt : Nat → Byte) (i : Nat) : Bool := (byteAt (i / 8)).getLsbD (7 - i % 8)

/-- The character of a bit: 0x30 for 0, 0x31 for 1 (R73). -/
def charOfBit (b : Bool) : Byte := if b then 0x31#8 else 0x30#8

/-- The bit of a character; none for a byte that is neither 0x30 nor 0x31 (R73). -/
def bitOfChar (c : Byte) : Option Bool :=
  if c = 0x30#8 then some false else if c = 0x31#8 then some true else none

/-- `bit(A, j)`: the j-th bit of the stream, or none for a bad character (R211). -/
def streamBit (m : Mode) (byteAt : Nat → Byte) (j : Nat) : Option Bool :=
  match m with
  | .P => some (bitP byteAt j)
  | .A => bitOfChar (byteAt j)

/-- The capacity of a buffer in bits: 8 * BUF_BYTES in mode P, BUF_BYTES in mode A (R194, R211). -/
def bitCapacity : Mode → Nat
  | .P => 8 * Config.bufBytes
  | .A => Config.bufBytes

/-- One packed byte of at most eight bits, the first bit in bit 7, absent bits 0 (R72, R192). -/
def packByte (bs : List Bool) : Byte :=
  (List.range 8).foldl (fun acc j => if bs.getD j false then acc ||| (1#8 <<< (7 - j)) else acc) 0#8

/-- `n` packed bytes of a bit string. -/
def packBytes : Nat → List Bool → List Byte
  | 0, _ => []
  | n + 1, bs => packByte (bs.take 8) :: packBytes n (bs.drop 8)

/-- The bytes that hold a bit string: ceil(N/8) packed bytes in mode P, N characters in mode A (R192,
R193). -/
def streamBytes (m : Mode) (bs : List Bool) : List Byte :=
  match m with
  | .P => packBytes ((bs.length + 7) / 8) bs
  | .A => bs.map charOfBit

/-! ### Codes -/

/-- CODE[s][0 .. len-1] as a bit string, first bit first (R8, R42). -/
def codePrefix (c : BitVec 256) (len : Nat) : List Bool := (List.range len).map (fun j => c.getMsbD j)

/-- The number a bit string reads as, the first bit most significant. -/
def bitsToNat (bs : List Bool) : Nat := bs.foldl (fun n b => 2 * n + b.toNat) 0

/-- `p ++ (256 - len(p)) zero bits` as CODE holds it (R170, R174). -/
def codeOfBits (p : List Bool) : BitVec 256 :=
  BitVec.ofNat 256 (bitsToNat p <<< (Config.codeStore - p.length))

/-! ### Bytes of a bus word -/

/-- The word of four consecutive bytes, the first in bits [7:0] (R68). -/
def wordOfBytes (b0 b1 b2 b3 : Byte) : Word := b3 ++ b2 ++ b1 ++ b0

/-- Byte `i` of a word, bits [8i+7:8i] (R68). -/
def byteOfWord (v : Word) (i : Nat) : Byte := v.extractLsb' (8 * i) 8

end Sys2Proof.Machine
end

