-- ==== Sys2Proof/Machine/Bus.lean ====
section
/-! DEFINITION. The host bus: the address map (spec/20_memory.md R61), what each location reads (R62, R64,
R68 to R71) and what a write to it does (R64 to R66), the any-value reads while the engine is busy (R67), and
the accesses the block rejects (R63). -/

namespace Sys2Proof.Machine

/-- The locations of the address map (R61); windows carry the element their word belongs to. -/
inductive Loc where
  | id | cmd | status | result | errInfo | data | inLen | outLen | root | nnode | nleaf | codeMaxLen
  | irqEn | irqStatus | cap
  /-- An offset that holds no register (R39, R64). -/
  | reserved
  /-- FREQ[sym]. -/
  | freq (sym : Nat)
  /-- FVALID[32w .. 32w+31]. -/
  | fvalid (w : Nat)
  /-- NODE[n].f. -/
  | nodeFreq (n : Nat)
  /-- The link word of NODE[n]. -/
  | nodeLink (n : Nat)
  /-- CLEN[sym]. -/
  | clen (sym : Nat)
  /-- Word `w` of CODE[sym]. -/
  | code (sym w : Nat)
  /-- INBUF[k .. k+3]. -/
  | inbuf (k : Nat)
  /-- OUTBUF[k .. k+3]. -/
  | outbuf (k : Nat)
  deriving DecidableEq, Repr

/-- The register at an offset below 0x0040 (R61). -/
def registerAt (a : Nat) : Loc :=
  if a = 0x00 then .id
  else if a = 0x04 then .cmd
  else if a = 0x08 then .status
  else if a = 0x0C then .result
  else if a = 0x10 then .errInfo
  else if a = 0x14 then .data
  else if a = 0x18 then .inLen
  else if a = 0x1C then .outLen
  else if a = 0x20 then .root
  else if a = 0x24 then .nnode
  else if a = 0x28 then .nleaf
  else if a = 0x2C then .codeMaxLen
  else if a = 0x30 then .irqEn
  else if a = 0x34 then .irqStatus
  else if a = 0x38 then .cap
  else .reserved

/-- The location of a word offset, a multiple of 4 (R61). -/
def locate (off : Offset) : Loc :=
  let a := off.toNat
  if a < 0x0400 then registerAt a
  else if a < 0x0800 then .freq ((a - 0x0400) / 4)
  else if a < 0x0820 then .fvalid ((a - 0x0800) / 4)
  else if a < 0x1000 then .reserved
  else if a < 0x1800 then .nodeFreq ((a - 0x1000) / 4)
  else if a < 0x2000 then .nodeLink ((a - 0x1800) / 4)
  else if a < 0x2400 then .clen ((a - 0x2000) / 4)
  else if a < 0x4000 then .reserved
  else if a < 0x6000 then .code ((a - 0x4000) / 32) ((a - 0x4000) % 32 / 4)
  else if a < 0x8000 then .reserved
  else if a < 0xC000 then .inbuf (a - 0x8000)
  else .outbuf (a - 0xC000)

/-! ### What a location reads -/

/-- The link word of a node (R70). -/
def linkWord (nd : Node) : Word :=
  if nd.leaf then 1#1 ++ 0#23 ++ nd.sym else 0#1 ++ 0#6 ++ nd.right ++ 0#7 ++ nd.left

/-- The four bytes of a buffer at `k`, the first in bits [7:0] (R68). -/
def bufferWord (byteAt : Nat → Byte) (k : Nat) : Word :=
  wordOfBytes (byteAt k) (byteAt (k + 1)) (byteAt (k + 2)) (byteAt (k + 3))

/-- The word a location holds. Reserved bits and reserved offsets read 0 (R64); entry 511 of the node
windows reads 0 (R70). -/
def locWord (s : State) : Loc → Word
  | .id => Config.idValue
  | .cmd => s.cmdLast
  | .status => statusWord s
  | .result => s.result.setWidth 32
  | .errInfo => s.errInfo
  | .data => s.data
  | .inLen => s.inLen
  | .outLen => s.outLen
  | .root => s.root.setWidth 32
  | .nnode => s.nnode.setWidth 32
  | .nleaf => s.nleaf.setWidth 32
  | .codeMaxLen => s.codeMaxLen.setWidth 32
  | .irqEn => s.irqEn.setWidth 32
  | .irqStatus => s.irqStatus.setWidth 32
  | .cap => Config.capValue
  | .reserved => 0#32
  | .freq sym => s.freqAt sym
  | .fvalid w => s.fvalid.extractLsb' (32 * w) 32
  | .nodeFreq n => if n < Config.nodeMax then (s.nodeAt n).f else 0#32
  | .nodeLink n => if n < Config.nodeMax then linkWord (s.nodeAt n) else 0#32
  | .clen sym => (s.clenAt sym).setWidth 32
  | .code sym w => (s.codeAt sym).extractLsb' (32 * (7 - w)) 32
  | .inbuf k => bufferWord s.inByte k
  | .outbuf k => bufferWord s.outByte k

/-! ### Reads while the engine is busy -/

/-- The bits of a 9-bit field: ROOT, NLEAF, CODE_MAXLEN, CLEN (R30, R32, R33, R71). -/
def bits9 : Word := 0x000001FF#32

/-- The bits a link word of either shape can hold (R70). -/
def linkBits : Word := 0x81FF01FF#32

/-- STATUS.TREE_VALID, CODES_VALID and SINGLE (R23). -/
def statusTreeBits : Word := 0x00000070#32

/-- STATUS.CODES_VALID (R23). -/
def statusCodesBit : Word := 0x00000020#32

/-- STATUS.OVR (R23). -/
def statusOvrBit : Word := 0x00000008#32

/-- The bits of a location that BUILD writes (R67). -/
def unfixedByBuild : Loc → Word
  | .nodeFreq n => if n < Config.nodeMax then 0xFFFFFFFF#32 else 0#32
  | .nodeLink n => if n < Config.nodeMax then linkBits else 0#32
  | .root | .nleaf | .codeMaxLen => bits9
  | .nnode => 0x000003FF#32
  | .status => statusTreeBits
  | _ => 0#32

/-- The bits of a location that GENC writes (R67). -/
def unfixedByGenc : Loc → Word
  | .clen _ => bits9
  | .code _ _ => 0xFFFFFFFF#32
  | .codeMaxLen => bits9
  | .status => statusCodesBit
  | _ => 0#32

/-- The bits of a location that SRST writes (R67, R124). RESULT and ERR_INFO keep the previous command's
values until completion (R67). -/
def unfixedBySrst : Loc → Word
  | .fvalid _ | .data | .inLen | .outLen => 0xFFFFFFFF#32
  | .root | .nleaf | .codeMaxLen => bits9
  | .nnode => 0x000003FF#32
  | .irqStatus => 0x00000007#32
  | .status => statusTreeBits ||| statusOvrBit
  | _ => 0#32

/-- The bits of a location that the frequency table commands write (R67). -/
def unfixedByFreqTable : Loc → Word
  | .freq _ | .fvalid _ => 0xFFFFFFFF#32
  | _ => 0#32

/-- The bits of a location that ENC and DEC write (R67). -/
def unfixedByStream : Loc → Word
  | .outbuf _ | .outLen => 0xFFFFFFFF#32
  | _ => 0#32

/-- The bits of a location that MOVE writes (R67). -/
def unfixedByMove : Loc → Word
  | .inbuf _ | .inLen => 0xFFFFFFFF#32
  | _ => 0#32

/-- The bits of a location whose read returns any value while the command runs (R67, the table). -/
def unfixedBits (i : Instr) (l : Loc) : Word :=
  match i with
  | .nop => 0#32
  | .srst => unfixedBySrst l
  | .fclr | .fset _ | .fdel _ => unfixedByFreqTable l
  | .build => unfixedByBuild l
  | .genc => unfixedByGenc l
  | .enc _ | .dec _ => unfixedByStream l
  | .move => unfixedByMove l

/-- The bits of a location that a read now may return any value for: none while idle, none while an illegal
word runs, which writes nothing but its completion (R67, R104). -/
def readUnfixed (s : State) (l : Loc) : Word :=
  if s.busyF then
    match s.pend with
    | some w =>
      match decode w with
      | .ok i => unfixedBits i l
      | .error _ => 0#32
    | none => 0#32
  else 0#32

/-- What a read of the location returns, `free` supplying the bits that are not fixed (R67). -/
def readWord (s : State) (free : Word) (l : Loc) : Word :=
  (locWord s l &&& ~~~readUnfixed s l) ||| (free &&& readUnfixed s l)

/-! ### What a write does -/

/-- A 32-bit write to the INBUF window writes all four bytes (R68). -/
def writeInbuf (k : Nat) (v : Word) (m : Memory) : Memory :=
  (((m.put k (byteOfWord v 0)).put (k + 1) (byteOfWord v 1)).put (k + 2) (byteOfWord v 2)).put (k + 3)
    (byteOfWord v 3)

/-- The write effect of a location (R65); every other write is ignored (R64). -/
def writeLoc (v : Word) (l : Loc) (s : State) : State :=
  match l with
  | .cmd => accept v s
  | .data => { s with data := v }
  | .inLen => { s with inLen := v }
  | .irqEn => { s with irqEn := v.extractLsb' 0 3 }
  | .irqStatus => clearIrq (v.extractLsb' 0 3) s
  | .inbuf k => { s with inbuf := writeInbuf k v s.inbuf }
  | .id | .status | .result | .errInfo | .outLen | .root | .nnode | .nleaf | .codeMaxLen | .cap
  | .reserved | .freq _ | .fvalid _ | .nodeFreq _ | .nodeLink _ | .clen _ | .code _ _ | .outbuf _ => s

/-- The locations whose writes are dropped while the engine is busy: CMD, DATA, IN_LEN and INBUF (R66). -/
def droppedWhileBusy : Loc → Bool
  | .cmd | .data | .inLen | .inbuf _ => true
  | .id | .status | .result | .errInfo | .outLen | .root | .nnode | .nleaf | .codeMaxLen | .irqEn
  | .irqStatus | .cap | .reserved | .freq _ | .fvalid _ | .nodeFreq _ | .nodeLink _ | .clen _ | .code _ _
  | .outbuf _ => false

/-- A host write to a location (R66). -/
def hostWrite (v : Word) (l : Loc) (s : State) : State :=
  if s.busyF && droppedWhileBusy l then overrun s else writeLoc v l s

/-! ### Accesses -/

/-- The block performs only 4-byte accesses at offsets with a[1:0] = 0 (R62, R63). -/
def accessOk (off : Offset) (bytes : Nat) : Bool := bytes == 4 && off.extractLsb' 0 2 == 0#2

/-- A read access of `bytes` bytes at a byte offset (R62, R63, R67). A read of a busy engine takes one free
draw. -/
def busReadAt (off : Offset) (bytes : Nat) (s : State) : BusReply × State :=
  if accessOk off bytes then
    if s.busyF then (⟨.ok, readWord s (Config.freeRead s.draws) (locate off)⟩, { s with draws := s.draws + 1 })
    else (⟨.ok, locWord s (locate off)⟩, s)
  else (⟨.error, 0#32⟩, s)

/-- A write access of `bytes` bytes at a byte offset (R62, R63). -/
def busWriteAt (off : Offset) (bytes : Nat) (v : Word) (s : State) : BusReply × State :=
  if accessOk off bytes then (⟨.ok, 0#32⟩, hostWrite v (locate off) s)
  else (⟨.error, 0#32⟩, s)

/-- The byte offset of a bus address: its low 16 bits, if the address is in the window at HUFF_BASE (R60), that is
if it lies in the 64 KiB page numbered `Config.huffPage` (log entry 7). -/
def windowOffset (addr : Nat) : Option Offset :=
  if addr / 65536 = Config.huffPage then some (BitVec.ofNat 16 addr) else none

end Sys2Proof.Machine
end

