-- ==== Sys2Proof/Machine/CodeGenerator.lean ====
section
/-! DEFINITION. GENC: the tree traversal that derives the code table (spec/43_code_generator.md R170 to
R174). -/

namespace Sys2Proof.Machine

/-- A leaf's symbol with the bit string of its path (R171). -/
abbrev Coded := Symbol × List Bool

/-- The depth-first walk from node `k` with the path `p`: the leaves below it, left before right, each with
its path (R170, R171). `none` when more than `fuel` levels lie below, which no strict tree of NODE_MAX
nodes has (R176). -/
def walk (nodeAt : Nat → Node) : Nat → Nat → List Bool → Option (List Coded)
  | 0, _, _ => none
  | fuel + 1, k, p =>
    let nd := nodeAt k
    if nd.leaf then some [(nd.sym, p)]
    else
      match walk nodeAt fuel nd.left.toNat (p ++ [false]), walk nodeAt fuel nd.right.toNat (p ++ [true]) with
      | some l, some r => some (l ++ r)
      | _, _ => none

/-- The codes of the tree at `root`: the paths of its leaves, but the code "0" for the sole symbol of a
single-leaf tree (R170, R172). -/
def treeCodes (nodeAt : Nat → Node) (root : Nat) : Option (List Coded) :=
  if (nodeAt root).leaf then some [((nodeAt root).sym, [false])]
  else walk nodeAt Config.nodeMax root []

/-- The code of symbol `k` in the table: the string written last for it; none for a symbol that is no leaf
(R170, R173). -/
def codeFor (codes : List Coded) (k : Nat) : Option (List Bool) :=
  (codes.reverse.find? (fun c => c.1.toNat == k)).map Prod.snd

/-- CLEN[k]: the code's length, 0 for no code (R173). -/
def lengthFor (codes : List Coded) (k : Nat) : BitVec 9 :=
  match codeFor codes k with
  | some p => BitVec.ofNat 9 p.length
  | none => 0#9

/-- CODE[k]: the code's bits, then zeros; all zero for no code (R173, R174). -/
def bitsFor (codes : List Coded) (k : Nat) : BitVec 256 :=
  match codeFor codes k with
  | some p => codeOfBits p
  | none => 0#256

/-- CLEN[0..255] as GENC writes it. -/
def lengthTable (codes : List Coded) : List (BitVec 9) := (List.range Config.nsym).map (lengthFor codes)

/-- CODE[0..255] as GENC writes it. -/
def bitsTable (codes : List Coded) : List (BitVec 256) := (List.range Config.nsym).map (bitsFor codes)

/-- The greatest of the lengths (R170). -/
def maxLength (ls : List (BitVec 9)) : BitVec 9 := ls.foldl (fun m l => if m < l then l else m) 0#9

/-- The table GENC commits (R170). -/
def commitCodes (codes : List Coded) (s : State) : State :=
  { s with clen := s.clen.putFirst (lengthTable codes), code := s.code.putFirst (bitsTable codes),
           codeMaxLen := maxLength (lengthTable codes), codesValid := true }

/-- GENC: derive the code table from the tree (R170). -/
def execGenc (s : State) : Host.Outcome State Fault Refusal :=
  if s.treeValid then
    match treeCodes s.nodeAt s.root.toNat with
    | some codes => .next (complete (commitCodes codes s))
    | none => .fault .brokenTree
  else .next (raiseFailure .genc ⟨.noTree, 0#32⟩ s)

end Sys2Proof.Machine
end

