-- ==== Sys2Proof/Machine/Control.lean ====
section
/-! DEFINITION. The control commands NOP, SRST and MOVE (spec/40_control.md R123 to R125). -/

namespace Sys2Proof.Machine

/-- NOP: do nothing and complete (R123). -/
def execNop (s : State) : Host.Outcome State Fault Refusal := .next (complete s)

/-- The writes of SRST before its completion (R124). IRQ_EN, CMD.LAST and the contents of every memory
but FVALID stay. -/
def softReset (s : State) : State :=
  { s with fvalid := 0#256, treeValid := false, codesValid := false, data := 0#32, inLen := 0#32,
           outLen := 0#32, root := 0#9, nnode := 0#10, nleaf := 0#9, codeMaxLen := 0#9,
           irqStatus := 0#3 }

/-- SRST: soft reset of the command state, then complete (R124). -/
def execSrst (s : State) : Host.Outcome State Fault Refusal := .next (complete (softReset s))

/-- MOVE: copy OUTBUF, all of it, and OUT_LEN to INBUF and IN_LEN (R125). An unspecified byte stays
unspecified: the copy holds the same free values. -/
def execMove (s : State) : Host.Outcome State Fault Refusal :=
  .next (complete { s with inbuf := s.outbuf, inLen := s.outLen })

end Sys2Proof.Machine
end

