-- ==== Sys2Proof/Machine/Decoder.lean ====
section
/-! DEFINITION. DEC: the bit-serial deserializer, the tree walker and symbol output (spec/45_decoder.md R210
to R217). -/

namespace Sys2Proof.Machine

/-- Where the decoder stands between two bits: the cursor, the position of the first bit of the code it is
in, and the number of symbols out (R210, R212). -/
structure Cursor where
  node  : Nat
  start : Nat
  count : Nat
  deriving DecidableEq, Repr

/-- What one bit does to the cursor: the new cursor and the symbol it completes, if any (R210). `j` is the
bit's position. -/
def decodeBit (s : State) (j : Nat) (b : Bool) (c : Cursor) : Except Failure (Cursor × Option Symbol) :=
  let root := s.root.toNat
  let emit (sym : Symbol) (start : Nat) : Except Failure (Cursor × Option Symbol) :=
    if c.count = Config.bufBytes then .error ⟨.outOverflow, BitVec.ofNat 32 j⟩
    else .ok (⟨root, start, c.count + 1⟩, some sym)
  if (s.nodeAt root).leaf then emit (s.nodeAt root).sym c.start
  else
    let start := if c.node = root then j else c.start
    let nd := s.nodeAt c.node
    let nxt := (if b then nd.right else nd.left).toNat
    if s.nnode.toNat ≤ nxt then .error ⟨.malformedInput, taggedInfo 0x03#8 j⟩
    else if (s.nodeAt nxt).leaf then emit (s.nodeAt nxt).sym start
    else .ok (⟨nxt, start, c.count⟩, none)

/-- The symbols of the stream's bits from position `j` on, `remaining` of them. A bad character fails at its
position (R211); a stream that ends with the cursor off the root fails at the start of the incomplete
code (R214). -/
def decodeFrom (s : State) (m : Mode) : Nat → Nat → Cursor → Except Failure (List Symbol)
  | 0, _, c =>
    if c.node = s.root.toNat then .ok []
    else .error ⟨.malformedInput, taggedInfo 0x02#8 c.start⟩
  | remaining + 1, j, c =>
    match streamBit m s.inByte j with
    | none => .error ⟨.malformedInput, taggedInfo 0x01#8 j⟩
    | some b =>
      match decodeBit s j b c with
      | .error f => .error f
      | .ok (c', sym) =>
        match decodeFrom s m remaining (j + 1) c' with
        | .error f => .error f
        | .ok rest => .ok (sym.toList ++ rest)

/-- OUTBUF and OUT_LEN of a finished decoding (R215). -/
def commitDecoding (syms : List Symbol) (s : State) : State :=
  { s with outbuf := s.outbuf.putFirst syms, outLen := BitVec.ofNat 32 syms.length }

/-- DEC.P / DEC.A: decode the bit stream in INBUF into symbols in OUTBUF (R210), the causes in the order of
R233. The cursor starts at ROOT (R212). -/
def execDec (m : Mode) (s : State) : Host.Outcome State Fault Refusal :=
  if !s.treeValid then .next (raiseFailure .stream ⟨.noTree, 0#32⟩ s)
  else if bitCapacity m < s.inLen.toNat then .next (raiseFailure .stream ⟨.inLenRange, s.inLen⟩ s)
  else
    match decodeFrom s m s.inLen.toNat 0 ⟨s.root.toNat, 0, 0⟩ with
    | .error f => .next (raiseFailure .stream f s)
    | .ok syms => .next (complete (commitDecoding syms s))

end Sys2Proof.Machine
end

