-- ==== Sys2Proof/Machine/Encoder.lean ====
section
/-! DEFINITION. ENC: code lookup and the bit-packer (spec/44_encoder.md R190 to R196). -/

namespace Sys2Proof.Machine

/-- The bits of the input symbols from position `i` on, `count` of them, after `len` bits are out: the first
position whose symbol has no code (R191) or whose code does not fit in `cap` bits (R194) fails. -/
def encodeFrom (s : State) (cap : Nat) : Nat → Nat → Nat → Except Failure (List Bool)
  | 0, _, _ => .ok []
  | count + 1, i, len =>
    let sym := s.inByte i
    let codeLen := (s.clenAt sym.toNat).toNat
    if codeLen = 0 then .error ⟨.unknownSymbol, taggedInfo sym i⟩
    else if cap < len + codeLen then .error ⟨.outOverflow, BitVec.ofNat 32 i⟩
    else
      match encodeFrom s cap count (i + 1) (len + codeLen) with
      | .ok rest => .ok (codePrefix (s.codeAt sym.toNat) codeLen ++ rest)
      | .error f => .error f

/-- OUTBUF and OUT_LEN of a finished encoding (R192, R193, R195). -/
def commitEncoding (m : Mode) (bits : List Bool) (s : State) : State :=
  { s with outbuf := s.outbuf.putFirst (streamBytes m bits), outLen := BitVec.ofNat 32 bits.length }

/-- ENC.P / ENC.A: encode the symbols INBUF[0..IN_LEN-1] into OUTBUF (R190), the causes in the order of
R233. -/
def execEnc (m : Mode) (s : State) : Host.Outcome State Fault Refusal :=
  if !s.codesValid then .next (raiseFailure .stream ⟨.noCodes, 0#32⟩ s)
  else if Config.bufBytes < s.inLen.toNat then .next (raiseFailure .stream ⟨.inLenRange, s.inLen⟩ s)
  else
    match encodeFrom s (bitCapacity m) s.inLen.toNat 0 0 with
    | .error f => .next (raiseFailure .stream f s)
    | .ok bits => .next (complete (commitEncoding m bits s))

end Sys2Proof.Machine
end

