-- ==== Sys2Proof/Machine/FreqTable.lean ====
section
/-! DEFINITION. The frequency table commands FCLR, FSET and FDEL (spec/41_freq_table.md R140 to R142). -/

namespace Sys2Proof.Machine

/-- FVALID with the bit of `sym` set to `b`. -/
def setValid (v : BitVec 256) (sym : Symbol) (b : Bool) : BitVec 256 :=
  if b then v ||| (1#256 <<< sym.toNat) else v &&& ~~~(1#256 <<< sym.toNat)

/-- FREQ[sym] <- count; FVALID[sym] <- valid (R141, R142). -/
def writeKey (sym : Symbol) (count : Word) (valid : Bool) (s : State) : State :=
  { s with freq := s.freq.put sym.toNat count, fvalid := setValid s.fvalid sym valid }

/-- FCLR: every FREQ[s] <- 0 and FVALID[s] <- 0 (R140). -/
def execFclr (s : State) : Host.Outcome State Fault Refusal :=
  .next (complete { s with freq := s.freq.putFirst (List.replicate Config.nsym 0#32), fvalid := 0#256 })

/-- FSET sym: make sym a key with count DATA (R141). -/
def execFset (sym : Symbol) (s : State) : Host.Outcome State Fault Refusal :=
  .next (complete (writeKey sym s.data true s))

/-- FDEL sym: remove sym from the map (R142). -/
def execFdel (sym : Symbol) (s : State) : Host.Outcome State Fault Refusal :=
  .next (complete (writeKey sym 0#32 false s))

end Sys2Proof.Machine
end

