-- ==== Sys2Proof/Machine/TreeBuilder.lean ====
section
/-! DEFINITION. BUILD: the priority queue and the node merger (spec/42_tree_builder.md R150 to R158). -/

namespace Sys2Proof.Machine

/-- An element of the pool: `key(k) = (NODE[k].f, k)` (R152). -/
abbrev Key := Nat × Nat

/-- Keys are compared lexicographically: by frequency, then by node index (R152). -/
def keyBefore (x y : Key) : Bool := x.1 < y.1 || (x.1 == y.1 && x.2 < y.2)

/-- The least key of a pool whose first element is `k`. -/
def leastKey (k : Key) : List Key → Key
  | [] => k
  | x :: xs => leastKey (if keyBefore x k then x else k) xs

/-- Remove the least key from the pool; none when the pool is empty (R153). -/
def takeLeast : List Key → Option (Key × List Key)
  | [] => none
  | k :: ks =>
    let m := leastKey k ks
    some (m, (k :: ks).erase m)

/-- The keys of the map in ascending symbol order (R151). -/
def keySymbols (s : State) : List Nat := (List.range Config.nsym).filter s.fvalidAt

/-- The leaf of symbol `k` with its count (R150, R151). -/
def leafNode (f : Word) (k : Nat) : Node where
  f := f
  leaf := true
  sym := BitVec.ofNat 8 k
  left := 0#9
  right := 0#9

/-- The leaves NODE[0..n-1] (R151). -/
def leaves (s : State) : List Node := (keySymbols s).map (fun k => leafNode (s.freqAt k) k)

/-- The pool of the leaves 0 .. n-1 (R150). -/
def initialPool (ls : List Node) : List Key := ls.zipIdx.map (fun x => (x.1.f.toNat, x.2))

/-- The internal node of the merge of `a` and `b`: left is the first removed (R153). -/
def mergedNode (a b : Key) : Node where
  f := BitVec.ofNat 32 (a.1 + b.1)
  leaf := false
  sym := 0#8
  left := BitVec.ofNat 9 a.2
  right := BitVec.ofNat 9 b.2

/-- `m` merges (R153): the nodes so far, `next` being their number, and the pool. A sum above 2^32 - 1
answers the index the node would have taken (R155). -/
def mergeLoop : Nat → List Node → List Key → Except Nat (List Node × List Key)
  | 0, nodes, pool => .ok (nodes, pool)
  | m + 1, nodes, pool =>
    match takeLeast pool with
    | none => .ok (nodes, pool)
    | some (a, poolA) =>
      match takeLeast poolA with
      | none => .ok (nodes, pool)
      | some (b, poolB) =>
        if Config.freqMax < a.1 + b.1 then .error nodes.length
        else mergeLoop m (nodes ++ [mergedNode a b]) ((a.1 + b.1, nodes.length) :: poolB)

/-- The registers and nodes BUILD commits (R154, R158). ROOT is the one element of the pool. -/
def commitTree (n : Nat) (nodes : List Node) (pool : List Key) (s : State) : State :=
  { s with node := s.node.putFirst nodes, root := BitVec.ofNat 9 (pool.headD (0, 0)).2,
           nnode := BitVec.ofNat 10 nodes.length, nleaf := BitVec.ofNat 9 n, treeValid := true,
           codesValid := false, codeMaxLen := 0#9 }

/-- BUILD: build the Huffman tree of the frequency table into the node memory (R150). Of n leaves there
are n - 1 merges (R154). -/
def execBuild (s : State) : Host.Outcome State Fault Refusal :=
  let ls := leaves s
  if ls.length = 0 then .next (raiseFailure .build ⟨.emptyAlphabet, 0#32⟩ s)
  else
    match mergeLoop (ls.length - 1) ls (initialPool ls) with
    | .error next => .next (raiseFailure .build ⟨.freqOverflow, BitVec.ofNat 32 next⟩ s)
    | .ok (nodes, pool) => .next (complete (commitTree ls.length nodes pool s))

end Sys2Proof.Machine
end

