-- ==== Sys2Proof/Machine/Dispatch.lean ====
section
/-! DEFINITION. The dispatch of a decoded command to its meaning (spec/30_encoding.md R103, spec/40_control.md
R121): one arm per constructor of Instr. -/

namespace Sys2Proof.Machine

def exec (i : Instr) (s : State) : Host.Outcome State Fault Refusal :=
  match i with
  | .nop => Sys2Proof.Machine.execNop s
  | .srst => Sys2Proof.Machine.execSrst s
  | .fclr => Sys2Proof.Machine.execFclr s
  | .fset sym => Sys2Proof.Machine.execFset sym s
  | .fdel sym => Sys2Proof.Machine.execFdel sym s
  | .build => Sys2Proof.Machine.execBuild s
  | .genc => Sys2Proof.Machine.execGenc s
  | .enc mode => Sys2Proof.Machine.execEnc mode s
  | .dec mode => Sys2Proof.Machine.execDec mode s
  | .move => Sys2Proof.Machine.execMove s

end Sys2Proof.Machine
end

