-- ==== Sys2Proof/Machine/HostProgram.lean ====
section
/-! DEFINITION. Host programs as the spec writes them: the assembler's lines and the pseudo-instructions,
each a list of bus operations (spec/30_encoding.md R106 to R108). -/

namespace Sys2Proof.Machine

/-- The offset of CMD (R61). -/
def cmdOff : Offset := 0x0004#16

/-- The offset of DATA (R61). -/
def dataOff : Offset := 0x0014#16

/-- The offset of IN_LEN (R61). -/
def inLenOff : Offset := 0x0018#16

/-- The offset of RESULT (R61). -/
def resultOff : Offset := 0x000C#16

/-- The offset of STATUS (R61). -/
def statusOff : Offset := 0x0008#16

/-- The word an assembler line emits; none for an assembly error (R106). -/
def assemble (l : AsmLine) : Option Word := l.command.map encode

/-- `WR off, v` for an offset of any size, as an expansion may name one. The window has 2^16 bytes (R60), so an offset
beyond it is a write at HUFF_BASE + off, outside the window (log entry 17). -/
def writeAt (off : Nat) (v : Word) : HostOp :=
  if off < 65536 then .wr (BitVec.ofNat 16 off) v else .busWrite (Config.huffBase + off) 4 v

/-- `DO c` (R108). -/
def doCommand (c : Instr) : List HostOp := [.wr cmdOff (encode c), .wait]

/-- `LOADF sym, n` (R108). -/
def loadF (sym : Symbol) (n : Word) : List HostOp := .wr dataOff n :: doCommand (.fset sym)

/-- Word `k` of a byte list, missing bytes 0 (R108). -/
def loadWord (bytes : List Byte) (k : Nat) : Word :=
  bytes.getD (4 * k + 3) 0#8 ++ bytes.getD (4 * k + 2) 0#8 ++ bytes.getD (4 * k + 1) 0#8 ++
    bytes.getD (4 * k) 0#8

/-- The INBUF writes of a byte list (R108). -/
def loadBytes (bytes : List Byte) : List HostOp :=
  (List.range ((bytes.length + 3) / 4)).map (fun k => writeAt (0x8000 + 4 * k) (loadWord bytes k))

/-- `LOADIN b0 b1 ...`: the bytes, then their number to IN_LEN (R108). -/
def loadIn (bytes : List Byte) : List HostOp :=
  loadBytes bytes ++ [.wr inLenOff (BitVec.ofNat 32 bytes.length)]

/-- `LOADIN "text"`: the ASCII codes of the characters (R108, K4). -/
def loadText (text : String) : List HostOp := loadIn (text.toList.map (fun c => BitVec.ofNat 8 c.toNat))

/-- `LOADBITS m, b0 ...`: LOADIN of the packed bytes, then the bit count to IN_LEN (R108). -/
def loadBits (m : Nat) (bytes : List Byte) : List HostOp :=
  loadIn bytes ++ [.wr inLenOff (BitVec.ofNat 32 m)]

/-- `build_tree(map)`: FCLR, one LOADF a key, BUILD (R108). -/
def buildTree (map : List (Symbol × Word)) : List HostOp :=
  doCommand .fclr ++ map.flatMap (fun key => loadF key.1 key.2) ++ doCommand .build

/-- `generate_codes(tree)`: GENC (R108). -/
def generateCodes : List HostOp := doCommand .genc

/-- `encode(seq, table)`: LOADIN of the sequence, then ENC.P or ENC.A (R108). -/
def encodeSeq (m : Mode) (seq : List Byte) : List HostOp := loadIn seq ++ doCommand (.enc m)

/-- Where `decode` takes its stream from: LOADIN, LOADBITS, or the output of an encode before it (R108). -/
inductive StreamSource where
  | bytes (bs : List Byte)
  | bits (m : Nat) (bs : List Byte)
  | output
  deriving DecidableEq, Repr

/-- The operations that put the stream into INBUF and IN_LEN (R108). -/
def loadStream : StreamSource → List HostOp
  | .bytes bs => loadIn bs
  | .bits m bs => loadBits m bs
  | .output => doCommand .move

/-- `decode(bits, tree)`: load the stream, then DEC.P or DEC.A (R108). -/
def decodeStream (m : Mode) (source : StreamSource) : List HostOp := loadStream source ++ doCommand (.dec m)

/-- `CHECK`: the last command succeeded (R108). -/
def checkResult : List HostOp := [.expect resultOff 0#32]

end Sys2Proof.Machine
end

