-- ==== Sys2Proof/Machine/Agents.lean ====
section
/-! DEFINITION. The two agents that take steps, the host and the command engine (spec/00_scope.md R5), and
which of them moves next (spec/20_memory.md R75, spec/40_control.md R121). -/

namespace Sys2Proof.Machine

/-! ### The engine -/

/-- The engine's one atomic step on the pending word `w`: decode and run the command's rule; an illegal word
raises ILLEGAL_CMD with the word (R121, R104). -/
def runWord (w : Word) (s : State) : Host.Outcome State Fault Refusal :=
  match decode w with
  | .ok i => exec i s
  | .error _ => .next (raiseFailure .illegal ⟨.illegalCmd, w⟩ s)

/-- The engine's turn: run PEND (R121). -/
def engineStep (s : State) : Host.Outcome State Fault Refusal :=
  match s.pend with
  | some w => runWord w s
  | none => .fault .noPendingCommand

/-! ### The host -/

/-- The host takes the reply of an access (R271). -/
def takeReply (r : BusReply) (s : State) : State := { s with hostReplies := r :: s.hostReplies }

/-- The host goes on to its next operation (R26). -/
def advanceHost (s : State) : State := { s with hostOps := s.hostOps.tail }

/-- EXPECT: the test fails unless the value read is `v` (R107). -/
def noteExpect (r : BusReply) (v : Word) (s : State) : State :=
  { s with expectFailed := s.expectFailed || r.data != v }

/-- A read access and its reply (R62). -/
def readAccess (off : Offset) (bytes : Nat) (s : State) : State :=
  takeReply (busReadAt off bytes s).1 (busReadAt off bytes s).2

/-- A write access and its reply (R62). -/
def writeAccess (off : Offset) (bytes : Nat) (v : Word) (s : State) : State :=
  takeReply (busWriteAt off bytes v s).1 (busWriteAt off bytes v s).2

/-- One poll of WAIT: a read of STATUS; the wait is over when bit 1, DONE, is 1 (R107). -/
def pollStatus (s : State) : State :=
  if (busReadAt statusOff 4 s).1.data.getLsbD 1 then advanceHost (readAccess statusOff 4 s)
  else readAccess statusOff 4 s

/-- A read access of any size at a bus address; outside the window the block is not selected (R60). -/
def busReadAccess (addr bytes : Nat) (s : State) : State :=
  match windowOffset addr with
  | some off => readAccess off bytes s
  | none => s

/-- A write access of any size at a bus address; outside the window the block is not selected (R60). -/
def busWriteAccess (addr bytes : Nat) (v : Word) (s : State) : State :=
  match windowOffset addr with
  | some off => writeAccess off bytes v s
  | none => s

/-- What one host operation does to the block and to the host. -/
def performAccess (op : HostOp) (s : State) : State :=
  match op with
  | .wr off v => advanceHost (writeAccess off 4 v s)
  | .rd off => advanceHost (readAccess off 4 s)
  | .expect off v => advanceHost (noteExpect (busReadAt off 4 s).1 v (readAccess off 4 s))
  | .wait => pollStatus s
  | .busRead addr bytes => advanceHost (busReadAccess addr bytes s)
  | .busWrite addr bytes v => advanceHost (busWriteAccess addr bytes v s)
  | .assertRst => advanceHost (hardReset s)
  | .releaseRst => advanceHost { s with rstAsserted := false }

/-- Operations that access the window (R60); an address outside the window does not. -/
def accessesWindow : HostOp → Bool
  | .wr _ _ | .rd _ | .expect _ _ | .wait => true
  | .busRead addr _ => (windowOffset addr).isSome
  | .busWrite addr _ _ => (windowOffset addr).isSome
  | .assertRst | .releaseRst => false

/-- One host operation. "The host must not access the bus window while `rst` is asserted" (R260, U12). -/
def perform (op : HostOp) (s : State) : Host.Outcome State Fault Refusal :=
  if s.rstAsserted && accessesWindow op then .fault .accessDuringReset else .next (performAccess op s)

/-- The host's turn: its next operation, if it has one. With none left and the engine idle the run is over
and nothing changes (R244, R271). -/
def hostStep (s : State) : Host.Outcome State Fault Refusal :=
  match s.hostOps with
  | [] => .next s
  | op :: _ => perform op { s with latency := s.latency - 1 }

/-! ### Whose turn it is -/

/-- The engine moves when a command is running and its LATENCY has passed, or no host operation is left to
pass it; so every command completes after a finite number of steps (R121, R270). -/
def engineTurn (s : State) : Bool := s.busyF && (s.latency == 0 || s.hostOps.isEmpty)

/-- One step of the two agents, interleaved (R75). -/
def stepAgents (s : State) : Host.Outcome State Fault Refusal :=
  if engineTurn s then engineStep s else hostStep s

/-- The command word `w` accepted, the engine's turn next (R120). -/
def acceptForNextStep (w : Word) (s : State) : State :=
  { s with pend := some w, cmdLast := w, busyF := true, doneF := false, latency := 0, rstAsserted := false }

end Sys2Proof.Machine
end

