-- ==== Sys2Proof/Machine/Step.lean ====
section
/-! DEFINITION. One step of the machine (spec/00_scope.md R5, spec/20_memory.md R75), and how a command word
is placed so that the next step runs it. -/

namespace Sys2Proof.Machine

/-- One step: the agent whose turn it is moves. -/
def step (s : State) : Host.Outcome State Fault Refusal := stepAgents s

/-- HUFFCORE fetches nothing; the next command is the word accepted into PEND (R26, R77, R120). This is the
state in which the word has been accepted and the engine's turn is next (log entry 4). -/
def State.withFetchWord (s : State) (nbits w : Nat) : State := acceptForNextStep (tableWord nbits w) s

end Sys2Proof.Machine
end

