-- ==== Sys2Proof/Safety.lean ====
section
/-! DEFINITION. What counts as a sound state and a safe run of HUFFCORE, in the terms the claims use: the
canonical form of the memories, the invariants of spec/10_state.md R47 and R48, how a code leads through the
tree (spec/43_code_generator.md R171), and the end of a run (spec/70_reset_and_hazards.md R271). -/

namespace Sys2Proof.Machine

/-! ### The tree -/

/-- Following the bits of `p` from node `k`, left on 0 and right on 1, arrives at a leaf exactly at the end
of `p`: that leaf's symbol (R171). -/
def leafAt (nodeAt : Nat → Node) : Nat → List Bool → Option Symbol
  | k, [] => if (nodeAt k).leaf then some (nodeAt k).sym else none
  | k, b :: bs =>
    if (nodeAt k).leaf then none
    else leafAt nodeAt (if b then (nodeAt k).right.toNat else (nodeAt k).left.toNat) bs

/-- `j` is a child of the internal node `k`. -/
def childOf (nodeAt : Nat → Node) (k j : Nat) : Bool :=
  (nodeAt k).left.toNat == j || (nodeAt k).right.toNat == j

/-- The internal nodes among `lo .. hi - 1` of which `j` is a child. -/
def parents (nodeAt : Nat → Node) (lo hi j : Nat) : List Nat :=
  (List.range hi).filter (fun k => lo ≤ k && childOf nodeAt k j)

/-- Node `j` is in the pool at the merge that makes node `k` of a tree of `n` leaves: it was made before `k` and is not
yet a child (R153). -/
def inPool (nodeAt : Nat → Node) (n k j : Nat) : Prop := j < k ∧ parents nodeAt n k j = []

/-- `key(k) = (NODE[k].f, k)` (R152). -/
def keyOf (nodeAt : Nat → Node) (k : Nat) : Key := ((nodeAt k).f.toNat, k)

/-- `a` and then `b` are the two least nodes of the pool at the merge that makes node `k` (R152, R153). -/
structure LeastTwo (nodeAt : Nat → Node) (n k a b : Nat) : Prop where
  first_in : inPool nodeAt n k a
  second_in : inPool nodeAt n k b
  first_least : keyBefore (keyOf nodeAt a) (keyOf nodeAt b) = true
  second_next : ∀ j, inPool nodeAt n k j → j ≠ a → j ≠ b → keyBefore (keyOf nodeAt b) (keyOf nodeAt j) = true

/-- R47: the node memory holds a strict binary tree of NLEAF leaves, leaves first in ascending symbol
order, no sharing and no cycles. -/
structure TreeOk (s : State) : Prop where
  leaf_count : 1 ≤ s.nleaf.toNat ∧ s.nleaf.toNat ≤ 256
  node_count : s.nnode.toNat = 2 * s.nleaf.toNat - 1
  root_index : s.root.toNat = 2 * s.nleaf.toNat - 2
  leaf_shape : ∀ k, k < s.nleaf.toNat →
    (s.nodeAt k).leaf = true ∧ (s.nodeAt k).left = 0#9 ∧ (s.nodeAt k).right = 0#9
  leaf_order : ∀ k, k < s.nleaf.toNat → ∀ j, j < k → (s.nodeAt j).sym.toNat < (s.nodeAt k).sym.toNat
  internal_shape : ∀ k, k < 2 * s.nleaf.toNat - 1 → s.nleaf.toNat ≤ k →
    (s.nodeAt k).leaf = false ∧ (s.nodeAt k).sym = 0#8
  internal_children : ∀ k, k < 2 * s.nleaf.toNat - 1 → s.nleaf.toNat ≤ k →
    (s.nodeAt k).left.toNat < k ∧ (s.nodeAt k).right.toNat < k ∧ (s.nodeAt k).left ≠ (s.nodeAt k).right
  internal_sum : ∀ k, k < 2 * s.nleaf.toNat - 1 → s.nleaf.toNat ≤ k →
    (s.nodeAt k).f.toNat =
      (s.nodeAt (s.nodeAt k).left.toNat).f.toNat + (s.nodeAt (s.nodeAt k).right.toNat).f.toNat
  one_parent : ∀ j, j < 2 * s.nleaf.toNat - 2 →
    (parents s.nodeAt s.nleaf.toNat (2 * s.nleaf.toNat - 1) j).length = 1
  root_no_parent : parents s.nodeAt s.nleaf.toNat (2 * s.nleaf.toNat - 1) s.root.toNat = []

/-- The tree invariant: whenever TREE_VALID = 1 the tree is one (R47), and with TREE_VALID = 0 the tree's
registers are 0 (R30 to R32). -/
structure TreeInv (s : State) : Prop where
  tree : s.treeValid = true → TreeOk s
  noTree : s.treeValid = false → s.root = 0#9 ∧ s.nnode = 0#10 ∧ s.nleaf = 0#9

/-! ### The code table -/

/-- The code of symbol `a` as the table holds it: CODE[a][0 .. CLEN[a]-1] (R42). -/
def codeString (s : State) (a : Nat) : List Bool := codePrefix (s.codeAt a) (s.clenAt a).toNat

/-- R48 and R42: the symbols with a code are the leaves' symbols, no code is a prefix of another, the bits
after a code are 0, and CODE_MAXLEN is the greatest length. -/
structure CodesOk (s : State) : Prop where
  coded_iff_leaf : ∀ a, a < 256 →
    (1 ≤ (s.clenAt a).toNat ↔ ∃ k, k < s.nleaf.toNat ∧ (s.nodeAt k).sym.toNat = a)
  prefix_free : ∀ a, a < 256 → ∀ b, b < 256 → a ≠ b → 1 ≤ (s.clenAt a).toNat → 1 ≤ (s.clenAt b).toNat →
    ¬ codeString s a <+: codeString s b
  zero_after : ∀ a, a < 256 → ∀ j, j < 256 → (s.clenAt a).toNat ≤ j → (s.codeAt a).getMsbD j = false
  max_bound : ∀ a, a < 256 → (s.clenAt a).toNat ≤ s.codeMaxLen.toNat
  max_reached : ∃ a, a < 256 ∧ (s.clenAt a).toNat = s.codeMaxLen.toNat

/-- The code table is the one GENC derives from the current tree: GENC succeeds and writes it again. -/
def CodesFromTree (s : State) : Prop :=
  ∃ t, exec .genc s = .next t ∧ t.result = 0x00#8 ∧
    ∀ a, a < 256 → t.clenAt a = s.clenAt a ∧ t.codeAt a = s.codeAt a

/-- The code invariant: whenever CODES_VALID = 1 there is a tree and the table is that tree's (R48), and
with CODES_VALID = 0 CODE_MAXLEN is 0 (R33). -/
structure CodesInv (s : State) : Prop where
  codes : s.codesValid = true → s.treeValid = true ∧ CodesOk s ∧ CodesFromTree s
  noCodes : s.codesValid = false → s.codeMaxLen = 0#9

/-! ### Registers and memories -/

/-- Every memory is in its canonical form. -/
def memoriesOk (s : State) : Bool :=
  Table.wf Config.nsym s.freq && Table.wf Config.nodeMax s.node && Table.wf Config.nsym s.clen &&
    Table.wf Config.nsym s.code && Memory.wf s.inbuf && Memory.wf s.outbuf

/-- Every draw in use was taken before the next one, so a new draw is fresh (log entry 2). -/
def drawsOk (s : State) : Bool :=
  s.freq.fill < s.draws && s.node.fill < s.draws && s.clen.fill < s.draws && s.code.fill < s.draws &&
    s.inbuf.fill < s.draws && s.outbuf.fill < s.draws

/-- The invariant of the registers and memories. -/
structure ShapeInv (s : State) : Prop where
  /-- The memories are canonical. -/
  memories : memoriesOk s = true
  /-- A command is pending exactly while the engine is busy (R44, R120, R122). -/
  busy_pending : s.busyF = s.pend.isSome
  /-- DONE_F is 0 while the engine is busy (R37). -/
  busy_not_done : s.busyF = true → s.doneF = false
  /-- The pending word is the last accepted one (R120). -/
  pending_last : ∀ w, s.pend = some w → s.cmdLast = w
  /-- While `rst` is asserted nothing runs (R260). -/
  reset_idle : s.rstAsserted = true → s.busyF = false
  /-- Result codes 0x0A to 0xFF are never written (R230). -/
  result_code : s.result.toNat ≤ 9
  /-- ERR_INFO is 0 after a success (R25). -/
  success_info : s.result = 0x00#8 → s.errInfo = 0#32
  /-- OUT_LEN is within the capacity of OUTBUF in bits (R194, R215). -/
  out_len : s.outLen.toNat ≤ 8 * Config.bufBytes
  /-- Free draws are fresh. -/
  draws : drawsOk s = true

/-! ### Reset -/

/-- The registers and flags of R46's table. -/
structure ResetRegisters (s : State) : Prop where
  cmdLast : s.cmdLast = 0x00000000#32
  busy : s.busyF = false
  done : s.doneF = false
  treeValid : s.treeValid = false
  codesValid : s.codesValid = false
  result : s.result = 0x00#8
  errInfo : s.errInfo = 0x00000000#32
  data : s.data = 0x00000000#32
  inLen : s.inLen = 0x00000000#32
  outLen : s.outLen = 0x00000000#32
  root : s.root = 0#9
  nnode : s.nnode = 0#10
  nleaf : s.nleaf = 0#9
  codeMaxLen : s.codeMaxLen = 0#9
  irqEn : s.irqEn = 0#3
  irqStatus : s.irqStatus = 0#3
  fvalid : ∀ k, k < 256 → s.fvalidAt k = false
  pend : s.pend = none
  status : statusWord s = 0x00000000#32
  irq : irq s = false

/-- The memories R46 leaves unspecified hold the free values of new draws: `d` for the tables and INBUF,
`d + 1` for OUTBUF. -/
structure ResetMemories (d : Nat) (s : State) : Prop where
  freq : ∀ k, s.freqAt k = Config.freeFreq d k
  node : ∀ n, s.nodeAt n = freeNode d n
  clen : ∀ k, s.clenAt k = Config.freeLen d k
  code : ∀ k, s.codeAt k = Config.freeCode d k
  inbuf : ∀ k, s.inByte k = Config.freeByte d k
  outbuf : ∀ k, s.outByte k = Config.freeByte (d + 1) k

/-! ### Reads while the engine is busy -/

/-- The bits of the word at offset `a` whose read returns any value while the command runs: the table of
R67, by offset, each register or window with the bits it has (R23, R30 to R35, R70, R71). -/
def anyValueBits (i : Instr) (a : Nat) : Word :=
  let inRange (lo hi : Nat) : Bool := lo ≤ a && a ≤ hi
  match i with
  | .nop => 0#32
  | .srst =>
    if inRange 0x0800 0x081F || a = 0x0014 || a = 0x0018 || a = 0x001C then 0xFFFFFFFF#32
    else if a = 0x0020 || a = 0x0028 || a = 0x002C then 0x000001FF#32
    else if a = 0x0024 then 0x000003FF#32
    else if a = 0x0034 then 0x00000007#32
    else if a = 0x0008 then 0x00000078#32
    else 0#32
  | .fclr | .fset _ | .fdel _ => if inRange 0x0400 0x081F then 0xFFFFFFFF#32 else 0#32
  | .build =>
    if inRange 0x1000 0x17FB then 0xFFFFFFFF#32
    else if inRange 0x1800 0x1FFB then 0x81FF01FF#32
    else if a = 0x0020 || a = 0x0028 || a = 0x002C then 0x000001FF#32
    else if a = 0x0024 then 0x000003FF#32
    else if a = 0x0008 then 0x00000070#32
    else 0#32
  | .genc =>
    if inRange 0x2000 0x23FF || a = 0x002C then 0x000001FF#32
    else if inRange 0x4000 0x5FFF then 0xFFFFFFFF#32
    else if a = 0x0008 then 0x00000020#32
    else 0#32
  | .enc _ | .dec _ => if inRange 0xC000 0xFFFF || a = 0x001C then 0xFFFFFFFF#32 else 0#32
  | .move => if inRange 0x8000 0xBFFF || a = 0x0018 then 0xFFFFFFFF#32 else 0#32

/-! ### Runs -/

/-- A host operation that accesses the window: an access by offset, or one at a bus address in the 64 KiB at HUFF_BASE
(R60, log entry 7). -/
def IsWindowAccess : HostOp → Prop
  | .wr _ _ | .rd _ | .expect _ _ | .wait => True
  | .busRead addr _ => Config.huffBase ≤ addr ∧ addr < Config.huffBase + 65536
  | .busWrite addr _ _ => Config.huffBase ≤ addr ∧ addr < Config.huffBase + 65536
  | .assertRst | .releaseRst => False

/-- A run is over when the host has performed its last operation and BUSY_F = 0 (R271). -/
def runOver (s : State) : Bool := s.hostOps.isEmpty && !s.busyF

/-! ### The states completion leaves -/

/-- `s` after `complete()`, as R122 lists the writes. -/
def afterSuccess (s : State) : State :=
  { s with result := 0x00#8, errInfo := 0x00000000#32, irqStatus := s.irqStatus ||| 0b001#3,
           busyF := false, doneF := true, pend := none }

/-- `s` after the command-independent writes of a raise, as R232 lists them. -/
def afterFailure (code : BitVec 8) (info : Word) (s : State) : State :=
  { s with result := code, errInfo := info, irqStatus := s.irqStatus ||| 0b011#3,
           busyF := false, doneF := true, pend := none }

/-- `s` after a failing ENC or DEC, OUTBUF aside: OUT_LEN is 0 (R232). -/
def afterStreamFailure (code : BitVec 8) (info : Word) (s : State) : State :=
  { afterFailure code info s with outLen := 0x00000000#32 }

/-- `s` after a failing BUILD, NODE aside: no tree and no codes (R232). -/
def afterBuildFailure (code : BitVec 8) (info : Word) (s : State) : State :=
  { afterFailure code info s with
      treeValid := false, codesValid := false, root := 0#9, nnode := 0#10, nleaf := 0#9, codeMaxLen := 0#9 }

/-- `t` with the tree BUILD writes taken from `s`: the comparison leaves NODE, ROOT, NNODE, NLEAF,
TREE_VALID, CODES_VALID and CODE_MAXLEN out. -/
def withTreeOf (s t : State) : State :=
  { t with node := s.node, root := s.root, nnode := s.nnode, nleaf := s.nleaf, treeValid := s.treeValid,
           codesValid := s.codesValid, codeMaxLen := s.codeMaxLen }

/-- `t` with the code table GENC writes taken from `s`. -/
def withCodesOf (s t : State) : State :=
  { t with clen := s.clen, code := s.code, codeMaxLen := s.codeMaxLen, codesValid := s.codesValid }

/-- `t` with the output ENC and DEC write taken from `s`. -/
def withOutputOf (s t : State) : State := { t with outbuf := s.outbuf, outLen := s.outLen }

/-- `t` with NODE and the free-draw counter taken from `s`. -/
def withNodeOf (s t : State) : State := { t with node := s.node, draws := s.draws }

/-- `t` with FREQ and FVALID taken from `s`. -/
def withFreqOf (s t : State) : State := { t with freq := s.freq, fvalid := s.fvalid }

/-- `t` with INBUF and IN_LEN taken from `s`. -/
def withInputOf (s t : State) : State := { t with inbuf := s.inbuf, inLen := s.inLen }

/-- `t` with OUTBUF and the free-draw counter taken from `s`. -/
def withOutbufOf (s t : State) : State := { t with outbuf := s.outbuf, draws := s.draws }

/-- `t` with the host's own state taken from `s`: its position, replies and verdict, the operations left
before the engine's step, and the free-draw counter. -/
def withHostOf (s t : State) : State :=
  { t with hostOps := s.hostOps, hostReplies := s.hostReplies, expectFailed := s.expectFailed,
           latency := s.latency, draws := s.draws }

end Sys2Proof.Machine
end

