-- ==== Sys2Proof/Certificates/Slice0/Obligations.lean ====
section
/-! DEFINITION. The statements for the provers. Each docstring names the rules of spec/ it formalises; a clause
that rests on a choice of the model names the log entry. -/

open Sys2Proof Sys2Proof.Machine

/-! ### Encoding (spec/30_encoding.md) -/

/-- Words of spec/95_test_vectors.md V1, one or more a row of the opcode map, and an illegal word of each class of
R104, decode as R105 says. -/
def Obligations.DecodeOfTableWords : Prop :=
  decode 0x00000000#32 = .ok .nop ∧ decode 0x01000000#32 = .ok .srst ∧
  decode 0x02000000#32 = .ok .fclr ∧ decode 0x03000061#32 = .ok (.fset 0x61#8) ∧
  decode 0x030000FF#32 = .ok (.fset 0xFF#8) ∧ decode 0x04000000#32 = .ok (.fdel 0x00#8) ∧
  decode 0x10000000#32 = .ok .build ∧ decode 0x11000000#32 = .ok .genc ∧
  decode 0x20000000#32 = .ok (.enc .P) ∧ decode 0x20000001#32 = .ok (.enc .A) ∧
  decode 0x30000000#32 = .ok (.dec .P) ∧ decode 0x30000001#32 = .ok (.dec .A) ∧
  decode 0x40000000#32 = .ok .move ∧
  decode 0x00000001#32 = .error (.argument 0x00#8 0x01#8) ∧
  decode 0x00010000#32 = .error (.reservedBits 0x0100#16) ∧
  decode 0x05000000#32 = .error (.opcode 0x05#8) ∧
  decode 0x20000002#32 = .error (.argument 0x20#8 0x02#8) ∧
  decode 0xFF000000#32 = .error (.opcode 0xFF#8)

/-- Decoding and encoding agree both ways: a word decodes to a command exactly when it is that command's word, with
every operand at every value (R103, R105, R106). -/
def Obligations.DecodeIsInverseOfEncode : Prop :=
  ∀ (w : Word) (i : Instr), decode w = .ok i ↔ w = encode i

/-- R103: a word is the command of a row if (word and mask) = match, its variable fields where the row has them
(R102), and the rows do not overlap. -/
def Obligations.DecodeFollowsOpcodeMap : Prop :=
  ∀ w : Word,
    (decode w = .ok .nop ↔ w &&& 0xFFFFFFFF#32 = 0x00000000#32) ∧
    (decode w = .ok .srst ↔ w &&& 0xFFFFFFFF#32 = 0x01000000#32) ∧
    (decode w = .ok .fclr ↔ w &&& 0xFFFFFFFF#32 = 0x02000000#32) ∧
    (∀ sym, decode w = .ok (.fset sym) ↔ w &&& 0xFFFFFF00#32 = 0x03000000#32 ∧ sym = w.extractLsb' 0 8) ∧
    (∀ sym, decode w = .ok (.fdel sym) ↔ w &&& 0xFFFFFF00#32 = 0x04000000#32 ∧ sym = w.extractLsb' 0 8) ∧
    (decode w = .ok .build ↔ w &&& 0xFFFFFFFF#32 = 0x10000000#32) ∧
    (decode w = .ok .genc ↔ w &&& 0xFFFFFFFF#32 = 0x11000000#32) ∧
    (∀ m, decode w = .ok (.enc m) ↔
      w &&& 0xFFFFFFFE#32 = 0x20000000#32 ∧ m = (if w.getLsbD 0 then Mode.A else Mode.P)) ∧
    (∀ m, decode w = .ok (.dec m) ↔
      w &&& 0xFFFFFFFE#32 = 0x30000000#32 ∧ m = (if w.getLsbD 0 then Mode.A else Mode.P)) ∧
    (decode w = .ok .move ↔ w &&& 0xFFFFFFFF#32 = 0x40000000#32) ∧
    (opRows.filter (fun r => r.holds w)).length ≤ 1

/-- R104: a word that matches no row, that is one of the four classes the rule lists, decodes to no command; the
engine accepts it like any command, completes it as a failure with cause ILLEGAL_CMD (0x04) and ERR_INFO = the
word, and it changes no other state. -/
def Obligations.IllegalWordsFailAndChangeNothingElse : Prop :=
  ∀ w : Word,
    (legalWord w = false ↔
      (w.extractLsb' 24 8 ∉ [0x00#8, 0x01#8, 0x02#8, 0x03#8, 0x04#8, 0x10#8, 0x11#8, 0x20#8, 0x30#8, 0x40#8] ∨
        w.extractLsb' 8 16 ≠ 0#16 ∨
        (w.extractLsb' 24 8 ∈ [0x00#8, 0x01#8, 0x02#8, 0x10#8, 0x11#8, 0x40#8] ∧ w.extractLsb' 0 8 ≠ 0#8) ∨
        (w.extractLsb' 24 8 ∈ [0x20#8, 0x30#8] ∧ w.extractLsb' 1 7 ≠ 0#7))) ∧
    (legalWord w = false ↔ ∀ i, decode w ≠ .ok i) ∧
    (∀ s, legalWord w = false → s.busyF = false →
      ∃ t, busWriteAt 0x0004#16 4 w s = (⟨.ok, 0#32⟩, t) ∧ t.pend = some w ∧ t.cmdLast = w ∧ t.busyF = true ∧
        t.doneF = false) ∧
    ∀ s, legalWord w = false → s.busyF = true → s.pend = some w → s.latency = 0 →
      step s = .next (afterFailure 0x04#8 w s)

/-- R106: the word the assembler emits for every line with an operand in range, a quoted character standing for its
ASCII code; it refuses a `sym` outside 0 to 255 and never emits an illegal word. -/
def Obligations.AssemblerEmitsOnlyLegalWords : Prop :=
  (∀ l w, assemble l = some w → legalWord w = true) ∧
  (∀ n, n ≤ 255 → assemble (.fset (.num n)) = some (0x03000000#32 + BitVec.ofNat 32 n) ∧
    assemble (.fdel (.num n)) = some (0x04000000#32 + BitVec.ofNat 32 n)) ∧
  (∀ c : Char, c.toNat ≤ 127 → assemble (.fset (.chr c)) = some (0x03000000#32 + BitVec.ofNat 32 c.toNat) ∧
    assemble (.fdel (.chr c)) = some (0x04000000#32 + BitVec.ofNat 32 c.toNat)) ∧
  (∀ n, 255 < n → assemble (.fset (.num n)) = none ∧ assemble (.fdel (.num n)) = none) ∧
  assemble .nop = some 0x00000000#32 ∧ assemble .srst = some 0x01000000#32 ∧ assemble .fclr = some 0x02000000#32 ∧
  assemble .build = some 0x10000000#32 ∧ assemble .genc = some 0x11000000#32 ∧
  assemble .encP = some 0x20000000#32 ∧ assemble .encA = some 0x20000001#32 ∧
  assemble .decP = some 0x30000000#32 ∧ assemble .decA = some 0x30000001#32 ∧ assemble .move = some 0x40000000#32

/-! ### Reset (spec/10_state.md R46, spec/70_reset_and_hazards.md) -/

/-- R46: every register and flag of the table after `rst`, and every memory unspecified, that is holding free
values. -/
def Obligations.ResetLeavesTheTableOfR46 : Prop :=
  ResetRegisters State.reset ∧ ResetMemories 0 State.reset ∧
  (busReadAt 0x0000#16 4 State.reset).1.data = 0x48554601#32 ∧
  (busReadAt 0x0038#16 4 State.reset).1.data = 0x00004000#32

/-- R260, R261: asserting `rst` at any time, busy or not, gives the registers of R46 with the memories newly
unspecified, and abandons a running command; releasing it leaves the block idle in that state. The free draws are
new ones (log entry 2). -/
def Obligations.RstAbandonsTheCommandAndResets : Prop :=
  (∀ s rest, engineTurn s = false → s.hostOps = .assertRst :: rest →
    ∃ t, step s = .next t ∧ ResetRegisters t ∧ ResetMemories s.draws t ∧ t.rstAsserted = true ∧
      t.draws = s.draws + 2 ∧ t.hostOps = rest ∧ t.hostReplies = s.hostReplies) ∧
  (∀ s rest, engineTurn s = false → s.hostOps = .releaseRst :: rest →
    ∃ t, step s = .next t ∧ t.hostOps = rest ∧ withHostOf s t = { s with rstAsserted := false })

/-- The state after reset has the invariants. -/
def Obligations.ResetSatisfiesTheInvariants : Prop :=
  ShapeInv State.reset ∧ TreeInv State.reset ∧ CodesInv State.reset

/-! ### Whole-machine invariants -/

/-- Every step keeps the registers and memories sound: memories canonical, a pending word exactly while busy,
result codes within R230, ERR_INFO 0 after a success, OUT_LEN within capacity, free draws fresh. -/
def Obligations.StepKeepsShapeInv : Prop :=
  ∀ s t, ShapeInv s → step s = .next t → ShapeInv t

/-- Every step keeps R47: whenever TREE_VALID = 1 the node memory holds a strict binary tree, leaves first in
symbol order. -/
def Obligations.StepKeepsTreeInv : Prop :=
  ∀ s t, TreeInv s → step s = .next t → TreeInv t

/-- Every step keeps R48: whenever CODES_VALID = 1 there is a tree and the code table is the prefix-free table of
that tree. -/
def Obligations.StepKeepsCodesInv : Prop :=
  ∀ s t, TreeInv s → CodesInv s → step s = .next t → CodesInv t

/-- R121, R122, R235: in a state with R47 every command runs to its completion: a next state that is idle, done,
with DONE pending, a result code of R230, and ERR pending after a failure. -/
def Obligations.EveryCommandCompletes : Prop :=
  ∀ i s, TreeInv s → ∃ t, exec i s = .next t ∧ t.busyF = false ∧ t.doneF = true ∧ t.pend = none ∧
    t.irqStatus.getLsbD 0 = true ∧ t.result.toNat ≤ 9 ∧ (t.result ≠ 0x00#8 → t.irqStatus.getLsbD 1 = true)

/-- R121, R270: a command never hangs: while busy, the engine is idle again after at most LATENCY + 1 steps of the
two agents, whatever the host does. -/
def Obligations.BusyEngineBecomesIdle : Prop :=
  ∀ s, ShapeInv s → TreeInv s → s.busyF = true →
    ∃ k t, k ≤ s.latency + 1 ∧ Sys2Proof.core.run k s = .next t ∧ t.busyF = false

/-- The only stop of a sound machine is a host access to the window while `rst` is asserted (R260, U12: "outside this
spec"; log entry 5), and every such access, by offset or by bus address (log entry 7), does stop it. -/
def Obligations.OnlyAccessesDuringResetStop : Prop :=
  (∀ s, ShapeInv s → TreeInv s →
    (∀ r, step s ≠ .refused r) ∧
    (∀ f, step s = .fault f → f = .accessDuringReset ∧ s.rstAsserted = true ∧ s.busyF = false ∧
      ∃ op rest, s.hostOps = op :: rest ∧ IsWindowAccess op)) ∧
  (∀ s op rest, s.rstAsserted = true → s.busyF = false → s.hostOps = op :: rest → IsWindowAccess op →
    step s = .fault .accessDuringReset)

/-! ### Acceptance, execution and the bus (spec/40_control.md, spec/20_memory.md) -/

/-- R121: at its turn the engine decodes the pending word and runs the command's rule: the step is `exec` of the
decoded command at that state and nothing is added around it. The turn comes when the LATENCY the model drew has
passed or no host operation is left (log entry 3). -/
def Obligations.StepRunsTheDecodedCommand : Prop :=
  (∀ s w i, s.busyF = true → s.pend = some w → decode w = .ok i → (s.latency = 0 ∨ s.hostOps = []) →
    step s = exec i s) ∧
  (∀ (s : State) i, step (s.withFetchWord 32 (encode i).toNat) =
    exec i { s with pend := some (encode i), cmdLast := encode i, busyF := true, doneF := false, latency := 0,
                    rstAsserted := false })

/-- R120: a write of any word to CMD while idle is accepted at once: PEND, CMD.LAST, BUSY_F and DONE_F change and
nothing else; while busy it is dropped, sets OVR and changes nothing else. -/
def Obligations.CommandWriteIsAcceptedWhenIdle : Prop :=
  (∀ s w rest, s.busyF = false → s.rstAsserted = false → s.hostOps = .wr 0x0004#16 w :: rest →
    ∃ t, step s = .next t ∧ t.hostOps = rest ∧ t.hostReplies = ⟨.ok, 0#32⟩ :: s.hostReplies ∧
      withHostOf s t = { s with pend := some w, cmdLast := w, busyF := true, doneF := false }) ∧
  (∀ s w rest, s.busyF = true → s.latency ≠ 0 → s.rstAsserted = false → s.hostOps = .wr 0x0004#16 w :: rest →
    ∃ t, step s = .next t ∧ t.hostOps = rest ∧ t.hostReplies = ⟨.ok, 0#32⟩ :: s.hostReplies ∧
      withHostOf s t = { s with irqStatus := s.irqStatus ||| 0b100#3 })

/-- R66: while busy a write to CMD, DATA, IN_LEN or the INBUF window is dropped, answers OK and sets OVR; IRQ_EN
and IRQ_STATUS take their writes; every other write is ignored. -/
def Obligations.WritesWhileBusy : Prop :=
  ∀ s off v rest, off.extractLsb' 0 2 = 0#2 → s.busyF = true → s.latency ≠ 0 → s.rstAsserted = false →
    s.hostOps = .wr off v :: rest →
    ∃ t, step s = .next t ∧ t.hostOps = rest ∧ t.hostReplies = ⟨.ok, 0#32⟩ :: s.hostReplies ∧
      withHostOf s t =
        (if off.toNat = 0x0004 ∨ off.toNat = 0x0014 ∨ off.toNat = 0x0018 ∨
            (0x8000 ≤ off.toNat ∧ off.toNat ≤ 0xBFFC) then
          { s with irqStatus := s.irqStatus ||| 0b100#3 }
        else if off.toNat = 0x0030 then { s with irqEn := v.extractLsb' 0 3 }
        else if off.toNat = 0x0034 then { s with irqStatus := s.irqStatus &&& ~~~(v.extractLsb' 0 3) }
        else s)

/-- R63: an access whose offset has a[1:0] ≠ 0, or whose size is not 4 bytes, answers ERROR with data 0, changes
nothing and sets no OVR, busy or not. -/
def Obligations.MisalignedOrNarrowAnswersError : Prop :=
  ∀ s (off : Offset) bytes v, (off.extractLsb' 0 2 ≠ 0#2 ∨ bytes ≠ 4) →
    busReadAt off bytes s = (⟨.error, 0x00000000#32⟩, s) ∧ (busWriteAt off bytes v s).1.resp = .error ∧
      (busWriteAt off bytes v s).2 = s

/-- R63, R60: a host access in the window at HUFF_BASE whose address is no multiple of 4, or whose size is not 4
bytes, answers ERROR with data 0 and leaves the block as it was. That HUFF_BASE is a multiple of 2^16 is the
model's reading (log entry 7). -/
def Obligations.MisalignedAndNarrowAccessesHaveNoEffect : Prop :=
  ∀ s addr bytes v rest, Config.huffBase ≤ addr → addr < Config.huffBase + 65536 →
    (addr % 4 ≠ 0 ∨ bytes ≠ 4) → engineTurn s = false → s.rstAsserted = false →
    (s.hostOps = .busRead addr bytes :: rest ∨ s.hostOps = .busWrite addr bytes v :: rest) →
    ∃ t, step s = .next t ∧ t.hostOps = rest ∧ t.hostReplies = ⟨.error, 0x00000000#32⟩ :: s.hostReplies ∧
      withHostOf s t = s

/-- R64: a reserved offset reads 0 with an OK response, a write to a reserved offset or to a read-only register or
window is ignored with an OK response and sets no OVR, busy or not, and the reserved bits of a register read 0 and
ignore writes. -/
def Obligations.ReservedAndReadOnlyLocations : Prop :=
  (∀ s (off : Offset), off.extractLsb' 0 2 = 0#2 →
    ((0x003C ≤ off.toNat ∧ off.toNat ≤ 0x03FF) ∨ (0x0820 ≤ off.toNat ∧ off.toNat ≤ 0x0FFF) ∨
      (0x2400 ≤ off.toNat ∧ off.toNat ≤ 0x3FFF) ∨ (0x6000 ≤ off.toNat ∧ off.toNat ≤ 0x7FFF)) →
    (busReadAt off 4 s).1 = ⟨.ok, 0x00000000#32⟩) ∧
  (∀ s (off : Offset) v, off.extractLsb' 0 2 = 0#2 →
    off.toNat ∉ [0x0004, 0x0014, 0x0018, 0x0030, 0x0034] → ¬(0x8000 ≤ off.toNat ∧ off.toNat ≤ 0xBFFF) →
    busWriteAt off 4 v s = (⟨.ok, 0#32⟩, s)) ∧
  (∀ s i, s.busyF = false → 9 ≤ i →
    (busReadAt 0x0020#16 4 s).1.data.getLsbD i = false ∧ (busReadAt 0x0028#16 4 s).1.data.getLsbD i = false ∧
    (busReadAt 0x002C#16 4 s).1.data.getLsbD i = false) ∧
  (∀ s i, s.busyF = false → 10 ≤ i → (busReadAt 0x0024#16 4 s).1.data.getLsbD i = false) ∧
  (∀ s i, s.busyF = false → 8 ≤ i → (busReadAt 0x000C#16 4 s).1.data.getLsbD i = false) ∧
  (∀ s i, s.busyF = false → 7 ≤ i → (busReadAt 0x0008#16 4 s).1.data.getLsbD i = false) ∧
  (∀ s i, s.busyF = false → 3 ≤ i →
    (busReadAt 0x0030#16 4 s).1.data.getLsbD i = false ∧ (busReadAt 0x0034#16 4 s).1.data.getLsbD i = false) ∧
  (∀ s (v v' : Word), v.extractLsb' 0 3 = v'.extractLsb' 0 3 →
    busWriteAt 0x0030#16 4 v s = busWriteAt 0x0030#16 4 v' s ∧ busWriteAt 0x0034#16 4 v s = busWriteAt 0x0034#16 4 v' s)

/-- R21, R22, R24, R25, R27 to R36: what each register reads while idle, and that a write to DATA, IN_LEN and
IRQ_EN stores the value. -/
def Obligations.RegisterReadsAndWrites : Prop :=
  (∀ s, s.busyF = false →
    (busReadAt 0x0000#16 4 s).1 = ⟨.ok, 0x48554601#32⟩ ∧ (busReadAt 0x0004#16 4 s).1 = ⟨.ok, s.cmdLast⟩ ∧
    (busReadAt 0x000C#16 4 s).1 = ⟨.ok, s.result.setWidth 32⟩ ∧
    (busReadAt 0x0010#16 4 s).1 = ⟨.ok, s.errInfo⟩ ∧ (busReadAt 0x0014#16 4 s).1 = ⟨.ok, s.data⟩ ∧
    (busReadAt 0x0018#16 4 s).1 = ⟨.ok, s.inLen⟩ ∧ (busReadAt 0x001C#16 4 s).1 = ⟨.ok, s.outLen⟩ ∧
    (busReadAt 0x0020#16 4 s).1 = ⟨.ok, s.root.setWidth 32⟩ ∧
    (busReadAt 0x0024#16 4 s).1 = ⟨.ok, s.nnode.setWidth 32⟩ ∧
    (busReadAt 0x0028#16 4 s).1 = ⟨.ok, s.nleaf.setWidth 32⟩ ∧
    (busReadAt 0x002C#16 4 s).1 = ⟨.ok, s.codeMaxLen.setWidth 32⟩ ∧
    (busReadAt 0x0030#16 4 s).1 = ⟨.ok, s.irqEn.setWidth 32⟩ ∧
    (busReadAt 0x0034#16 4 s).1 = ⟨.ok, s.irqStatus.setWidth 32⟩ ∧
    (busReadAt 0x0038#16 4 s).1 = ⟨.ok, 0x00004000#32⟩) ∧
  (∀ s v, s.busyF = false →
    busWriteAt 0x0014#16 4 v s = (⟨.ok, 0#32⟩, { s with data := v }) ∧
    busWriteAt 0x0018#16 4 v s = (⟨.ok, 0#32⟩, { s with inLen := v })) ∧
  (∀ s v, busWriteAt 0x0030#16 4 v s = (⟨.ok, 0#32⟩, { s with irqEn := v.extractLsb' 0 3 }))

/-- R23: the fields of STATUS, bit by bit, and bits [31:7] read 0. BUSY, DONE and ERR read so also while busy. -/
def Obligations.StatusShowsTheFlags : Prop :=
  (∀ s, (busReadAt 0x0008#16 4 s).1.data.getLsbD 0 = s.busyF ∧
    (busReadAt 0x0008#16 4 s).1.data.getLsbD 1 = s.doneF ∧
    ((busReadAt 0x0008#16 4 s).1.data.getLsbD 2 = true ↔ s.result ≠ 0x00#8)) ∧
  (∀ s, s.busyF = false →
    (busReadAt 0x0008#16 4 s).1.data.getLsbD 3 = s.irqStatus.getLsbD 2 ∧
    (busReadAt 0x0008#16 4 s).1.data.getLsbD 4 = s.treeValid ∧
    (busReadAt 0x0008#16 4 s).1.data.getLsbD 5 = s.codesValid ∧
    ((busReadAt 0x0008#16 4 s).1.data.getLsbD 6 = true ↔ s.treeValid = true ∧ s.nleaf.toNat = 1)) ∧
  (∀ s i, s.busyF = false → 7 ≤ i → (busReadAt 0x0008#16 4 s).1.data.getLsbD i = false) ∧
  (∀ s v, busWriteAt 0x0008#16 4 v s = (⟨.ok, 0#32⟩, s))

/-- R38: the level of `irq` is that of the enabled pending bits, and it is 0 after reset. -/
def Obligations.IrqIsTheEnabledPendingBits : Prop :=
  (∀ s, irq s = true ↔ ∃ i, i < 3 ∧ s.irqStatus.getLsbD i = true ∧ s.irqEn.getLsbD i = true) ∧
  irq State.reset = false

/-- R35: a write to IRQ_STATUS clears each bit written 1 and leaves the others, busy or not, and at one instant a
bit that is set and cleared ends 1. -/
def Obligations.IrqStatusIsWriteOneToClear : Prop :=
  (∀ s v, ∃ t, busWriteAt 0x0034#16 4 v s = (⟨.ok, 0#32⟩, t) ∧ { t with irqStatus := s.irqStatus } = s ∧
    ∀ i, t.irqStatus.getLsbD i = (s.irqStatus.getLsbD i && !(i < 3 && v.getLsbD i))) ∧
  (∀ (old set clear : BitVec 3) i, set.getLsbD i = true → (irqNext old set clear).getLsbD i = true)

/-- R68: the buffer windows are little-endian; a write to the INBUF window writes all four bytes and no other byte.
-/
def Obligations.BufferWindowsAreLittleEndian : Prop :=
  (∀ s k, k < 4096 → s.busyF = false → ∀ i, i < 4 →
    (busReadAt (BitVec.ofNat 16 (0x8000 + 4 * k)) 4 s).1.data.extractLsb' (8 * i) 8 = s.inByte (4 * k + i) ∧
    (busReadAt (BitVec.ofNat 16 (0xC000 + 4 * k)) 4 s).1.data.extractLsb' (8 * i) 8 = s.outByte (4 * k + i)) ∧
  (∀ s k v, k < 4096 → s.busyF = false →
    ∃ t, busWriteAt (BitVec.ofNat 16 (0x8000 + 4 * k)) 4 v s = (⟨.ok, 0#32⟩, t) ∧
      (∀ i, i < 4 → t.inByte (4 * k + i) = v.extractLsb' (8 * i) 8) ∧
      (∀ j, j < 4 * k ∨ 4 * k + 4 ≤ j → t.inByte j = s.inByte j) ∧
      { t with inbuf := s.inbuf } = s)

/-- R69: the words of the FREQ and FVALID windows. -/
def Obligations.FrequencyWindows : Prop :=
  ∀ s, s.busyF = false →
    (∀ k, k < 256 → (busReadAt (BitVec.ofNat 16 (0x0400 + 4 * k)) 4 s).1 = ⟨.ok, s.freqAt k⟩) ∧
    (∀ w, w < 8 → (busReadAt (BitVec.ofNat 16 (0x0800 + 4 * w)) 4 s).1.resp = .ok ∧
      ∀ i, i < 32 →
        (busReadAt (BitVec.ofNat 16 (0x0800 + 4 * w)) 4 s).1.data.getLsbD i = s.fvalidAt (32 * w + i))

/-- R70: the words of the node windows, leaf and internal entries, and entry 511. -/
def Obligations.NodeWindows : Prop :=
  ∀ s, s.busyF = false →
    (∀ n, n < 511 → (busReadAt (BitVec.ofNat 16 (0x1000 + 4 * n)) 4 s).1 = ⟨.ok, (s.nodeAt n).f⟩ ∧
      ∀ v, v = (busReadAt (BitVec.ofNat 16 (0x1800 + 4 * n)) 4 s).1.data →
        ((s.nodeAt n).leaf = true →
          v.getLsbD 31 = true ∧ v.extractLsb' 0 8 = (s.nodeAt n).sym ∧ v.extractLsb' 8 23 = 0#23) ∧
        ((s.nodeAt n).leaf = false →
          v.getLsbD 31 = false ∧ v.extractLsb' 0 9 = (s.nodeAt n).left ∧ v.extractLsb' 9 7 = 0#7 ∧
            v.extractLsb' 16 9 = (s.nodeAt n).right ∧ v.extractLsb' 25 6 = 0#6)) ∧
    (busReadAt 0x17FC#16 4 s).1 = ⟨.ok, 0x00000000#32⟩ ∧ (busReadAt 0x1FFC#16 4 s).1 = ⟨.ok, 0x00000000#32⟩

/-- R71: the words of the CLEN and CODE windows. CODE[s][i], counted from the first bit, is bit i from the most
significant end of the stored string (R42). -/
def Obligations.CodeWindows : Prop :=
  ∀ s, s.busyF = false → ∀ a, a < 256 →
    (busReadAt (BitVec.ofNat 16 (0x2000 + 4 * a)) 4 s).1.data.extractLsb' 0 9 = s.clenAt a ∧
    (busReadAt (BitVec.ofNat 16 (0x2000 + 4 * a)) 4 s).1.data.extractLsb' 9 23 = 0#23 ∧
    ∀ w, w < 8 → ∀ j, j < 32 →
      (busReadAt (BitVec.ofNat 16 (0x4000 + 32 * a + 4 * w)) 4 s).1.data.getLsbD (31 - j) =
        (s.codeAt a).getMsbD (32 * w + j)

/-- R67: while a command runs, a read of a location of its row returns a free value in the bits the location has, and
every other location reads its value; STATUS.BUSY reads 1, STATUS.DONE reads 0, RESULT and ERR_INFO keep their
values. That the reserved bits of such a location still read 0, and that while an illegal word runs every location
reads its value, is the model's reading (log entry 6). -/
def Obligations.ReadsWhileBusy : Prop :=
  (∀ s w i (off : Offset), s.busyF = true → s.pend = some w → decode w = .ok i → off.extractLsb' 0 2 = 0#2 →
    (busReadAt off 4 s).1 = ⟨.ok, (locWord s (locate off) &&& ~~~anyValueBits i off.toNat) |||
      (Config.freeRead s.draws &&& anyValueBits i off.toNat)⟩) ∧
  (∀ s w (off : Offset), s.busyF = true → s.pend = some w → legalWord w = false → off.extractLsb' 0 2 = 0#2 →
    (busReadAt off 4 s).1 = ⟨.ok, locWord s (locate off)⟩) ∧
  (∀ s, ShapeInv s → s.busyF = true →
    (busReadAt 0x0008#16 4 s).1.data.getLsbD 0 = true ∧ (busReadAt 0x0008#16 4 s).1.data.getLsbD 1 = false ∧
    (busReadAt 0x000C#16 4 s).1.data = s.result.setWidth 32 ∧ (busReadAt 0x0010#16 4 s).1.data = s.errInfo)

/-- R65: no read has a side effect: a read access leaves the whole block as it was; only the model's counter of
free draws moves. -/
def Obligations.ReadsHaveNoSideEffect : Prop :=
  ∀ s off bytes, { (busReadAt off bytes s).2 with draws := s.draws } = s

/-- R79, R66: no host operation but `rst` writes the frequency table, the node memory, the code table, OUTBUF or a
result; while a command runs none changes an input of it, the pending word or the busy flag. -/
def Obligations.HostCannotReachCommandState : Prop :=
  ∀ s t op rest, engineTurn s = false → s.hostOps = op :: rest → op ≠ .assertRst → step s = .next t →
    (t.freq = s.freq ∧ t.fvalid = s.fvalid ∧ t.node = s.node ∧ t.clen = s.clen ∧ t.code = s.code ∧
      t.outbuf = s.outbuf ∧ t.outLen = s.outLen ∧ t.root = s.root ∧ t.nnode = s.nnode ∧ t.nleaf = s.nleaf ∧
      t.codeMaxLen = s.codeMaxLen ∧ t.treeValid = s.treeValid ∧ t.codesValid = s.codesValid ∧
      t.result = s.result ∧ t.errInfo = s.errInfo) ∧
    (s.busyF = true → t.busyF = true ∧ t.doneF = s.doneF ∧ t.pend = s.pend ∧ t.cmdLast = s.cmdLast ∧
      t.data = s.data ∧ t.inLen = s.inLen ∧ t.inbuf = s.inbuf)

/-- spec/95_test_vectors.md V9, both outcomes: a write to DATA after the acceptance of NOP is applied when the NOP has
completed before it, and dropped with OVR when it comes while busy. Which of the two happens is the free LATENCY's,
counted in host operations, and that the engine completes in the very next step once no host operation is left is
the model's choice (log entry 3). -/
def Obligations.DataWriteRacesWithCompletion : Prop :=
  ∀ s, s.busyF = true → s.pend = some 0x00000000#32 → s.rstAsserted = false →
    s.hostOps = [.wr 0x0014#16 0x00000005#32] →
    ∃ t u, step s = .next t ∧ step t = .next u ∧ u.busyF = false ∧ u.doneF = true ∧
      (s.latency = 0 → u.data = 0x00000005#32 ∧ u.irqStatus = s.irqStatus ||| 0b001#3) ∧
      (s.latency ≠ 0 → u.data = s.data ∧ u.irqStatus = s.irqStatus ||| 0b101#3)

/-- R108, R68: LOADIN of at most 16384 bytes, performed by the host with the engine idle, leaves the bytes in INBUF from
byte 0 on, zeros in the rest of the last word, and their number in IN_LEN; every byte above and all other state of
the block are unchanged. -/
def Obligations.LoadinStoresTheInput : Prop :=
  ∀ s bytes rest, bytes.length ≤ 16384 → s.busyF = false → s.rstAsserted = false →
    s.hostOps = loadIn bytes ++ rest →
    ∃ k t, Sys2Proof.core.run k s = .next t ∧ t.hostOps = rest ∧ t.inLen.toNat = bytes.length ∧
      (∀ i (h : i < bytes.length), t.inByte i = bytes[i]) ∧
      (∀ i, bytes.length ≤ i → i < 4 * ((bytes.length + 3) / 4) → t.inByte i = 0#8) ∧
      (∀ i, 4 * ((bytes.length + 3) / 4) ≤ i → t.inByte i = s.inByte i) ∧
      withHostOf s (withInputOf s t) = s

/-! ### Failing completion (spec/60_exceptions.md) -/

/-- R232: what a raise writes, command by command, and that it changes nothing else: BUILD (with NODE not fixed
after FREQ_OVERFLOW), GENC, ENC and DEC (with OUTBUF not fixed after UNKNOWN_SYMBOL, MALFORMED_INPUT and
OUT_OVERFLOW), and an illegal word. "Not fixed" is a fresh free draw. -/
def Obligations.RaiseWritesTheFailure : Prop :=
  (∀ s info, raiseFailure .build ⟨.emptyAlphabet, info⟩ s = afterBuildFailure 0x01#8 info s) ∧
  (∀ s info, ∃ t, raiseFailure .build ⟨.freqOverflow, info⟩ s = t ∧
    withNodeOf s t = afterBuildFailure 0x09#8 info s ∧ ∀ n, t.nodeAt n = freeNode s.draws n) ∧
  (∀ s info, raiseFailure .genc ⟨.noTree, info⟩ s =
    { afterFailure 0x05#8 info s with codesValid := false, codeMaxLen := 0#9 }) ∧
  (∀ s info, raiseFailure .stream ⟨.noTree, info⟩ s = afterStreamFailure 0x05#8 info s ∧
    raiseFailure .stream ⟨.noCodes, info⟩ s = afterStreamFailure 0x06#8 info s ∧
    raiseFailure .stream ⟨.inLenRange, info⟩ s = afterStreamFailure 0x07#8 info s) ∧
  (∀ s info cause code, (cause, code) ∈
      [(Cause.unknownSymbol, 0x02#8), (Cause.malformedInput, 0x03#8), (Cause.outOverflow, 0x08#8)] →
    ∃ t, raiseFailure .stream ⟨cause, info⟩ s = t ∧
      withOutbufOf s t = afterStreamFailure code info s ∧ ∀ k, t.outByte k = Config.freeByte s.draws k) ∧
  (∀ s info, raiseFailure .illegal ⟨.illegalCmd, info⟩ s = afterFailure 0x04#8 info s)

/-- R37, R40 to R43, R34: each command writes only the state the rules give it: IRQ_EN, CMD.LAST and the host are
no command's; DATA is SRST's; FREQ and FVALID the table commands'; the tree BUILD's; the code table GENC's; OUTBUF
that of ENC and DEC; INBUF MOVE's. -/
def Obligations.CommandsWriteOnlyTheirOwnState : Prop :=
  ∀ i s t, exec i s = .next t →
    (t.cmdLast = s.cmdLast ∧ t.irqEn = s.irqEn ∧ t.rstAsserted = s.rstAsserted ∧ t.hostOps = s.hostOps ∧
      t.hostReplies = s.hostReplies ∧ t.expectFailed = s.expectFailed) ∧
    (i ≠ .srst → t.data = s.data ∧ s.irqStatus &&& t.irqStatus = s.irqStatus) ∧
    ((i ≠ .fclr ∧ (∀ a, i ≠ .fset a) ∧ (∀ a, i ≠ .fdel a)) →
      t.freq = s.freq ∧ (i ≠ .srst → t.fvalid = s.fvalid)) ∧
    (i ≠ .build → t.node = s.node ∧
      (i ≠ .srst → t.treeValid = s.treeValid ∧ t.root = s.root ∧ t.nnode = s.nnode ∧ t.nleaf = s.nleaf)) ∧
    (i ≠ .genc → t.clen = s.clen ∧ t.code = s.code ∧
      (i ≠ .build → i ≠ .srst → t.codesValid = s.codesValid ∧ t.codeMaxLen = s.codeMaxLen)) ∧
    ((∀ m, i ≠ .enc m ∧ i ≠ .dec m) → t.outbuf = s.outbuf ∧ (i ≠ .srst → t.outLen = s.outLen)) ∧
    (i ≠ .move → t.inbuf = s.inbuf ∧ (i ≠ .srst → t.inLen = s.inLen))

/-! ### Control commands (spec/40_control.md) -/

/-- R123: the word 0 alone is NOP; it does nothing and completes: RESULT and ERR_INFO 0, IRQ_STATUS.DONE 1, idle
and done; every other register, flag and memory is unchanged. -/
def Obligations.NopOnlyCompletes : Prop :=
  (∀ w, decode w = .ok .nop ↔ w = 0x00000000#32) ∧ ∀ s, exec .nop s = .next (afterSuccess s)

/-- R124: the word of SRST, what it clears, that it ends with IRQ_STATUS = 0b001, and that IRQ_EN, CMD.LAST and the
contents of FREQ, NODE, CLEN, CODE, INBUF and OUTBUF are unchanged. -/
def Obligations.SoftResetClearsTheCommandState : Prop :=
  (∀ w, decode w = .ok .srst ↔ w = 0x01000000#32) ∧
  ∀ s, ∃ t, exec .srst s = .next t ∧ (∀ k, t.fvalidAt k = false) ∧
    t.treeValid = false ∧ t.codesValid = false ∧ t.data = 0x00000000#32 ∧ t.inLen = 0x00000000#32 ∧
    t.outLen = 0x00000000#32 ∧ t.root = 0#9 ∧ t.nnode = 0#10 ∧ t.nleaf = 0#9 ∧ t.codeMaxLen = 0#9 ∧
    t.irqStatus = 0b001#3 ∧
    { t with fvalid := s.fvalid, treeValid := s.treeValid, codesValid := s.codesValid, data := s.data,
             inLen := s.inLen, outLen := s.outLen, root := s.root, nnode := s.nnode, nleaf := s.nleaf,
             codeMaxLen := s.codeMaxLen, irqStatus := s.irqStatus ||| 0b001#3 } = afterSuccess s

/-- R125: the word of MOVE; it copies every byte of OUTBUF to INBUF and OUT_LEN to IN_LEN; nothing else changes but the
completion. That a byte nothing has written is the same free value in both buffers afterwards is the model's reading
(log entry 8). -/
def Obligations.MoveCopiesTheOutput : Prop :=
  (∀ w, decode w = .ok .move ↔ w = 0x40000000#32) ∧
  ∀ s, ∃ t, exec .move s = .next t ∧ (∀ k, k < 16384 → t.inByte k = s.outByte k) ∧ t.inLen = s.outLen ∧
    withInputOf s t = afterSuccess s

/-! ### Frequency table commands (spec/41_freq_table.md) -/

/-- R140: the word of FCLR; it makes every count 0 and the map empty; nothing else changes but the completion. -/
def Obligations.FclrEmptiesTheMap : Prop :=
  (∀ w, decode w = .ok .fclr ↔ w = 0x02000000#32) ∧
  ∀ s, ∃ t, exec .fclr s = .next t ∧ (∀ k, k < 256 → t.freqAt k = 0x00000000#32 ∧ t.fvalidAt k = false) ∧
    withFreqOf s t = afterSuccess s

/-- R141: the words of FSET; it makes `sym` a key with count DATA, for every symbol and count; every other entry
and all other state but the completion are unchanged. -/
def Obligations.FsetMakesAKey : Prop :=
  (∀ w sym, decode w = .ok (.fset sym) ↔ w = 0x03000000#32 + sym.setWidth 32) ∧
  ∀ sym s, ∃ t, exec (.fset sym) s = .next t ∧
    (∀ k, t.freqAt k = if k = sym.toNat then s.data else s.freqAt k) ∧
    (∀ k, t.fvalidAt k = if k = sym.toNat then true else s.fvalidAt k) ∧
    withFreqOf s t = afterSuccess s

/-- R142: the words of FDEL; it removes `sym`, key or not, its count becoming 0; every other entry and all other
state but the completion are unchanged. -/
def Obligations.FdelRemovesAKey : Prop :=
  (∀ w sym, decode w = .ok (.fdel sym) ↔ w = 0x04000000#32 + sym.setWidth 32) ∧
  ∀ sym s, ∃ t, exec (.fdel sym) s = .next t ∧
    (∀ k, t.freqAt k = if k = sym.toNat then 0x00000000#32 else s.freqAt k) ∧
    (∀ k, t.fvalidAt k = if k = sym.toNat then false else s.fvalidAt k) ∧
    withFreqOf s t = afterSuccess s

/-! ### BUILD (spec/42_tree_builder.md) -/

/-- R157: with no key BUILD fails with EMPTY_ALPHABET and ERR_INFO = 0, and leaves no tree; the node memory is
unchanged. -/
def Obligations.BuildOfEmptyMapFails : Prop :=
  ∀ s, (∀ k, k < 256 → s.fvalidAt k = false) →
    exec .build s = .next (afterBuildFailure 0x01#8 0x00000000#32 s)

/-- R150, R151, R154, R158: with n keys, n at least 1, whose counts sum to at most 2^32 - 1, BUILD succeeds with
the strict tree of R47 over the leaves of the keys in ascending symbol order, ROOT's frequency being that sum; the
entries from 2n-1 up and all other state but the completion are unchanged. -/
def Obligations.BuildBuildsTheTree : Prop :=
  ∀ s keys, keys = (List.range 256).filter s.fvalidAt → keys ≠ [] →
    (keys.map (fun k => (s.freqAt k).toNat)).sum ≤ 0xFFFFFFFF →
    ∃ t, exec .build s = .next t ∧ TreeOk t ∧ t.treeValid = true ∧ t.codesValid = false ∧ t.codeMaxLen = 0#9 ∧
      t.nleaf.toNat = keys.length ∧
      (∀ i (h : i < keys.length),
        t.nodeAt i = ⟨s.freqAt keys[i], true, BitVec.ofNat 8 keys[i], 0#9, 0#9⟩) ∧
      (t.nodeAt t.root.toNat).f.toNat = (keys.map (fun k => (s.freqAt k).toNat)).sum ∧
      (∀ n, 2 * keys.length - 1 ≤ n → t.nodeAt n = s.nodeAt n) ∧
      withTreeOf s t = afterSuccess s

/-- R156: with exactly one key the tree is that single leaf: NODE[0], ROOT = 0, NNODE = 1, NLEAF = 1, whatever the
count, and STATUS.SINGLE reads 1. -/
def Obligations.BuildOfOneKeyIsASingleLeaf : Prop :=
  ∀ s a, a < 256 → (∀ k, k < 256 → (s.fvalidAt k = true ↔ k = a)) →
    ∃ t, exec .build s = .next t ∧ t.nodeAt 0 = ⟨s.freqAt a, true, BitVec.ofNat 8 a, 0#9, 0#9⟩ ∧
      t.root = 0#9 ∧ t.nnode = 1#10 ∧ t.nleaf = 1#9 ∧ t.treeValid = true ∧
      (busReadAt 0x0008#16 4 t).1.data.getLsbD 6 = true ∧ withTreeOf s t =
        afterSuccess s

/-- R155, R232: when the counts of the n keys sum to more than 2^32 - 1, BUILD fails with FREQ_OVERFLOW and ERR_INFO the
index that the first merge to overflow would have taken: there are nodes that start with the leaves (R151), of which
each from n to ERR_INFO - 1 merges the two least of the pool and holds their exact sum in 32 bits (R152, R153), and
the two least of the pool at ERR_INFO sum to more than 2^32 - 1. No tree is left, and nothing but NODE is left
unfixed. -/
def Obligations.BuildOverflowFails : Prop :=
  ∀ s keys, keys = (List.range 256).filter s.fvalidAt →
    0xFFFFFFFF < (keys.map (fun k => (s.freqAt k).toNat)).sum → 2 ≤ keys.length →
    ∃ t info, exec .build s = .next t ∧ keys.length ≤ info.toNat ∧ info.toNat ≤ 2 * keys.length - 2 ∧
      (∃ node : Nat → Node,
        (∀ i (h : i < keys.length), node i = ⟨s.freqAt keys[i], true, BitVec.ofNat 8 keys[i], 0#9, 0#9⟩) ∧
        (∀ k, keys.length ≤ k → k < info.toNat →
          LeastTwo node keys.length k (node k).left.toNat (node k).right.toNat ∧
          (node k).f.toNat = (node (node k).left.toNat).f.toNat + (node (node k).right.toNat).f.toNat) ∧
        ∃ a b, LeastTwo node keys.length info.toNat a b ∧ 0xFFFFFFFF < (node a).f.toNat + (node b).f.toNat) ∧
      withNodeOf s t = afterBuildFailure 0x09#8 info s

/-- R152, R153: every internal node k of the tree BUILD makes is the merge of the two least nodes of the pool in the
order (frequency, node index), the least on the left: both children are in the pool at that merge, that is they were
made before k and are no child of a node made before k, and every other node of that pool comes after them. The node
is internal and holds the exact sum of its children's frequencies. -/
def Obligations.BuildMergesTheTwoLeastNodes : Prop :=
  ∀ s t, exec .build s = .next t → t.result = 0x00#8 →
    ∀ k, t.nleaf.toNat ≤ k → k ≤ t.root.toNat →
      LeastTwo t.nodeAt t.nleaf.toNat k (t.nodeAt k).left.toNat (t.nodeAt k).right.toNat ∧
      (t.nodeAt k).leaf = false ∧ (t.nodeAt k).sym = 0x00#8 ∧
      (t.nodeAt k).f.toNat = (t.nodeAt (t.nodeAt k).left.toNat).f.toNat + (t.nodeAt (t.nodeAt k).right.toNat).f.toNat

/-- R159: BUILD is a function of FVALID and of the counts of the keys: two states that agree on these get the same
result and, on success, the same tree. -/
def Obligations.BuildIsDeterminedByTheTable : Prop :=
  ∀ s s' t t', s.fvalid = s'.fvalid → (∀ k, k < 256 → s.fvalidAt k = true → s.freqAt k = s'.freqAt k) →
    exec .build s = .next t → exec .build s' = .next t' →
    t.result = t'.result ∧ t.errInfo = t'.errInfo ∧ t.treeValid = t'.treeValid ∧ t.root = t'.root ∧
      t.nnode = t'.nnode ∧ t.nleaf = t'.nleaf ∧
      (t.result = 0x00#8 → ∀ n, n < t.nnode.toNat → t.nodeAt n = t'.nodeAt n)

/-! ### GENC (spec/43_code_generator.md) -/

/-- R170: without a tree GENC fails with NO_TREE and ERR_INFO = 0, and there are no codes; CLEN and CODE and all
other state but the completion are unchanged. -/
def Obligations.GencWithoutTreeFails : Prop :=
  ∀ s, s.treeValid = false →
    exec .genc s =
      .next { afterFailure 0x05#8 0x00000000#32 s with codesValid := false, codeMaxLen := 0#9 }

/-- R170 to R174: with a tree GENC succeeds: each leaf's symbol gets the bits of its path from the root, the sole
symbol of a single-leaf tree the code "0", every other symbol CLEN = 0, the bits after a code are 0, and
CODE_MAXLEN is the greatest length; nothing else changes but the completion. -/
def Obligations.GencWritesThePathCodes : Prop :=
  ∀ s, s.treeValid = true → TreeOk s →
    ∃ t, exec .genc s = .next t ∧ t.codesValid = true ∧
      (∀ k, k < s.nleaf.toNat → 2 ≤ s.nleaf.toNat →
        leafAt s.nodeAt s.root.toNat (codeString t (s.nodeAt k).sym.toNat) = some (s.nodeAt k).sym) ∧
      (s.nleaf.toNat = 1 → codeString t (s.nodeAt 0).sym.toNat = [false]) ∧
      (∀ a, a < 256 → (∀ k, k < s.nleaf.toNat → (s.nodeAt k).sym.toNat ≠ a) →
        t.clenAt a = 0#9 ∧ t.codeAt a = 0#256) ∧
      (∀ a, a < 256 → ∀ j, j < 256 → (t.clenAt a).toNat ≤ j → (t.codeAt a).getMsbD j = false) ∧
      (∀ a, a < 256 → (t.clenAt a).toNat ≤ t.codeMaxLen.toNat) ∧
      (∃ a, a < 256 ∧ (t.clenAt a).toNat = t.codeMaxLen.toNat) ∧
      withCodesOf s t = afterSuccess s

/-- R175: every leaf symbol has a non-empty code, no code is a prefix of another, every length is at most n - 1 for
n at least 2, and the lengths satisfy the Kraft equality: the sum of 2^(-CLEN) is 1 for n at least 2 and 1/2 for
the single-leaf code. -/
def Obligations.GencCodesArePrefixFreeAndComplete : Prop :=
  ∀ s t, s.treeValid = true → TreeOk s → exec .genc s = .next t →
    (∀ k, k < s.nleaf.toNat → 1 ≤ (t.clenAt (s.nodeAt k).sym.toNat).toNat) ∧
    (∀ j k, j < s.nleaf.toNat → k < s.nleaf.toNat → j ≠ k →
      ¬ codeString t (s.nodeAt j).sym.toNat <+: codeString t (s.nodeAt k).sym.toNat) ∧
    (2 ≤ s.nleaf.toNat → ∀ a, a < 256 → (t.clenAt a).toNat ≤ s.nleaf.toNat - 1 ∧ s.nleaf.toNat - 1 ≤ 255) ∧
    (((List.range s.nleaf.toNat).map
        (fun k => (1 / 2 : ℚ) ^ (t.clenAt (s.nodeAt k).sym.toNat).toNat)).sum =
      if s.nleaf.toNat = 1 then 1 / 2 else 1)

/-! ### ENC (spec/44_encoder.md) -/

/-- R190, R194, R233: without codes ENC fails with NO_CODES, and with codes and IN_LEN above BUF_BYTES with
IN_LEN_RANGE and ERR_INFO = IN_LEN, in both modes, before any symbol is read; OUTBUF is unchanged. -/
def Obligations.EncPreconditions : Prop :=
  ∀ m s,
    (s.codesValid = false → exec (.enc m) s = .next (afterStreamFailure 0x06#8 0x00000000#32 s)) ∧
    (s.codesValid = true → 16384 < s.inLen.toNat →
      exec (.enc m) s = .next (afterStreamFailure 0x07#8 s.inLen s))

/-- R190, R192, R193, R195: when every input symbol has a code and the codes fit, ENC succeeds: OUT_LEN is the
number of bits, the stream of OUTBUF is the concatenation of the codes in input order, packed with zero padding in
mode P and as characters in mode A; every byte above the output and all other state but the completion are
unchanged. -/
def Obligations.EncWritesTheCodesInOrder : Prop :=
  ∀ m s bits, s.codesValid = true → s.inLen.toNat ≤ 16384 →
    (∀ i, i < s.inLen.toNat → s.clenAt (s.inByte i).toNat ≠ 0#9) →
    bits = ((List.range s.inLen.toNat).map (fun i => codeString s (s.inByte i).toNat)).flatten →
    bits.length ≤ (match m with | .P => 131072 | .A => 16384) →
    ∃ t, exec (.enc m) s = .next t ∧ t.outLen.toNat = bits.length ∧
      (match m with
        | .P =>
          (∀ i (h : i < bits.length), (t.outByte (i / 8)).getLsbD (7 - i % 8) = bits[i]) ∧
          (∀ i, bits.length ≤ i → i < 8 * ((bits.length + 7) / 8) →
            (t.outByte (i / 8)).getLsbD (7 - i % 8) = false) ∧
          (∀ k, (bits.length + 7) / 8 ≤ k → t.outByte k = s.outByte k)
        | .A =>
          (∀ i (h : i < bits.length), t.outByte i = if bits[i] then 0x31#8 else 0x30#8) ∧
          (∀ k, bits.length ≤ k → t.outByte k = s.outByte k)) ∧
      withOutputOf s t = afterSuccess s

/-- R191, R194, R233: ENC reports the first input position that fails: UNKNOWN_SYMBOL with the symbol and the
position where the symbol has no code, else OUT_OVERFLOW with the position where its code does not fit; OUT_LEN is
0 and nothing but OUTBUF is left unfixed. -/
def Obligations.EncReportsTheFirstFailure : Prop :=
  ∀ m s i len cap, s.codesValid = true → s.inLen.toNat ≤ 16384 → i < s.inLen.toNat →
    cap = (match m with | .P => 131072 | .A => 16384) →
    (∀ j, j < i → s.clenAt (s.inByte j).toNat ≠ 0#9) →
    len = ((List.range i).map (fun j => (s.clenAt (s.inByte j).toNat).toNat)).sum → len ≤ cap →
    (s.clenAt (s.inByte i).toNat = 0#9 →
      ∃ t, exec (.enc m) s = .next t ∧
        withOutbufOf s t = afterStreamFailure 0x02#8 (s.inByte i ++ BitVec.ofNat 24 i) s) ∧
    (s.clenAt (s.inByte i).toNat ≠ 0#9 → cap < len + (s.clenAt (s.inByte i).toNat).toNat →
      ∃ t, exec (.enc m) s = .next t ∧
        withOutbufOf s t = afterStreamFailure 0x08#8 (BitVec.ofNat 32 i) s)

/-! ### DEC (spec/45_decoder.md) -/

/-- R210, R211, R233: without a tree DEC fails with NO_TREE, whatever the code table holds, and with a tree and
IN_LEN above the input capacity with IN_LEN_RANGE and ERR_INFO = IN_LEN; OUTBUF is unchanged. -/
def Obligations.DecPreconditions : Prop :=
  ∀ m s,
    (s.treeValid = false → exec (.dec m) s = .next (afterStreamFailure 0x05#8 0x00000000#32 s)) ∧
    (s.treeValid = true → (match m with | .P => 131072 | .A => 16384) < s.inLen.toNat →
      exec (.dec m) s = .next (afterStreamFailure 0x07#8 s.inLen s))

/-- R210 to R212, R215, R217: on a tree of two leaves or more, when the stream is a sequence of paths from the root
to leaves, at most BUF_BYTES of them, DEC succeeds with those leaves' symbols in order in OUTBUF and their number
in OUT_LEN; the bytes above and all other state but the completion are unchanged. The stream may be empty. -/
def Obligations.DecReadsPathsFromTheRoot : Prop :=
  ∀ m s (chunks : List (List Bool × Symbol)) bits, s.treeValid = true → TreeOk s → 2 ≤ s.nleaf.toNat →
    s.inLen.toNat ≤ (match m with | .P => 131072 | .A => 16384) → chunks.length ≤ 16384 →
    (∀ c ∈ chunks, leafAt s.nodeAt s.root.toNat c.1 = some c.2) →
    bits = (chunks.map Prod.fst).flatten → bits.length = s.inLen.toNat →
    (∀ j (h : j < bits.length), streamBit m s.inByte j = some bits[j]) →
    ∃ t, exec (.dec m) s = .next t ∧ t.outLen.toNat = chunks.length ∧
      (∀ k (h : k < chunks.length), t.outByte k = chunks[k].2) ∧
      (∀ k, chunks.length ≤ k → t.outByte k = s.outByte k) ∧
      withOutputOf s t = afterSuccess s

/-- R213: on a single-leaf tree every bit, 0 or 1, gives the sole symbol once, as long as the symbols fit; the
symbol that would be number BUF_BYTES + 1 fails with OUT_OVERFLOW at its bit (R215). -/
def Obligations.DecOfASingleLeafTree : Prop :=
  ∀ m s, s.treeValid = true → TreeOk s → s.nleaf.toNat = 1 →
    s.inLen.toNat ≤ (match m with | .P => 131072 | .A => 16384) →
    (∀ j, j < s.inLen.toNat → (streamBit m s.inByte j).isSome = true) →
    (s.inLen.toNat ≤ 16384 →
      ∃ t, exec (.dec m) s = .next t ∧ t.outLen = s.inLen ∧
        (∀ k, k < s.inLen.toNat → t.outByte k = (s.nodeAt 0).sym) ∧
        (∀ k, s.inLen.toNat ≤ k → t.outByte k = s.outByte k) ∧
        withOutputOf s t = afterSuccess s) ∧
    (16384 < s.inLen.toNat →
      ∃ t, exec (.dec m) s = .next t ∧ withOutbufOf s t = afterStreamFailure 0x08#8 0x00004000#32 s)

/-- R214: a stream that ends inside a code fails with MALFORMED_INPUT, kind 0x02, and the position of the first bit
of the incomplete code; no symbol is output. -/
def Obligations.DecOfATruncatedStreamFails : Prop :=
  ∀ m s (chunks : List (List Bool × Symbol)) tail rest sym bits, s.treeValid = true → TreeOk s →
    2 ≤ s.nleaf.toNat → s.inLen.toNat ≤ (match m with | .P => 131072 | .A => 16384) →
    chunks.length ≤ 16384 → (∀ c ∈ chunks, leafAt s.nodeAt s.root.toNat c.1 = some c.2) →
    tail ≠ [] → rest ≠ [] → leafAt s.nodeAt s.root.toNat (tail ++ rest) = some sym →
    bits = (chunks.map Prod.fst).flatten ++ tail → bits.length = s.inLen.toNat →
    (∀ j (h : j < bits.length), streamBit m s.inByte j = some bits[j]) →
    ∃ t, exec (.dec m) s = .next t ∧
      withOutbufOf s t =
        afterStreamFailure 0x03#8 (0x02#8 ++ BitVec.ofNat 24 (chunks.map Prod.fst).flatten.length) s

/-- R211, R233: in mode A the first character that is neither 0x30 nor 0x31 fails the decode with MALFORMED_INPUT,
kind 0x01, and its position, on every tree; OUT_LEN is 0. -/
def Obligations.DecOfABadCharacterFails : Prop :=
  ∀ s j, s.treeValid = true → TreeOk s → s.inLen.toNat ≤ 16384 → j < s.inLen.toNat →
    (∀ i, i < j → s.inByte i = 0x30#8 ∨ s.inByte i = 0x31#8) →
    s.inByte j ≠ 0x30#8 → s.inByte j ≠ 0x31#8 →
    ∃ t, exec (.dec .A) s = .next t ∧
      withOutbufOf s t = afterStreamFailure 0x03#8 (0x01#8 ++ BitVec.ofNat 24 j) s

/-- R215: a code that completes when BUF_BYTES symbols are already out fails with OUT_OVERFLOW and ERR_INFO the
position of that code's last bit. -/
def Obligations.DecOutputOverflowFails : Prop :=
  ∀ m s (chunks : List (List Bool × Symbol)) bits, s.treeValid = true → TreeOk s → 2 ≤ s.nleaf.toNat →
    s.inLen.toNat ≤ (match m with | .P => 131072 | .A => 16384) → chunks.length = 16385 →
    (∀ c ∈ chunks, leafAt s.nodeAt s.root.toNat c.1 = some c.2) →
    bits = (chunks.map Prod.fst).flatten → bits.length ≤ s.inLen.toNat →
    (∀ j (h : j < bits.length), streamBit m s.inByte j = some bits[j]) →
    ∃ t, exec (.dec m) s = .next t ∧
      withOutbufOf s t = afterStreamFailure 0x08#8 (BitVec.ofNat 32 (bits.length - 1)) s

/-- R197, the round-trip law: with the table GENC derived from the current tree, when ENC succeeds, MOVE follows
and DEC runs with the same A on the same tree, DEC succeeds with OUT_LEN the number of input symbols and OUTBUF
equal to the original input. -/
def Obligations.EncodeMoveDecodeIsTheIdentity : Prop :=
  ∀ m s t, s.treeValid = true → TreeOk s → s.codesValid = true → CodesFromTree s →
    exec (.enc m) s = .next t → t.result = 0x00#8 →
    ∃ u v, exec .move t = .next u ∧ exec (.dec m) u = .next v ∧ v.result = 0x00#8 ∧ v.outLen = s.inLen ∧
      ∀ k, k < s.inLen.toNat → v.outByte k = s.inByte k
end

