-- ==== Sys2Proof/Laws/Operands.lean ====
section
/-! SUPPORT. The layouts of codes and bit streams read back what was written (spec/20_memory.md R68, R71 to R73). -/

namespace Sys2Proof.Machine

/-! ### Codes (R42, R71, R174) -/

@[simp] theorem bitsToNat_nil : bitsToNat [] = 0 := rfl

theorem bitsToNat_snoc (p : List Bool) (b : Bool) : bitsToNat (p ++ [b]) = 2 * bitsToNat p + b.toNat := by
  simp [bitsToNat]

theorem testBit_bitsToNat (p : List Bool) (i : Nat) (h : i < p.length) :
    (bitsToNat p).testBit (p.length - 1 - i) = p[i] := by
  induction p using List.reverseRecOn with
  | nil => simp at h
  | append_singleton p b ih =>
    rw [bitsToNat_snoc]
    simp only [List.length_append, List.length_singleton] at h ⊢
    by_cases hi : i < p.length
    · rw [List.getElem_append_left hi, ← ih hi, show p.length + 1 - 1 - i = (p.length - 1 - i) + 1 by omega,
        Nat.testBit_succ]
      congr 1
      cases b <;> simp [Nat.add_div]
    · obtain rfl : i = p.length := by omega
      rw [show p.length + 1 - 1 - p.length = 0 by omega]
      cases b <;> simp [Nat.testBit_zero]

/-- Bit `i` of a stored code, from the first: the code's bit, and 0 after it. -/
theorem getMsbD_codeOfBits (p : List Bool) (hp : p.length ≤ 256) (i : Nat) :
    (codeOfBits p).getMsbD i = p.getD i false := by
  rw [List.getD_eq_getElem?_getD]
  simp only [codeOfBits, BitVec.getMsbD, Config.codeStore, BitVec.getLsbD_ofNat, Nat.testBit_shiftLeft]
  by_cases h : i < p.length
  · have ht := testBit_bitsToNat p i h
    simp only [List.getElem?_eq_getElem h, Option.getD_some, ← ht]
    rw [show 256 - 1 - i - (256 - p.length) = p.length - 1 - i by omega]
    simp [show i < 256 by omega, show 256 - p.length ≤ 256 - 1 - i by omega, show 256 - 1 - i < 256 by omega]
  · rw [List.getElem?_eq_none (by omega)]
    by_cases hi : i < 256
    · simp [show ¬ 256 - p.length ≤ 256 - 1 - i by omega]
    · simp [hi]

theorem codePrefix_length (c : BitVec 256) (len : Nat) : (codePrefix c len).length = len := by simp [codePrefix]

/-- A stored code of its length is the code. -/
theorem codePrefix_codeOfBits (p : List Bool) (hp : p.length ≤ 256) : codePrefix (codeOfBits p) p.length = p := by
  apply List.ext_getElem
  · simp [codePrefix]
  · intro i h1 h2
    simp [codePrefix, getMsbD_codeOfBits p hp, List.getD_eq_getElem?_getD, h2]

/-! ### Packed bits (R72, R192) -/

theorem getLsbD_packByte (bs : List Bool) (j : Nat) (hj : j < 8) :
    (packByte bs).getLsbD (7 - j) = bs.getD j false := by
  have h8 : ∀ b0 b1 b2 b3 b4 b5 b6 b7 : Bool, ∀ j, j < 8 →
      ((List.range 8).foldl
        (fun (acc : Byte) j => if [b0, b1, b2, b3, b4, b5, b6, b7].getD j false then acc ||| (1#8 <<< (7 - j)) else acc)
        0#8).getLsbD (7 - j) = [b0, b1, b2, b3, b4, b5, b6, b7].getD j false := by decide
  have := h8 (bs.getD 0 false) (bs.getD 1 false) (bs.getD 2 false) (bs.getD 3 false) (bs.getD 4 false)
    (bs.getD 5 false) (bs.getD 6 false) (bs.getD 7 false) j hj
  have hr : List.range 8 = [0, 1, 2, 3, 4, 5, 6, 7] := rfl
  rw [packByte]
  simp only [hr, List.foldl_cons, List.foldl_nil] at this ⊢
  simp only [List.getD_cons_zero, List.getD_cons_succ] at this
  rw [this]
  obtain _ | _ | _ | _ | _ | _ | _ | _ | j := j <;> first | rfl | omega

@[simp] theorem length_packBytes (n : Nat) (bs : List Bool) : (packBytes n bs).length = n := by
  induction n generalizing bs with
  | zero => rfl
  | succ n ih => simp [packBytes, ih]

theorem getElem_packBytes (n : Nat) (bs : List Bool) (k : Nat) (h : k < n) :
    (packBytes n bs)[k]'(by simpa using h) = packByte ((bs.drop (8 * k)).take 8) := by
  induction n generalizing bs k with
  | zero => omega
  | succ n ih =>
    cases k with
    | zero => simp [packBytes]
    | succ k =>
      simp only [packBytes, List.getElem_cons_succ]
      rw [ih _ _ (by omega), List.drop_drop, show 8 + 8 * k = 8 * (k + 1) by omega]

/-- Bit `i` of the packed bytes is bit `i` of the stream, and 0 after its end. -/
theorem getLsbD_packBytes (n : Nat) (bs : List Bool) (i : Nat) (h : i / 8 < n) :
    ((packBytes n bs)[i / 8]'(by simpa using h)).getLsbD (7 - i % 8) = bs.getD i false := by
  rw [getElem_packBytes _ _ _ h, getLsbD_packByte _ _ (Nat.mod_lt _ (by omega))]
  simp only [List.getD_eq_getElem?_getD, List.getElem?_take, List.getElem?_drop]
  rw [if_pos (Nat.mod_lt _ (by omega)), Nat.div_add_mod]

/-! ### Characters (R73) -/

theorem bitOfChar_charOfBit (b : Bool) : bitOfChar (charOfBit b) = some b := by cases b <;> decide

theorem bitOfChar_eq_none (c : Byte) : bitOfChar c = none ↔ c ≠ 0x30#8 ∧ c ≠ 0x31#8 := by
  unfold bitOfChar
  split
  · simp_all
  · split <;> simp_all

/-! ### Streams -/

theorem length_streamBytes (m : Mode) (bs : List Bool) :
    (streamBytes m bs).length = match m with | .P => (bs.length + 7) / 8 | .A => bs.length := by
  cases m <;> simp [streamBytes]

/-- A stream of at most `bitCapacity` bits fits in BUF_BYTES. -/
theorem length_streamBytes_le (m : Mode) (bs : List Bool) (h : bs.length ≤ bitCapacity m) :
    (streamBytes m bs).length ≤ Config.bufBytes := by
  cases m <;> simp_all [streamBytes, bitCapacity, Config.bufBytes]
  omega

/-- A buffer that starts with a stream's bytes reads as the stream. -/
theorem streamBit_streamBytes (m : Mode) (bs : List Bool) (byteAt : Nat → Byte)
    (hb : ∀ k (h : k < (streamBytes m bs).length), byteAt k = (streamBytes m bs)[k]) (j : Nat)
    (hj : j < bs.length) : streamBit m byteAt j = some bs[j] := by
  cases m with
  | P =>
    have hk : j / 8 < (bs.length + 7) / 8 := by omega
    have := hb (j / 8) (by simpa [streamBytes] using hk)
    simp only [streamBit, bitP, this]
    simp only [streamBytes, getLsbD_packBytes _ _ _ hk]
    simp [List.getD_eq_getElem?_getD, hj]
  | A =>
    have := hb j (by simpa [streamBytes] using hj)
    simp [streamBit, this, streamBytes, bitOfChar_charOfBit]

end Sys2Proof.Machine
end

