-- ==== Sys2Proof/Laws/State.lean ====
section
/-! SUPPORT. What each shared update of the state does to each field: one lemma per field per update, true by
definition, so that no proof unfolds a record update. -/

namespace Sys2Proof.Machine

/-! ### `complete()` (R122) -/

section
variable (s : State)

@[simp] theorem complete_cmdLast : (complete s).cmdLast = s.cmdLast := rfl
@[simp] theorem complete_result : (complete s).result = 0x00#8 := rfl
@[simp] theorem complete_errInfo : (complete s).errInfo = 0#32 := rfl
@[simp] theorem complete_data : (complete s).data = s.data := rfl
@[simp] theorem complete_inLen : (complete s).inLen = s.inLen := rfl
@[simp] theorem complete_outLen : (complete s).outLen = s.outLen := rfl
@[simp] theorem complete_root : (complete s).root = s.root := rfl
@[simp] theorem complete_nnode : (complete s).nnode = s.nnode := rfl
@[simp] theorem complete_nleaf : (complete s).nleaf = s.nleaf := rfl
@[simp] theorem complete_codeMaxLen : (complete s).codeMaxLen = s.codeMaxLen := rfl
@[simp] theorem complete_irqEn : (complete s).irqEn = s.irqEn := rfl
@[simp] theorem complete_irqStatus : (complete s).irqStatus = irqNext s.irqStatus irqDone 0#3 := rfl
@[simp] theorem complete_busyF : (complete s).busyF = false := rfl
@[simp] theorem complete_doneF : (complete s).doneF = true := rfl
@[simp] theorem complete_treeValid : (complete s).treeValid = s.treeValid := rfl
@[simp] theorem complete_codesValid : (complete s).codesValid = s.codesValid := rfl
@[simp] theorem complete_pend : (complete s).pend = none := rfl
@[simp] theorem complete_freq : (complete s).freq = s.freq := rfl
@[simp] theorem complete_fvalid : (complete s).fvalid = s.fvalid := rfl
@[simp] theorem complete_node : (complete s).node = s.node := rfl
@[simp] theorem complete_clen : (complete s).clen = s.clen := rfl
@[simp] theorem complete_code : (complete s).code = s.code := rfl
@[simp] theorem complete_inbuf : (complete s).inbuf = s.inbuf := rfl
@[simp] theorem complete_outbuf : (complete s).outbuf = s.outbuf := rfl
@[simp] theorem complete_rstAsserted : (complete s).rstAsserted = s.rstAsserted := rfl
@[simp] theorem complete_hostOps : (complete s).hostOps = s.hostOps := rfl
@[simp] theorem complete_hostReplies : (complete s).hostReplies = s.hostReplies := rfl
@[simp] theorem complete_expectFailed : (complete s).expectFailed = s.expectFailed := rfl
@[simp] theorem complete_latency : (complete s).latency = s.latency := rfl
@[simp] theorem complete_draws : (complete s).draws = s.draws := rfl
@[simp] theorem complete_freqAt : (complete s).freqAt = s.freqAt := rfl
@[simp] theorem complete_nodeAt : (complete s).nodeAt = s.nodeAt := rfl
@[simp] theorem complete_clenAt : (complete s).clenAt = s.clenAt := rfl
@[simp] theorem complete_codeAt : (complete s).codeAt = s.codeAt := rfl
@[simp] theorem complete_inByte : (complete s).inByte = s.inByte := rfl
@[simp] theorem complete_outByte : (complete s).outByte = s.outByte := rfl
@[simp] theorem complete_fvalidAt : (complete s).fvalidAt = s.fvalidAt := rfl

end

/-! ### the failing completion (R232) -/

section
variable (f : Failure) (s : State)

@[simp] theorem completeFailed_cmdLast : (completeFailed f s).cmdLast = s.cmdLast := rfl
@[simp] theorem completeFailed_result : (completeFailed f s).result = f.cause.resultCode := rfl
@[simp] theorem completeFailed_errInfo : (completeFailed f s).errInfo = f.info := rfl
@[simp] theorem completeFailed_data : (completeFailed f s).data = s.data := rfl
@[simp] theorem completeFailed_inLen : (completeFailed f s).inLen = s.inLen := rfl
@[simp] theorem completeFailed_outLen : (completeFailed f s).outLen = s.outLen := rfl
@[simp] theorem completeFailed_root : (completeFailed f s).root = s.root := rfl
@[simp] theorem completeFailed_nnode : (completeFailed f s).nnode = s.nnode := rfl
@[simp] theorem completeFailed_nleaf : (completeFailed f s).nleaf = s.nleaf := rfl
@[simp] theorem completeFailed_codeMaxLen : (completeFailed f s).codeMaxLen = s.codeMaxLen := rfl
@[simp] theorem completeFailed_irqEn : (completeFailed f s).irqEn = s.irqEn := rfl
@[simp] theorem completeFailed_irqStatus : (completeFailed f s).irqStatus = irqNext s.irqStatus (irqDone ||| irqErr) 0#3 := rfl
@[simp] theorem completeFailed_busyF : (completeFailed f s).busyF = false := rfl
@[simp] theorem completeFailed_doneF : (completeFailed f s).doneF = true := rfl
@[simp] theorem completeFailed_treeValid : (completeFailed f s).treeValid = s.treeValid := rfl
@[simp] theorem completeFailed_codesValid : (completeFailed f s).codesValid = s.codesValid := rfl
@[simp] theorem completeFailed_pend : (completeFailed f s).pend = none := rfl
@[simp] theorem completeFailed_freq : (completeFailed f s).freq = s.freq := rfl
@[simp] theorem completeFailed_fvalid : (completeFailed f s).fvalid = s.fvalid := rfl
@[simp] theorem completeFailed_node : (completeFailed f s).node = s.node := rfl
@[simp] theorem completeFailed_clen : (completeFailed f s).clen = s.clen := rfl
@[simp] theorem completeFailed_code : (completeFailed f s).code = s.code := rfl
@[simp] theorem completeFailed_inbuf : (completeFailed f s).inbuf = s.inbuf := rfl
@[simp] theorem completeFailed_outbuf : (completeFailed f s).outbuf = s.outbuf := rfl
@[simp] theorem completeFailed_rstAsserted : (completeFailed f s).rstAsserted = s.rstAsserted := rfl
@[simp] theorem completeFailed_hostOps : (completeFailed f s).hostOps = s.hostOps := rfl
@[simp] theorem completeFailed_hostReplies : (completeFailed f s).hostReplies = s.hostReplies := rfl
@[simp] theorem completeFailed_expectFailed : (completeFailed f s).expectFailed = s.expectFailed := rfl
@[simp] theorem completeFailed_latency : (completeFailed f s).latency = s.latency := rfl
@[simp] theorem completeFailed_draws : (completeFailed f s).draws = s.draws := rfl
@[simp] theorem completeFailed_freqAt : (completeFailed f s).freqAt = s.freqAt := rfl
@[simp] theorem completeFailed_nodeAt : (completeFailed f s).nodeAt = s.nodeAt := rfl
@[simp] theorem completeFailed_clenAt : (completeFailed f s).clenAt = s.clenAt := rfl
@[simp] theorem completeFailed_codeAt : (completeFailed f s).codeAt = s.codeAt := rfl
@[simp] theorem completeFailed_inByte : (completeFailed f s).inByte = s.inByte := rfl
@[simp] theorem completeFailed_outByte : (completeFailed f s).outByte = s.outByte := rfl
@[simp] theorem completeFailed_fvalidAt : (completeFailed f s).fvalidAt = s.fvalidAt := rfl

end

/-! ### acceptance (R120) -/

section
variable (w : Word) (s : State)

@[simp] theorem accept_cmdLast : (accept w s).cmdLast = w := rfl
@[simp] theorem accept_result : (accept w s).result = s.result := rfl
@[simp] theorem accept_errInfo : (accept w s).errInfo = s.errInfo := rfl
@[simp] theorem accept_data : (accept w s).data = s.data := rfl
@[simp] theorem accept_inLen : (accept w s).inLen = s.inLen := rfl
@[simp] theorem accept_outLen : (accept w s).outLen = s.outLen := rfl
@[simp] theorem accept_root : (accept w s).root = s.root := rfl
@[simp] theorem accept_nnode : (accept w s).nnode = s.nnode := rfl
@[simp] theorem accept_nleaf : (accept w s).nleaf = s.nleaf := rfl
@[simp] theorem accept_codeMaxLen : (accept w s).codeMaxLen = s.codeMaxLen := rfl
@[simp] theorem accept_irqEn : (accept w s).irqEn = s.irqEn := rfl
@[simp] theorem accept_irqStatus : (accept w s).irqStatus = s.irqStatus := rfl
@[simp] theorem accept_busyF : (accept w s).busyF = true := rfl
@[simp] theorem accept_doneF : (accept w s).doneF = false := rfl
@[simp] theorem accept_treeValid : (accept w s).treeValid = s.treeValid := rfl
@[simp] theorem accept_codesValid : (accept w s).codesValid = s.codesValid := rfl
@[simp] theorem accept_pend : (accept w s).pend = some w := rfl
@[simp] theorem accept_freq : (accept w s).freq = s.freq := rfl
@[simp] theorem accept_fvalid : (accept w s).fvalid = s.fvalid := rfl
@[simp] theorem accept_node : (accept w s).node = s.node := rfl
@[simp] theorem accept_clen : (accept w s).clen = s.clen := rfl
@[simp] theorem accept_code : (accept w s).code = s.code := rfl
@[simp] theorem accept_inbuf : (accept w s).inbuf = s.inbuf := rfl
@[simp] theorem accept_outbuf : (accept w s).outbuf = s.outbuf := rfl
@[simp] theorem accept_rstAsserted : (accept w s).rstAsserted = s.rstAsserted := rfl
@[simp] theorem accept_hostOps : (accept w s).hostOps = s.hostOps := rfl
@[simp] theorem accept_hostReplies : (accept w s).hostReplies = s.hostReplies := rfl
@[simp] theorem accept_expectFailed : (accept w s).expectFailed = s.expectFailed := rfl
@[simp] theorem accept_latency : (accept w s).latency = Config.latency s.draws := rfl
@[simp] theorem accept_draws : (accept w s).draws = s.draws + 1 := rfl
@[simp] theorem accept_freqAt : (accept w s).freqAt = s.freqAt := rfl
@[simp] theorem accept_nodeAt : (accept w s).nodeAt = s.nodeAt := rfl
@[simp] theorem accept_clenAt : (accept w s).clenAt = s.clenAt := rfl
@[simp] theorem accept_codeAt : (accept w s).codeAt = s.codeAt := rfl
@[simp] theorem accept_inByte : (accept w s).inByte = s.inByte := rfl
@[simp] theorem accept_outByte : (accept w s).outByte = s.outByte := rfl
@[simp] theorem accept_fvalidAt : (accept w s).fvalidAt = s.fvalidAt := rfl

end

/-! ### the write-one-to-clear of IRQ_STATUS (R35) -/

section
variable (b : BitVec 3) (s : State)

@[simp] theorem clearIrq_cmdLast : (clearIrq b s).cmdLast = s.cmdLast := rfl
@[simp] theorem clearIrq_result : (clearIrq b s).result = s.result := rfl
@[simp] theorem clearIrq_errInfo : (clearIrq b s).errInfo = s.errInfo := rfl
@[simp] theorem clearIrq_data : (clearIrq b s).data = s.data := rfl
@[simp] theorem clearIrq_inLen : (clearIrq b s).inLen = s.inLen := rfl
@[simp] theorem clearIrq_outLen : (clearIrq b s).outLen = s.outLen := rfl
@[simp] theorem clearIrq_root : (clearIrq b s).root = s.root := rfl
@[simp] theorem clearIrq_nnode : (clearIrq b s).nnode = s.nnode := rfl
@[simp] theorem clearIrq_nleaf : (clearIrq b s).nleaf = s.nleaf := rfl
@[simp] theorem clearIrq_codeMaxLen : (clearIrq b s).codeMaxLen = s.codeMaxLen := rfl
@[simp] theorem clearIrq_irqEn : (clearIrq b s).irqEn = s.irqEn := rfl
@[simp] theorem clearIrq_irqStatus : (clearIrq b s).irqStatus = irqNext s.irqStatus 0#3 b := rfl
@[simp] theorem clearIrq_busyF : (clearIrq b s).busyF = s.busyF := rfl
@[simp] theorem clearIrq_doneF : (clearIrq b s).doneF = s.doneF := rfl
@[simp] theorem clearIrq_treeValid : (clearIrq b s).treeValid = s.treeValid := rfl
@[simp] theorem clearIrq_codesValid : (clearIrq b s).codesValid = s.codesValid := rfl
@[simp] theorem clearIrq_pend : (clearIrq b s).pend = s.pend := rfl
@[simp] theorem clearIrq_freq : (clearIrq b s).freq = s.freq := rfl
@[simp] theorem clearIrq_fvalid : (clearIrq b s).fvalid = s.fvalid := rfl
@[simp] theorem clearIrq_node : (clearIrq b s).node = s.node := rfl
@[simp] theorem clearIrq_clen : (clearIrq b s).clen = s.clen := rfl
@[simp] theorem clearIrq_code : (clearIrq b s).code = s.code := rfl
@[simp] theorem clearIrq_inbuf : (clearIrq b s).inbuf = s.inbuf := rfl
@[simp] theorem clearIrq_outbuf : (clearIrq b s).outbuf = s.outbuf := rfl
@[simp] theorem clearIrq_rstAsserted : (clearIrq b s).rstAsserted = s.rstAsserted := rfl
@[simp] theorem clearIrq_hostOps : (clearIrq b s).hostOps = s.hostOps := rfl
@[simp] theorem clearIrq_hostReplies : (clearIrq b s).hostReplies = s.hostReplies := rfl
@[simp] theorem clearIrq_expectFailed : (clearIrq b s).expectFailed = s.expectFailed := rfl
@[simp] theorem clearIrq_latency : (clearIrq b s).latency = s.latency := rfl
@[simp] theorem clearIrq_draws : (clearIrq b s).draws = s.draws := rfl
@[simp] theorem clearIrq_freqAt : (clearIrq b s).freqAt = s.freqAt := rfl
@[simp] theorem clearIrq_nodeAt : (clearIrq b s).nodeAt = s.nodeAt := rfl
@[simp] theorem clearIrq_clenAt : (clearIrq b s).clenAt = s.clenAt := rfl
@[simp] theorem clearIrq_codeAt : (clearIrq b s).codeAt = s.codeAt := rfl
@[simp] theorem clearIrq_inByte : (clearIrq b s).inByte = s.inByte := rfl
@[simp] theorem clearIrq_outByte : (clearIrq b s).outByte = s.outByte := rfl
@[simp] theorem clearIrq_fvalidAt : (clearIrq b s).fvalidAt = s.fvalidAt := rfl

end

/-! ### the overrun event (R234) -/

section
variable (s : State)

@[simp] theorem overrun_cmdLast : (overrun s).cmdLast = s.cmdLast := rfl
@[simp] theorem overrun_result : (overrun s).result = s.result := rfl
@[simp] theorem overrun_errInfo : (overrun s).errInfo = s.errInfo := rfl
@[simp] theorem overrun_data : (overrun s).data = s.data := rfl
@[simp] theorem overrun_inLen : (overrun s).inLen = s.inLen := rfl
@[simp] theorem overrun_outLen : (overrun s).outLen = s.outLen := rfl
@[simp] theorem overrun_root : (overrun s).root = s.root := rfl
@[simp] theorem overrun_nnode : (overrun s).nnode = s.nnode := rfl
@[simp] theorem overrun_nleaf : (overrun s).nleaf = s.nleaf := rfl
@[simp] theorem overrun_codeMaxLen : (overrun s).codeMaxLen = s.codeMaxLen := rfl
@[simp] theorem overrun_irqEn : (overrun s).irqEn = s.irqEn := rfl
@[simp] theorem overrun_irqStatus : (overrun s).irqStatus = irqNext s.irqStatus irqOvr 0#3 := rfl
@[simp] theorem overrun_busyF : (overrun s).busyF = s.busyF := rfl
@[simp] theorem overrun_doneF : (overrun s).doneF = s.doneF := rfl
@[simp] theorem overrun_treeValid : (overrun s).treeValid = s.treeValid := rfl
@[simp] theorem overrun_codesValid : (overrun s).codesValid = s.codesValid := rfl
@[simp] theorem overrun_pend : (overrun s).pend = s.pend := rfl
@[simp] theorem overrun_freq : (overrun s).freq = s.freq := rfl
@[simp] theorem overrun_fvalid : (overrun s).fvalid = s.fvalid := rfl
@[simp] theorem overrun_node : (overrun s).node = s.node := rfl
@[simp] theorem overrun_clen : (overrun s).clen = s.clen := rfl
@[simp] theorem overrun_code : (overrun s).code = s.code := rfl
@[simp] theorem overrun_inbuf : (overrun s).inbuf = s.inbuf := rfl
@[simp] theorem overrun_outbuf : (overrun s).outbuf = s.outbuf := rfl
@[simp] theorem overrun_rstAsserted : (overrun s).rstAsserted = s.rstAsserted := rfl
@[simp] theorem overrun_hostOps : (overrun s).hostOps = s.hostOps := rfl
@[simp] theorem overrun_hostReplies : (overrun s).hostReplies = s.hostReplies := rfl
@[simp] theorem overrun_expectFailed : (overrun s).expectFailed = s.expectFailed := rfl
@[simp] theorem overrun_latency : (overrun s).latency = s.latency := rfl
@[simp] theorem overrun_draws : (overrun s).draws = s.draws := rfl
@[simp] theorem overrun_freqAt : (overrun s).freqAt = s.freqAt := rfl
@[simp] theorem overrun_nodeAt : (overrun s).nodeAt = s.nodeAt := rfl
@[simp] theorem overrun_clenAt : (overrun s).clenAt = s.clenAt := rfl
@[simp] theorem overrun_codeAt : (overrun s).codeAt = s.codeAt := rfl
@[simp] theorem overrun_inByte : (overrun s).inByte = s.inByte := rfl
@[simp] theorem overrun_outByte : (overrun s).outByte = s.outByte := rfl
@[simp] theorem overrun_fvalidAt : (overrun s).fvalidAt = s.fvalidAt := rfl

end

/-! ### NODE <- any (R232) -/

section
variable (s : State)

@[simp] theorem unfixNodes_cmdLast : (unfixNodes s).cmdLast = s.cmdLast := rfl
@[simp] theorem unfixNodes_result : (unfixNodes s).result = s.result := rfl
@[simp] theorem unfixNodes_errInfo : (unfixNodes s).errInfo = s.errInfo := rfl
@[simp] theorem unfixNodes_data : (unfixNodes s).data = s.data := rfl
@[simp] theorem unfixNodes_inLen : (unfixNodes s).inLen = s.inLen := rfl
@[simp] theorem unfixNodes_outLen : (unfixNodes s).outLen = s.outLen := rfl
@[simp] theorem unfixNodes_root : (unfixNodes s).root = s.root := rfl
@[simp] theorem unfixNodes_nnode : (unfixNodes s).nnode = s.nnode := rfl
@[simp] theorem unfixNodes_nleaf : (unfixNodes s).nleaf = s.nleaf := rfl
@[simp] theorem unfixNodes_codeMaxLen : (unfixNodes s).codeMaxLen = s.codeMaxLen := rfl
@[simp] theorem unfixNodes_irqEn : (unfixNodes s).irqEn = s.irqEn := rfl
@[simp] theorem unfixNodes_irqStatus : (unfixNodes s).irqStatus = s.irqStatus := rfl
@[simp] theorem unfixNodes_busyF : (unfixNodes s).busyF = s.busyF := rfl
@[simp] theorem unfixNodes_doneF : (unfixNodes s).doneF = s.doneF := rfl
@[simp] theorem unfixNodes_treeValid : (unfixNodes s).treeValid = s.treeValid := rfl
@[simp] theorem unfixNodes_codesValid : (unfixNodes s).codesValid = s.codesValid := rfl
@[simp] theorem unfixNodes_pend : (unfixNodes s).pend = s.pend := rfl
@[simp] theorem unfixNodes_freq : (unfixNodes s).freq = s.freq := rfl
@[simp] theorem unfixNodes_fvalid : (unfixNodes s).fvalid = s.fvalid := rfl
@[simp] theorem unfixNodes_node : (unfixNodes s).node = Table.unspecified s.draws := rfl
@[simp] theorem unfixNodes_clen : (unfixNodes s).clen = s.clen := rfl
@[simp] theorem unfixNodes_code : (unfixNodes s).code = s.code := rfl
@[simp] theorem unfixNodes_inbuf : (unfixNodes s).inbuf = s.inbuf := rfl
@[simp] theorem unfixNodes_outbuf : (unfixNodes s).outbuf = s.outbuf := rfl
@[simp] theorem unfixNodes_rstAsserted : (unfixNodes s).rstAsserted = s.rstAsserted := rfl
@[simp] theorem unfixNodes_hostOps : (unfixNodes s).hostOps = s.hostOps := rfl
@[simp] theorem unfixNodes_hostReplies : (unfixNodes s).hostReplies = s.hostReplies := rfl
@[simp] theorem unfixNodes_expectFailed : (unfixNodes s).expectFailed = s.expectFailed := rfl
@[simp] theorem unfixNodes_latency : (unfixNodes s).latency = s.latency := rfl
@[simp] theorem unfixNodes_draws : (unfixNodes s).draws = s.draws + 1 := rfl
@[simp] theorem unfixNodes_freqAt : (unfixNodes s).freqAt = s.freqAt := rfl
@[simp] theorem unfixNodes_clenAt : (unfixNodes s).clenAt = s.clenAt := rfl
@[simp] theorem unfixNodes_codeAt : (unfixNodes s).codeAt = s.codeAt := rfl
@[simp] theorem unfixNodes_inByte : (unfixNodes s).inByte = s.inByte := rfl
@[simp] theorem unfixNodes_outByte : (unfixNodes s).outByte = s.outByte := rfl
@[simp] theorem unfixNodes_fvalidAt : (unfixNodes s).fvalidAt = s.fvalidAt := rfl

end

/-! ### OUTBUF <- any (R232) -/

section
variable (s : State)

@[simp] theorem unfixOutbuf_cmdLast : (unfixOutbuf s).cmdLast = s.cmdLast := rfl
@[simp] theorem unfixOutbuf_result : (unfixOutbuf s).result = s.result := rfl
@[simp] theorem unfixOutbuf_errInfo : (unfixOutbuf s).errInfo = s.errInfo := rfl
@[simp] theorem unfixOutbuf_data : (unfixOutbuf s).data = s.data := rfl
@[simp] theorem unfixOutbuf_inLen : (unfixOutbuf s).inLen = s.inLen := rfl
@[simp] theorem unfixOutbuf_outLen : (unfixOutbuf s).outLen = s.outLen := rfl
@[simp] theorem unfixOutbuf_root : (unfixOutbuf s).root = s.root := rfl
@[simp] theorem unfixOutbuf_nnode : (unfixOutbuf s).nnode = s.nnode := rfl
@[simp] theorem unfixOutbuf_nleaf : (unfixOutbuf s).nleaf = s.nleaf := rfl
@[simp] theorem unfixOutbuf_codeMaxLen : (unfixOutbuf s).codeMaxLen = s.codeMaxLen := rfl
@[simp] theorem unfixOutbuf_irqEn : (unfixOutbuf s).irqEn = s.irqEn := rfl
@[simp] theorem unfixOutbuf_irqStatus : (unfixOutbuf s).irqStatus = s.irqStatus := rfl
@[simp] theorem unfixOutbuf_busyF : (unfixOutbuf s).busyF = s.busyF := rfl
@[simp] theorem unfixOutbuf_doneF : (unfixOutbuf s).doneF = s.doneF := rfl
@[simp] theorem unfixOutbuf_treeValid : (unfixOutbuf s).treeValid = s.treeValid := rfl
@[simp] theorem unfixOutbuf_codesValid : (unfixOutbuf s).codesValid = s.codesValid := rfl
@[simp] theorem unfixOutbuf_pend : (unfixOutbuf s).pend = s.pend := rfl
@[simp] theorem unfixOutbuf_freq : (unfixOutbuf s).freq = s.freq := rfl
@[simp] theorem unfixOutbuf_fvalid : (unfixOutbuf s).fvalid = s.fvalid := rfl
@[simp] theorem unfixOutbuf_node : (unfixOutbuf s).node = s.node := rfl
@[simp] theorem unfixOutbuf_clen : (unfixOutbuf s).clen = s.clen := rfl
@[simp] theorem unfixOutbuf_code : (unfixOutbuf s).code = s.code := rfl
@[simp] theorem unfixOutbuf_inbuf : (unfixOutbuf s).inbuf = s.inbuf := rfl
@[simp] theorem unfixOutbuf_outbuf : (unfixOutbuf s).outbuf = Table.unspecified s.draws := rfl
@[simp] theorem unfixOutbuf_rstAsserted : (unfixOutbuf s).rstAsserted = s.rstAsserted := rfl
@[simp] theorem unfixOutbuf_hostOps : (unfixOutbuf s).hostOps = s.hostOps := rfl
@[simp] theorem unfixOutbuf_hostReplies : (unfixOutbuf s).hostReplies = s.hostReplies := rfl
@[simp] theorem unfixOutbuf_expectFailed : (unfixOutbuf s).expectFailed = s.expectFailed := rfl
@[simp] theorem unfixOutbuf_latency : (unfixOutbuf s).latency = s.latency := rfl
@[simp] theorem unfixOutbuf_draws : (unfixOutbuf s).draws = s.draws + 1 := rfl
@[simp] theorem unfixOutbuf_freqAt : (unfixOutbuf s).freqAt = s.freqAt := rfl
@[simp] theorem unfixOutbuf_nodeAt : (unfixOutbuf s).nodeAt = s.nodeAt := rfl
@[simp] theorem unfixOutbuf_clenAt : (unfixOutbuf s).clenAt = s.clenAt := rfl
@[simp] theorem unfixOutbuf_codeAt : (unfixOutbuf s).codeAt = s.codeAt := rfl
@[simp] theorem unfixOutbuf_inByte : (unfixOutbuf s).inByte = s.inByte := rfl
@[simp] theorem unfixOutbuf_fvalidAt : (unfixOutbuf s).fvalidAt = s.fvalidAt := rfl

end

/-! ### a failing BUILD's registers (R232) -/

section
variable (s : State)

@[simp] theorem dropTree_cmdLast : (dropTree s).cmdLast = s.cmdLast := rfl
@[simp] theorem dropTree_result : (dropTree s).result = s.result := rfl
@[simp] theorem dropTree_errInfo : (dropTree s).errInfo = s.errInfo := rfl
@[simp] theorem dropTree_data : (dropTree s).data = s.data := rfl
@[simp] theorem dropTree_inLen : (dropTree s).inLen = s.inLen := rfl
@[simp] theorem dropTree_outLen : (dropTree s).outLen = s.outLen := rfl
@[simp] theorem dropTree_root : (dropTree s).root = 0#9 := rfl
@[simp] theorem dropTree_nnode : (dropTree s).nnode = 0#10 := rfl
@[simp] theorem dropTree_nleaf : (dropTree s).nleaf = 0#9 := rfl
@[simp] theorem dropTree_codeMaxLen : (dropTree s).codeMaxLen = 0#9 := rfl
@[simp] theorem dropTree_irqEn : (dropTree s).irqEn = s.irqEn := rfl
@[simp] theorem dropTree_irqStatus : (dropTree s).irqStatus = s.irqStatus := rfl
@[simp] theorem dropTree_busyF : (dropTree s).busyF = s.busyF := rfl
@[simp] theorem dropTree_doneF : (dropTree s).doneF = s.doneF := rfl
@[simp] theorem dropTree_treeValid : (dropTree s).treeValid = false := rfl
@[simp] theorem dropTree_codesValid : (dropTree s).codesValid = false := rfl
@[simp] theorem dropTree_pend : (dropTree s).pend = s.pend := rfl
@[simp] theorem dropTree_freq : (dropTree s).freq = s.freq := rfl
@[simp] theorem dropTree_fvalid : (dropTree s).fvalid = s.fvalid := rfl
@[simp] theorem dropTree_node : (dropTree s).node = s.node := rfl
@[simp] theorem dropTree_clen : (dropTree s).clen = s.clen := rfl
@[simp] theorem dropTree_code : (dropTree s).code = s.code := rfl
@[simp] theorem dropTree_inbuf : (dropTree s).inbuf = s.inbuf := rfl
@[simp] theorem dropTree_outbuf : (dropTree s).outbuf = s.outbuf := rfl
@[simp] theorem dropTree_rstAsserted : (dropTree s).rstAsserted = s.rstAsserted := rfl
@[simp] theorem dropTree_hostOps : (dropTree s).hostOps = s.hostOps := rfl
@[simp] theorem dropTree_hostReplies : (dropTree s).hostReplies = s.hostReplies := rfl
@[simp] theorem dropTree_expectFailed : (dropTree s).expectFailed = s.expectFailed := rfl
@[simp] theorem dropTree_latency : (dropTree s).latency = s.latency := rfl
@[simp] theorem dropTree_draws : (dropTree s).draws = s.draws := rfl
@[simp] theorem dropTree_freqAt : (dropTree s).freqAt = s.freqAt := rfl
@[simp] theorem dropTree_nodeAt : (dropTree s).nodeAt = s.nodeAt := rfl
@[simp] theorem dropTree_clenAt : (dropTree s).clenAt = s.clenAt := rfl
@[simp] theorem dropTree_codeAt : (dropTree s).codeAt = s.codeAt := rfl
@[simp] theorem dropTree_inByte : (dropTree s).inByte = s.inByte := rfl
@[simp] theorem dropTree_outByte : (dropTree s).outByte = s.outByte := rfl
@[simp] theorem dropTree_fvalidAt : (dropTree s).fvalidAt = s.fvalidAt := rfl

end

/-! ### a failing GENC's registers (R232) -/

section
variable (s : State)

@[simp] theorem dropCodes_cmdLast : (dropCodes s).cmdLast = s.cmdLast := rfl
@[simp] theorem dropCodes_result : (dropCodes s).result = s.result := rfl
@[simp] theorem dropCodes_errInfo : (dropCodes s).errInfo = s.errInfo := rfl
@[simp] theorem dropCodes_data : (dropCodes s).data = s.data := rfl
@[simp] theorem dropCodes_inLen : (dropCodes s).inLen = s.inLen := rfl
@[simp] theorem dropCodes_outLen : (dropCodes s).outLen = s.outLen := rfl
@[simp] theorem dropCodes_root : (dropCodes s).root = s.root := rfl
@[simp] theorem dropCodes_nnode : (dropCodes s).nnode = s.nnode := rfl
@[simp] theorem dropCodes_nleaf : (dropCodes s).nleaf = s.nleaf := rfl
@[simp] theorem dropCodes_codeMaxLen : (dropCodes s).codeMaxLen = 0#9 := rfl
@[simp] theorem dropCodes_irqEn : (dropCodes s).irqEn = s.irqEn := rfl
@[simp] theorem dropCodes_irqStatus : (dropCodes s).irqStatus = s.irqStatus := rfl
@[simp] theorem dropCodes_busyF : (dropCodes s).busyF = s.busyF := rfl
@[simp] theorem dropCodes_doneF : (dropCodes s).doneF = s.doneF := rfl
@[simp] theorem dropCodes_treeValid : (dropCodes s).treeValid = s.treeValid := rfl
@[simp] theorem dropCodes_codesValid : (dropCodes s).codesValid = false := rfl
@[simp] theorem dropCodes_pend : (dropCodes s).pend = s.pend := rfl
@[simp] theorem dropCodes_freq : (dropCodes s).freq = s.freq := rfl
@[simp] theorem dropCodes_fvalid : (dropCodes s).fvalid = s.fvalid := rfl
@[simp] theorem dropCodes_node : (dropCodes s).node = s.node := rfl
@[simp] theorem dropCodes_clen : (dropCodes s).clen = s.clen := rfl
@[simp] theorem dropCodes_code : (dropCodes s).code = s.code := rfl
@[simp] theorem dropCodes_inbuf : (dropCodes s).inbuf = s.inbuf := rfl
@[simp] theorem dropCodes_outbuf : (dropCodes s).outbuf = s.outbuf := rfl
@[simp] theorem dropCodes_rstAsserted : (dropCodes s).rstAsserted = s.rstAsserted := rfl
@[simp] theorem dropCodes_hostOps : (dropCodes s).hostOps = s.hostOps := rfl
@[simp] theorem dropCodes_hostReplies : (dropCodes s).hostReplies = s.hostReplies := rfl
@[simp] theorem dropCodes_expectFailed : (dropCodes s).expectFailed = s.expectFailed := rfl
@[simp] theorem dropCodes_latency : (dropCodes s).latency = s.latency := rfl
@[simp] theorem dropCodes_draws : (dropCodes s).draws = s.draws := rfl
@[simp] theorem dropCodes_freqAt : (dropCodes s).freqAt = s.freqAt := rfl
@[simp] theorem dropCodes_nodeAt : (dropCodes s).nodeAt = s.nodeAt := rfl
@[simp] theorem dropCodes_clenAt : (dropCodes s).clenAt = s.clenAt := rfl
@[simp] theorem dropCodes_codeAt : (dropCodes s).codeAt = s.codeAt := rfl
@[simp] theorem dropCodes_inByte : (dropCodes s).inByte = s.inByte := rfl
@[simp] theorem dropCodes_outByte : (dropCodes s).outByte = s.outByte := rfl
@[simp] theorem dropCodes_fvalidAt : (dropCodes s).fvalidAt = s.fvalidAt := rfl

end

/-! ### a failing ENC's or DEC's register (R232) -/

section
variable (s : State)

@[simp] theorem dropOutput_cmdLast : (dropOutput s).cmdLast = s.cmdLast := rfl
@[simp] theorem dropOutput_result : (dropOutput s).result = s.result := rfl
@[simp] theorem dropOutput_errInfo : (dropOutput s).errInfo = s.errInfo := rfl
@[simp] theorem dropOutput_data : (dropOutput s).data = s.data := rfl
@[simp] theorem dropOutput_inLen : (dropOutput s).inLen = s.inLen := rfl
@[simp] theorem dropOutput_outLen : (dropOutput s).outLen = 0#32 := rfl
@[simp] theorem dropOutput_root : (dropOutput s).root = s.root := rfl
@[simp] theorem dropOutput_nnode : (dropOutput s).nnode = s.nnode := rfl
@[simp] theorem dropOutput_nleaf : (dropOutput s).nleaf = s.nleaf := rfl
@[simp] theorem dropOutput_codeMaxLen : (dropOutput s).codeMaxLen = s.codeMaxLen := rfl
@[simp] theorem dropOutput_irqEn : (dropOutput s).irqEn = s.irqEn := rfl
@[simp] theorem dropOutput_irqStatus : (dropOutput s).irqStatus = s.irqStatus := rfl
@[simp] theorem dropOutput_busyF : (dropOutput s).busyF = s.busyF := rfl
@[simp] theorem dropOutput_doneF : (dropOutput s).doneF = s.doneF := rfl
@[simp] theorem dropOutput_treeValid : (dropOutput s).treeValid = s.treeValid := rfl
@[simp] theorem dropOutput_codesValid : (dropOutput s).codesValid = s.codesValid := rfl
@[simp] theorem dropOutput_pend : (dropOutput s).pend = s.pend := rfl
@[simp] theorem dropOutput_freq : (dropOutput s).freq = s.freq := rfl
@[simp] theorem dropOutput_fvalid : (dropOutput s).fvalid = s.fvalid := rfl
@[simp] theorem dropOutput_node : (dropOutput s).node = s.node := rfl
@[simp] theorem dropOutput_clen : (dropOutput s).clen = s.clen := rfl
@[simp] theorem dropOutput_code : (dropOutput s).code = s.code := rfl
@[simp] theorem dropOutput_inbuf : (dropOutput s).inbuf = s.inbuf := rfl
@[simp] theorem dropOutput_outbuf : (dropOutput s).outbuf = s.outbuf := rfl
@[simp] theorem dropOutput_rstAsserted : (dropOutput s).rstAsserted = s.rstAsserted := rfl
@[simp] theorem dropOutput_hostOps : (dropOutput s).hostOps = s.hostOps := rfl
@[simp] theorem dropOutput_hostReplies : (dropOutput s).hostReplies = s.hostReplies := rfl
@[simp] theorem dropOutput_expectFailed : (dropOutput s).expectFailed = s.expectFailed := rfl
@[simp] theorem dropOutput_latency : (dropOutput s).latency = s.latency := rfl
@[simp] theorem dropOutput_draws : (dropOutput s).draws = s.draws := rfl
@[simp] theorem dropOutput_freqAt : (dropOutput s).freqAt = s.freqAt := rfl
@[simp] theorem dropOutput_nodeAt : (dropOutput s).nodeAt = s.nodeAt := rfl
@[simp] theorem dropOutput_clenAt : (dropOutput s).clenAt = s.clenAt := rfl
@[simp] theorem dropOutput_codeAt : (dropOutput s).codeAt = s.codeAt := rfl
@[simp] theorem dropOutput_inByte : (dropOutput s).inByte = s.inByte := rfl
@[simp] theorem dropOutput_outByte : (dropOutput s).outByte = s.outByte := rfl
@[simp] theorem dropOutput_fvalidAt : (dropOutput s).fvalidAt = s.fvalidAt := rfl

end

end Sys2Proof.Machine
end

