-- ==== Sys2Proof/Laws/Table.lean ====
section
/-! SUPPORT. What the element reads and writes of an internal memory do: read after write, writes leave the
other elements alone, and every write keeps the canonical form. -/

namespace Sys2Proof.Machine

variable {α : Type}

/-! ### Cells -/

theorem cellAt_putCell_same (cs : List (Nat × α)) (k : Nat) (v : α) : cellAt (putCell cs k v) k = some v := by
  induction cs with
  | nil => simp [putCell, cellAt]
  | cons c cs ih =>
    obtain ⟨i, u⟩ := c
    simp only [putCell]
    split
    · simp [cellAt]
    · split
      · simp [cellAt]
      · rw [cellAt, if_neg (by omega)]
        exact ih

theorem cellAt_putCell_other (cs : List (Nat × α)) {k j : Nat} (v : α) (h : j ≠ k) :
    cellAt (putCell cs k v) j = cellAt cs j := by
  induction cs with
  | nil => simp [putCell, cellAt, Ne.symm h]
  | cons c cs ih =>
    obtain ⟨i, u⟩ := c
    simp only [putCell]
    split
    · simp [cellAt, Ne.symm h]
    · split
      · next hki => subst hki; simp [cellAt, Ne.symm h]
      · simp only [cellAt, ih]

theorem cellAt_append (xs ys : List (Nat × α)) (k : Nat) :
    cellAt (xs ++ ys) k = (cellAt xs k).or (cellAt ys k) := by
  induction xs with
  | nil => simp [cellAt]
  | cons c xs ih =>
    obtain ⟨i, u⟩ := c
    by_cases h : i = k <;> simp [cellAt, h, ih]

theorem cellAt_filter_ge (cs : List (Nat × α)) {n k : Nat} (h : n ≤ k) :
    cellAt (cs.filter (fun c => decide (n ≤ c.1))) k = cellAt cs k := by
  induction cs with
  | nil => rfl
  | cons c cs ih =>
    obtain ⟨i, u⟩ := c
    by_cases hi : n ≤ i
    · simp [hi, cellAt, ih]
    · simp [hi, cellAt, ih, show i ≠ k by omega]

theorem cellAt_cellsFrom (a : Nat) (vs : List α) (k : Nat) :
    cellAt (cellsFrom a vs) (a + k) = vs[k]? := by
  induction vs generalizing a k with
  | nil => simp [cellsFrom, cellAt]
  | cons v vs ih =>
    cases k with
    | zero => simp [cellsFrom, cellAt]
    | succ k =>
      have h := ih (a + 1) k
      rw [show a + (k + 1) = a + 1 + k by omega, cellsFrom, cellAt, if_neg (by omega), h]
      simp

/-! ### Element reads -/

variable (free : Nat → Nat → α)

@[simp] theorem Table.get_put_same (t : Table α) (k : Nat) (v : α) : (t.put k v).get free k = v := by
  simp [Table.get, Table.put, cellAt_putCell_same]

theorem Table.get_put_other (t : Table α) {k j : Nat} (v : α) (h : j ≠ k) :
    (t.put k v).get free j = t.get free j := by
  simp [Table.get, Table.put, cellAt_putCell_other _ _ h]

theorem Table.get_put (t : Table α) (k j : Nat) (v : α) :
    (t.put k v).get free j = if j = k then v else t.get free j := by
  by_cases h : j = k
  · subst h; simp
  · simp [h, Table.get_put_other]

theorem Table.get_putFirst_lt (t : Table α) (vs : List α) {k : Nat} (h : k < vs.length) :
    (t.putFirst vs).get free k = vs[k] := by
  have hc := cellAt_cellsFrom 0 vs k
  rw [Nat.zero_add] at hc
  simp [Table.get, Table.putFirst, cellAt_append, hc, h]

theorem Table.get_putFirst_ge (t : Table α) (vs : List α) {k : Nat} (h : vs.length ≤ k) :
    (t.putFirst vs).get free k = t.get free k := by
  have hc := cellAt_cellsFrom 0 vs k
  rw [Nat.zero_add] at hc
  simp [Table.get, Table.putFirst, cellAt_append, hc, h, cellAt_filter_ge]

@[simp] theorem Table.get_unspecified (d k : Nat) :
    (Table.unspecified d : Table α).get free k = free d k := rfl

@[simp] theorem Table.fill_put (t : Table α) (k : Nat) (v : α) : (t.put k v).fill = t.fill := rfl

@[simp] theorem Table.fill_putFirst (t : Table α) (vs : List α) : (t.putFirst vs).fill = t.fill := rfl

@[simp] theorem Table.fill_unspecified (d : Nat) : (Table.unspecified d : Table α).fill = d := rfl

/-! ### The canonical form -/

theorem risingFrom_mono {lo hi : Nat} (h : lo ≤ hi) :
    ∀ cs : List (Nat × α), risingFrom hi cs = true → risingFrom lo cs = true
  | [], _ => rfl
  | (i, _) :: cs, hr => by
    simp only [risingFrom, Bool.and_eq_true, decide_eq_true_eq] at hr ⊢
    exact ⟨by omega, hr.2⟩

theorem risingFrom_putCell (cs : List (Nat × α)) (k : Nat) (v : α) (lo : Nat) (hk : lo ≤ k)
    (h : risingFrom lo cs = true) : risingFrom lo (putCell cs k v) = true := by
  induction cs generalizing lo with
  | nil => simp [putCell, risingFrom, hk]
  | cons c cs ih =>
    obtain ⟨i, u⟩ := c
    simp only [risingFrom, Bool.and_eq_true, decide_eq_true_eq] at h
    simp only [putCell]
    split
    · simp only [risingFrom, Bool.and_eq_true, decide_eq_true_eq]
      exact ⟨hk, by omega, h.2⟩
    · split
      · next hki => subst hki; simp [risingFrom, h]
      · simp only [risingFrom, Bool.and_eq_true, decide_eq_true_eq]
        exact ⟨h.1, ih (i + 1) (by omega) h.2⟩

theorem all_putCell (p : Nat × α → Bool) (cs : List (Nat × α)) (k : Nat) (v : α) (hv : p (k, v) = true)
    (h : cs.all p = true) : (putCell cs k v).all p = true := by
  induction cs with
  | nil => simp [putCell, hv]
  | cons c cs ih =>
    obtain ⟨i, u⟩ := c
    simp only [List.all_cons, Bool.and_eq_true] at h
    simp only [putCell]
    split
    · simp [hv, h.1, h.2]
    · split
      · simp [hv, h.2]
      · simp [h.1, ih h.2]

theorem risingFrom_cellsFrom_append (vs : List α) (a : Nat) (cs : List (Nat × α))
    (h : risingFrom (a + vs.length) cs = true) : risingFrom a (cellsFrom a vs ++ cs) = true := by
  induction vs generalizing a with
  | nil => simpa [cellsFrom] using h
  | cons v vs ih =>
    simp only [cellsFrom, List.cons_append, risingFrom, Bool.and_eq_true, decide_eq_true_eq]
    refine ⟨Nat.le_refl a, ih (a + 1) ?_⟩
    rw [List.length_cons] at h
    rwa [show a + 1 + vs.length = a + (vs.length + 1) by omega]

theorem risingFrom_filter_ge (cs : List (Nat × α)) (n lo : Nat) (h : risingFrom lo cs = true) :
    risingFrom (max n lo) (cs.filter (fun c => decide (n ≤ c.1))) = true := by
  induction cs generalizing lo with
  | nil => rfl
  | cons c cs ih =>
    obtain ⟨i, u⟩ := c
    simp only [risingFrom, Bool.and_eq_true, decide_eq_true_eq] at h
    have hrest := ih (i + 1) h.2
    by_cases hi : n ≤ i
    · simp only [hi, decide_true, List.filter_cons_of_pos, risingFrom, Bool.and_eq_true, decide_eq_true_eq]
      refine ⟨by omega, risingFrom_mono (by omega) _ hrest⟩
    · simp only [hi, decide_false, Bool.false_eq_true, not_false_eq_true, List.filter_cons_of_neg]
      exact risingFrom_mono (by omega) _ hrest

theorem all_cellsFrom (vs : List α) (a size : Nat) (h : a + vs.length ≤ size) :
    (cellsFrom a vs).all (fun c => decide (c.1 < size)) = true := by
  induction vs generalizing a with
  | nil => rfl
  | cons v vs ih =>
    rw [List.length_cons] at h
    simp only [cellsFrom, List.all_cons, Bool.and_eq_true, decide_eq_true_eq]
    exact ⟨by omega, ih (a + 1) (by omega)⟩

theorem Table.wf_put {size : Nat} {t : Table α} {k : Nat} (v : α) (hk : k < size) (h : t.wf size = true) :
    (t.put k v).wf size = true := by
  simp only [Table.wf, Table.put, Bool.and_eq_true] at h ⊢
  exact ⟨risingFrom_putCell _ _ _ _ (Nat.zero_le k) h.1, all_putCell _ _ _ _ (by simpa using hk) h.2⟩

theorem Table.wf_putFirst {size : Nat} {t : Table α} {vs : List α} (hv : vs.length ≤ size)
    (h : t.wf size = true) : (t.putFirst vs).wf size = true := by
  simp only [Table.wf, Table.putFirst, Bool.and_eq_true] at h ⊢
  constructor
  · apply risingFrom_cellsFrom_append
    have hf := risingFrom_filter_ge t.cells vs.length 0 h.1
    rwa [show max vs.length 0 = 0 + vs.length by omega] at hf
  · rw [List.all_append, Bool.and_eq_true]
    refine ⟨all_cellsFrom vs 0 size (by omega), ?_⟩
    rw [List.all_eq_true] at h ⊢
    intro c hc
    exact h.2 c (List.mem_of_mem_filter hc)

@[simp] theorem Table.wf_unspecified (size d : Nat) : (Table.unspecified d : Table α).wf size = true := rfl

end Sys2Proof.Machine
end

