-- ==== Sys2Proof/Laws/Bus.lean ====
section
/-! SUPPORT. What a bus access does, once (spec/20_memory.md R60 to R68): the reply and the one effect of a read or a
write, and the locations of the map. -/

namespace Sys2Proof.Machine

/-! ### Accesses -/

theorem accessOk_word {off : Offset} (h : off.extractLsb' 0 2 = 0#2) : accessOk off 4 = true := by
  simp [accessOk, h]

theorem accessOk_eq_false {off : Offset} {bytes : Nat} (h : off.extractLsb' 0 2 ≠ 0#2 ∨ bytes ≠ 4) :
    accessOk off bytes = false := by
  simp only [accessOk, Bool.and_eq_false_iff, beq_eq_false_iff_ne]
  exact h.symm

/-- A read while idle. -/
theorem busReadAt_idle {off : Offset} {s : State} (h : off.extractLsb' 0 2 = 0#2) (hb : s.busyF = false) :
    busReadAt off 4 s = (⟨.ok, locWord s (locate off)⟩, s) := by
  simp [busReadAt, accessOk_word h, hb]

/-- A read while busy: the fixed bits, free bits for the others, one draw. -/
theorem busReadAt_busy {off : Offset} {s : State} (h : off.extractLsb' 0 2 = 0#2) (hb : s.busyF = true) :
    busReadAt off 4 s =
      (⟨.ok, readWord s (Config.freeRead s.draws) (locate off)⟩, { s with draws := s.draws + 1 }) := by
  simp [busReadAt, accessOk_word h, hb]

/-- A read leaves the block as it was, but for the draw of a busy read (R65). -/
theorem busReadAt_state (off : Offset) (bytes : Nat) (s : State) :
    (busReadAt off bytes s).2 = s ∨
      s.busyF = true ∧ (busReadAt off bytes s).2 = { s with draws := s.draws + 1 } := by
  unfold busReadAt
  split
  · split
    · next h => exact .inr ⟨h, rfl⟩
    · exact .inl rfl
  · exact .inl rfl

/-- A location no running command writes reads the same, busy or not (R67). -/
theorem readWord_fixed {s : State} {free : Word} {l : Loc} (h : readUnfixed s l = 0#32) :
    readWord s free l = locWord s l := by
  simp only [readWord, h, BitVec.and_zero, BitVec.or_zero]
  rw [show ~~~0#32 = BitVec.allOnes 32 from rfl, BitVec.and_allOnes]

/-- While an illegal word runs no location is free (R104). -/
theorem readUnfixed_illegal {s : State} {w : Word} {e : Illegal} (l : Loc) (hp : s.pend = some w)
    (hd : decode w = .error e) : readUnfixed s l = 0#32 := by
  simp [readUnfixed, hp, hd]

theorem busWriteAt_word {off : Offset} (v : Word) (s : State) (h : off.extractLsb' 0 2 = 0#2) :
    busWriteAt off 4 v s = (⟨.ok, 0#32⟩, hostWrite v (locate off) s) := by
  simp [busWriteAt, accessOk_word h]

/-- A misaligned or narrow access has no effect (R63). -/
theorem busReadAt_error {off : Offset} {bytes : Nat} (s : State) (h : accessOk off bytes = false) :
    busReadAt off bytes s = (⟨.error, 0#32⟩, s) := by
  simp [busReadAt, h]

theorem busWriteAt_error {off : Offset} {bytes : Nat} (v : Word) (s : State) (h : accessOk off bytes = false) :
    busWriteAt off bytes v s = (⟨.error, 0#32⟩, s) := by
  simp [busWriteAt, h]

/-! ### The map -/

/-- Whether a location is a word of INBUF. -/
def isInbuf : Loc → Bool
  | .inbuf _ => true
  | _ => false

/-- Below the buffer windows no offset names a word of INBUF (R61). -/
theorem isInbuf_below {off : Offset} (h : off.toNat < 0x8000) : isInbuf (locate off) = false := by
  simp only [locate, registerAt, apply_ite isInbuf, h, if_true]
  simp [isInbuf]

/-- The two buffer windows fill the upper half of the map (R61). -/
theorem locate_buffer {off : Offset} (h : 0x8000 ≤ off.toNat) :
    locate off = if off.toNat < 0xC000 then .inbuf (off.toNat - 0x8000) else .outbuf (off.toNat - 0xC000) := by
  have hge : ∀ b, b ≤ 0x8000 → ¬ off.toNat < b := fun b hb => by omega
  simp [locate, hge]

/-- A word of the INBUF window lies within INBUF (R61, R68). -/
theorem locate_inbuf {off : Offset} {k : Nat} (h : off.extractLsb' 0 2 = 0#2) (hl : locate off = .inbuf k) :
    off.toNat = 0x8000 + k ∧ k % 4 = 0 ∧ k + 4 ≤ Config.bufBytes := by
  have h4 : off.toNat % 4 = 0 := by
    have := congrArg BitVec.toNat h
    simpa using this
  by_cases hlow : off.toNat < 0x8000
  · have hin := isInbuf_below hlow
    rw [hl] at hin
    cases hin
  rw [locate_buffer (by omega)] at hl
  split at hl
  · injection hl with hl
    simp only [Config.bufBytes]
    omega
  · cases hl

/-! ### Writes -/

/-- What a host access can make of the block `s`: everything but `rst` (R65, R66). -/
inductive HostEffect (s : State) : State → Prop where
  | unchanged : HostEffect s s
  | drawn : s.busyF = true → HostEffect s { s with draws := s.draws + 1 }
  | dropped : s.busyF = true → HostEffect s (overrun s)
  | irqEn (e : BitVec 3) : HostEffect s { s with irqEn := e }
  | irqStatus (bits : BitVec 3) : HostEffect s (clearIrq bits s)
  | accepted (w : Word) : s.busyF = false → HostEffect s (accept w s)
  | data (v : Word) : s.busyF = false → HostEffect s { s with data := v }
  | inLen (v : Word) : s.busyF = false → HostEffect s { s with inLen := v }
  | inbuf (k : Nat) (v : Word) : s.busyF = false → k + 4 ≤ Config.bufBytes →
      HostEffect s { s with inbuf := writeInbuf k v s.inbuf }

theorem busReadAt_effect (off : Offset) (bytes : Nat) (s : State) : HostEffect s (busReadAt off bytes s).2 := by
  rcases busReadAt_state off bytes s with h | ⟨hb, h⟩ <;> rw [h]
  · exact .unchanged
  · exact .drawn hb

theorem hostWrite_effect {off : Offset} (v : Word) (s : State) (h : off.extractLsb' 0 2 = 0#2) :
    HostEffect s (hostWrite v (locate off) s) := by
  have hin := fun k => locate_inbuf (off := off) (k := k) h
  unfold hostWrite
  generalize locate off = l at hin
  cases hb : s.busyF with
  | true => cases l <;> simp only [droppedWhileBusy, Bool.and_true, Bool.and_false, if_true, Bool.false_eq_true,
      if_false, writeLoc] <;> first | exact .unchanged | exact .dropped hb | exact .irqEn _ | exact .irqStatus _
  | false =>
    simp only [Bool.false_and, Bool.false_eq_true, if_false]
    cases l <;> simp only [writeLoc] <;>
      first
      | exact .unchanged | exact .irqEn _ | exact .irqStatus _ | exact .accepted _ hb | exact .data _ hb
      | exact .inLen _ hb | exact .inbuf _ _ hb (hin _ rfl).2.2

theorem busWriteAt_effect (off : Offset) (bytes : Nat) (v : Word) (s : State) :
    HostEffect s (busWriteAt off bytes v s).2 := by
  cases h : accessOk off bytes with
  | false => rw [busWriteAt_error v s h]; exact .unchanged
  | true =>
    obtain ⟨rfl, ha⟩ : bytes = 4 ∧ off.extractLsb' 0 2 = 0#2 := by simpa [accessOk] using h
    rw [busWriteAt_word v s ha]
    exact hostWrite_effect v s ha

/-! ### The INBUF window -/

/-- A word write to INBUF writes its four bytes and no other (R68). -/
theorem writeInbuf_get (free : Nat → Nat → Byte) (k : Nat) (v : Word) (m : Memory) (j : Nat) :
    (writeInbuf k v m).get free j =
      if k ≤ j ∧ j < k + 4 then byteOfWord v (j - k) else m.get free j := by
  unfold writeInbuf
  simp only [Table.get_put]
  by_cases h : k ≤ j ∧ j < k + 4
  · rw [if_pos h]
    obtain ⟨i, rfl⟩ : ∃ i, j = k + i := ⟨j - k, by omega⟩
    have hi : i < 4 := by omega
    match i, hi with
    | 0, _ => simp
    | 1, _ => simp
    | 2, _ => simp
    | 3, _ => simp
  · have hj : ∀ i, i < 4 → j ≠ k + i := fun i hi => by omega
    simp [h, hj, show j ≠ k from hj 0 (by omega)]

theorem writeInbuf_wf {k : Nat} (v : Word) {m : Memory} (hk : k + 4 ≤ Config.bufBytes) (h : Memory.wf m = true) :
    Memory.wf (writeInbuf k v m) = true := by
  unfold Memory.wf writeInbuf at *
  exact Table.wf_put _ (by omega) (Table.wf_put _ (by omega) (Table.wf_put _ (by omega)
    (Table.wf_put _ (by omega) h)))

@[simp] theorem writeInbuf_fill (k : Nat) (v : Word) (m : Memory) : (writeInbuf k v m).fill = m.fill := rfl

/-- Byte `i` of a word of four bytes (R68). -/
theorem byteOfWord_wordOfBytes (b0 b1 b2 b3 : Byte) :
    byteOfWord (wordOfBytes b0 b1 b2 b3) 0 = b0 ∧ byteOfWord (wordOfBytes b0 b1 b2 b3) 1 = b1 ∧
      byteOfWord (wordOfBytes b0 b1 b2 b3) 2 = b2 ∧ byteOfWord (wordOfBytes b0 b1 b2 b3) 3 = b3 := by
  refine ⟨?_, ?_, ?_, ?_⟩ <;> (ext i hi; simp [byteOfWord, wordOfBytes]; try grind)

end Sys2Proof.Machine
end

