-- ==== Sys2Proof/Laws/Ops.lean ====
section
/-! SUPPORT. What acceptance, completion and the failing completion do, once: the interrupt bits they set, and
everything a failing completion can leave. -/

namespace Sys2Proof.Machine

/-! ### Interrupt bits -/

theorem irqNext_set (old set : BitVec 3) : irqNext old set 0#3 = old ||| set := by
  revert old set; decide

theorem irqNext_clear (old clear : BitVec 3) : irqNext old 0#3 clear = old &&& ~~~clear := by
  revert old clear; decide

/-! ### Completion -/

theorem complete_eq_afterSuccess (s : State) : complete s = afterSuccess s := by
  simp [complete, afterSuccess, irqNext_set, irqDone]

theorem completeFailed_eq_afterFailure (f : Failure) (s : State) :
    completeFailed f s = afterFailure f.cause.resultCode f.info s := by
  simp [completeFailed, afterFailure, irqNext_set, irqDone, irqErr]

theorem resultCode_pos (c : Cause) : c.resultCode ≠ 0x00#8 := by cases c <;> decide

theorem resultCode_le (c : Cause) : c.resultCode.toNat ≤ 9 := by cases c <;> decide

/-- What a failing completion leaves of the fields that no failure effect touches, and the completion's own. -/
theorem raiseFailure_result (c : FailingCommand) (f : Failure) (s : State) :
    (raiseFailure c f s).result = f.cause.resultCode := rfl

theorem raiseFailure_not_success (c : FailingCommand) (f : Failure) (s : State) :
    (raiseFailure c f s).result ≠ 0x00#8 := resultCode_pos f.cause

/-- The four shapes of a failure's effects (R232), before the completion's own writes. -/
theorem failureEffects_cases (c : FailingCommand) (cause : Cause) (s : State) :
    (c = .build ∧ cause = .freqOverflow ∧ failureEffects c cause s = unfixNodes (dropTree s)) ∨
    (c = .build ∧ cause ≠ .freqOverflow ∧ failureEffects c cause s = dropTree s) ∨
    (c = .genc ∧ failureEffects c cause s = dropCodes s) ∨
    (c = .stream ∧ cause.unfixesOutbuf = true ∧ failureEffects c cause s = unfixOutbuf (dropOutput s)) ∨
    (c = .stream ∧ cause.unfixesOutbuf = false ∧ failureEffects c cause s = dropOutput s) ∨
    (c = .illegal ∧ failureEffects c cause s = s) := by
  cases c with
  | build => by_cases h : cause = .freqOverflow <;> simp [failureEffects, h]
  | genc => simp [failureEffects]
  | stream => cases h : cause.unfixesOutbuf <;> simp [failureEffects, h]
  | illegal => simp [failureEffects]

/-- A failing ENC or DEC, OUTBUF aside (R232). -/
theorem raiseFailure_stream (f : Failure) (s : State) :
    withOutbufOf s (raiseFailure .stream f s) = afterStreamFailure f.cause.resultCode f.info s := by
  cases h : f.cause.unfixesOutbuf <;>
    simp [raiseFailure, completeFailed_eq_afterFailure, failureEffects, dropOutput, afterFailure, afterStreamFailure, h,
      unfixOutbuf, withOutbufOf]

end Sys2Proof.Machine
end

