-- ==== Sys2Proof/Laws/Agents.lean ====
section
/-! SUPPORT. Everything a step can do (spec/00_scope.md R5, spec/20_memory.md R75): the engine's turn, the host's turn, and
what one host operation makes of the block. -/

namespace Sys2Proof.Machine

/-! ### One host operation -/

/-- `t` is `b` with the host's own fields at new values: its position, replies, verdict and the operations left before
the engine's step. -/
def HostMoves (b t : State) : Prop :=
  ∃ ops replies failed left,
    t = { b with hostOps := ops, hostReplies := replies, expectFailed := failed, latency := left }

theorem HostMoves.refl (s : State) : HostMoves s s := ⟨_, _, _, _, rfl⟩

theorem HostMoves.advance {b t : State} (h : HostMoves b t) : HostMoves b (advanceHost t) := by
  obtain ⟨_, _, _, _, rfl⟩ := h; exact ⟨_, _, _, _, rfl⟩

theorem HostMoves.take {b t : State} (r : BusReply) (h : HostMoves b t) : HostMoves b (takeReply r t) := by
  obtain ⟨_, _, _, _, rfl⟩ := h; exact ⟨_, _, _, _, rfl⟩

theorem HostMoves.note {b t : State} (r : BusReply) (v : Word) (h : HostMoves b t) :
    HostMoves b (noteExpect r v t) := by
  obtain ⟨_, _, _, _, rfl⟩ := h; exact ⟨_, _, _, _, rfl⟩

/-- A read access: at most a draw, then the reply. -/
theorem readAccess_effect (off : Offset) (bytes : Nat) (s : State) :
    ∃ b, HostEffect s b ∧ HostMoves b (readAccess off bytes s) :=
  ⟨_, busReadAt_effect off bytes s, (HostMoves.refl _).take _⟩

/-- A write access: one effect, then the reply. -/
theorem writeAccess_effect (off : Offset) (bytes : Nat) (v : Word) (s : State) :
    ∃ b, HostEffect s b ∧ HostMoves b (writeAccess off bytes v s) :=
  ⟨_, busWriteAt_effect off bytes v s, (HostMoves.refl _).take _⟩

theorem busReadAccess_in {addr : Nat} {off : Offset} (bytes : Nat) (s : State) (h : windowOffset addr = some off) :
    busReadAccess addr bytes s = readAccess off bytes s := by
  simp [busReadAccess, h]

theorem busWriteAccess_in {addr : Nat} {off : Offset} (bytes : Nat) (v : Word) (s : State)
    (h : windowOffset addr = some off) : busWriteAccess addr bytes v s = writeAccess off bytes v s := by
  simp [busWriteAccess, h]

/-- An access: one effect of R65 to R67 on the block, then the host's own fields. -/
theorem access_effect (op : HostOp) (s : State) (h1 : op ≠ .assertRst) (h2 : op ≠ .releaseRst) :
    ∃ b, HostEffect s b ∧ HostMoves b (performAccess op s) := by
  cases op with
  | wr off v =>
    obtain ⟨b, hb, hm⟩ := writeAccess_effect off 4 v s
    exact ⟨b, hb, hm.advance⟩
  | rd off =>
    obtain ⟨b, hb, hm⟩ := readAccess_effect off 4 s
    exact ⟨b, hb, hm.advance⟩
  | expect off v =>
    obtain ⟨b, hb, hm⟩ := readAccess_effect off 4 s
    exact ⟨b, hb, (hm.note _ v).advance⟩
  | wait =>
    obtain ⟨b, hb, hm⟩ := readAccess_effect statusOff 4 s
    refine ⟨b, hb, ?_⟩
    simp only [performAccess, pollStatus]
    split
    · exact hm.advance
    · exact hm
  | busRead addr bytes =>
    simp only [performAccess, busReadAccess]
    cases windowOffset addr with
    | some off =>
      obtain ⟨b, hb, hm⟩ := readAccess_effect off bytes s
      exact ⟨b, hb, hm.advance⟩
    | none => exact ⟨s, .unchanged, (HostMoves.refl s).advance⟩
  | busWrite addr bytes v =>
    simp only [performAccess, busWriteAccess]
    cases windowOffset addr with
    | some off =>
      obtain ⟨b, hb, hm⟩ := writeAccess_effect off bytes v s
      exact ⟨b, hb, hm.advance⟩
    | none => exact ⟨s, .unchanged, (HostMoves.refl s).advance⟩
  | assertRst => exact absurd rfl h1
  | releaseRst => exact absurd rfl h2

/-- The operations that access the window are those at its offsets and at its bus addresses (R60). -/
theorem accessesWindow_iff (op : HostOp) : accessesWindow op = true ↔ IsWindowAccess op := by
  have hw : ∀ addr, (windowOffset addr).isSome = true ↔
      Config.huffBase ≤ addr ∧ addr < Config.huffBase + 65536 := by
    intro addr
    unfold windowOffset Config.huffBase
    split
    · simp; omega
    · simp; omega
  cases op <;> simp [accessesWindow, IsWindowAccess, hw]

/-- An access outside the window does nothing to the block (R60). -/
theorem performAccess_outside {op : HostOp} {s : State} (h : accessesWindow op = false) (h1 : op ≠ .assertRst)
    (h2 : op ≠ .releaseRst) : performAccess op s = advanceHost s := by
  cases op <;> simp_all [accessesWindow]
  · simp [performAccess, busReadAccess, h]
  · simp [performAccess, busWriteAccess, h]

/-! ### One step -/

/-- At the engine's turn the step runs the pending word (R121). -/
theorem step_engine {s : State} (h : engineTurn s = true) : step s = engineStep s := by
  simp [step, stepAgents, h]

/-- At the host's turn the step performs its next operation. -/
theorem step_host {s : State} (h : engineTurn s = false) : step s = hostStep s := by
  simp [step, stepAgents, h]

theorem step_hostOp {s : State} {op : HostOp} {rest : List HostOp} (h : engineTurn s = false)
    (ho : s.hostOps = op :: rest) : step s = perform op { s with latency := s.latency - 1 } := by
  rw [step_host h, hostStep, ho]

/-- An access to the window while `rst` is asserted stops, and nothing else of the host does (R260, U12). -/
theorem perform_cases (op : HostOp) (s : State) :
    (s.rstAsserted = true ∧ IsWindowAccess op ∧ perform op s = .fault .accessDuringReset) ∨
      (¬ (s.rstAsserted = true ∧ IsWindowAccess op) ∧ perform op s = .next (performAccess op s)) := by
  rw [← accessesWindow_iff, perform]
  cases s.rstAsserted <;> cases accessesWindow op <;> simp

theorem engineTurn_idle {s : State} (h : s.busyF = false) : engineTurn s = false := by
  simp [engineTurn, h]

theorem engineTurn_waiting {s : State} {op : HostOp} {rest : List HostOp} (h : s.latency ≠ 0)
    (ho : s.hostOps = op :: rest) : engineTurn s = false := by
  simp [engineTurn, h, ho]

/-- A word write of the host to an idle block (R65). -/
theorem step_write_idle {s : State} {off : Offset} {v : Word} {rest : List HostOp} (h : off.extractLsb' 0 2 = 0#2)
    (hb : s.busyF = false) (hr : s.rstAsserted = false) (ho : s.hostOps = .wr off v :: rest) :
    step s = .next (advanceHost (takeReply ⟨.ok, 0#32⟩
      (writeLoc v (locate off) { s with latency := s.latency - 1 }))) := by
  rw [step_hostOp (engineTurn_idle hb) ho]
  simp [perform, hr, performAccess, writeAccess, busWriteAt_word _ _ h, hostWrite, hb]

/-- Everything a step that goes on can do. -/
theorem step_cases {s t : State} (h : step s = .next t) :
    (engineTurn s = true ∧ ∃ w, s.pend = some w ∧ runWord w s = .next t) ∨
    (engineTurn s = false ∧ s.hostOps = [] ∧ t = s) ∨
    (engineTurn s = false ∧ ∃ op rest, s.hostOps = op :: rest ∧
      (s.rstAsserted && accessesWindow op) = false ∧
      t = performAccess op { s with latency := s.latency - 1 }) := by
  cases he : engineTurn s with
  | true =>
    rw [step_engine he, engineStep] at h
    split at h
    · next w hw => exact .inl ⟨rfl, w, hw, h⟩
    · cases h
  | false =>
    cases ho : s.hostOps with
    | nil =>
      rw [step_host he, hostStep, ho] at h
      injection h with h
      exact .inr (.inl ⟨rfl, rfl, h.symm⟩)
    | cons op rest =>
      rw [step_hostOp he ho, perform] at h
      split at h
      · cases h
      · next hr =>
        injection h with h
        exact .inr (.inr ⟨rfl, op, rest, rfl, by simpa using hr, by rw [← h, ← ho]⟩)

/-- What the pending word's rule can be: a decoded command, or the failure of an illegal word (R121, R104). -/
theorem runWord_cases {w : Word} {s t : State} (h : runWord w s = .next t) :
    (∃ i, decode w = .ok i ∧ exec i s = .next t) ∨
    (∃ e, decode w = .error e ∧ t = raiseFailure .illegal ⟨.illegalCmd, w⟩ s) := by
  unfold runWord at h
  split at h
  · next i hi => exact .inl ⟨i, hi, h⟩
  · next e he => injection h with h; exact .inr ⟨e, he, h.symm⟩

end Sys2Proof.Machine
end

