-- ==== Sys2Proof/Laws/CodeGenerator.lean ====
section
/-! SUPPORT. What the tree traversal does (spec/43_code_generator.md): on a strict tree (R47) every leaf has exactly
one path from the root, the walk lists exactly these paths, and no path is a prefix of another. -/

namespace Sys2Proof.Machine

/-! ### Paths -/

/-- The child of node `k` on bit `b`. -/
def childOn (f : Nat → Node) (k : Nat) (b : Bool) : Nat := if b then (f k).right.toNat else (f k).left.toNat

/-- Following the bits `q` from node `k`, through internal nodes, arrives at node `i`. -/
inductive Leads (f : Nat → Node) : Nat → List Bool → Nat → Prop where
  | here (k : Nat) : Leads f k [] k
  | down {k i : Nat} {b : Bool} {q : List Bool} (hk : (f k).leaf = false) (h : Leads f (childOn f k b) q i) :
      Leads f k (b :: q) i

theorem Leads.nil_iff {f : Nat → Node} {k i : Nat} : Leads f k [] i ↔ i = k :=
  ⟨fun h => by cases h; rfl, fun h => by subst h; exact .here _⟩

theorem Leads.cons_iff {f : Nat → Node} {k i : Nat} {b : Bool} {q : List Bool} :
    Leads f k (b :: q) i ↔ (f k).leaf = false ∧ Leads f (childOn f k b) q i :=
  ⟨fun h => by cases h with | down hk h => exact ⟨hk, h⟩, fun h => .down h.1 h.2⟩

theorem Leads.append_iff {f : Nat → Node} {k j : Nat} {q r : List Bool} :
    Leads f k (q ++ r) j ↔ ∃ i, Leads f k q i ∧ Leads f i r j := by
  induction q generalizing k with
  | nil => simp [Leads.nil_iff]
  | cons b q ih => simp only [List.cons_append, Leads.cons_iff, ih]; grind

theorem Leads.snoc_iff {f : Nat → Node} {k j : Nat} {q : List Bool} {b : Bool} :
    Leads f k (q ++ [b]) j ↔ ∃ i, Leads f k q i ∧ (f i).leaf = false ∧ j = childOn f i b := by
  simp [Leads.append_iff, Leads.cons_iff, Leads.nil_iff]

/-- `leafAt` finds the leaf a path leads to. -/
theorem leafAt_eq_some {f : Nat → Node} {k : Nat} {q : List Bool} {sym : Symbol} :
    leafAt f k q = some sym ↔ ∃ i, Leads f k q i ∧ (f i).leaf = true ∧ (f i).sym = sym := by
  induction q generalizing k with
  | nil => simp [leafAt, Leads.nil_iff]
  | cons b q ih =>
    rw [leafAt]
    by_cases hk : (f k).leaf = true
    · simp [hk, Leads.cons_iff]
    · have hk' : (f k).leaf = false := by simpa using hk
      simp only [hk', Bool.false_eq_true, if_false, Leads.cons_iff, true_and]
      exact ih

/-- A path goes to one place only. -/
theorem Leads.unique {f : Nat → Node} {k i j : Nat} {q : List Bool} (h : Leads f k q i) (h' : Leads f k q j) :
    i = j := by
  induction q generalizing k with
  | nil => rw [Leads.nil_iff] at h h'; omega
  | cons b q ih => rw [Leads.cons_iff] at h h'; exact ih h.2 h'.2

/-- A path to a leaf goes no further. -/
theorem Leads.leaf_end {f : Nat → Node} {k i j : Nat} {q r : List Bool} (h : Leads f k q i)
    (hi : (f i).leaf = true) (h' : Leads f k (q ++ r) j) : r = [] := by
  obtain ⟨i', h1, h2⟩ := Leads.append_iff.1 h'
  obtain rfl := h.unique h1
  cases r with
  | nil => rfl
  | cons b r => rw [Leads.cons_iff] at h2; simp [hi] at h2

/-! ### The walk -/

/-- The walk with the leaves' indices for their symbols. -/
def walkIndex (f : Nat → Node) : Nat → Nat → List Bool → Option (List (Nat × List Bool))
  | 0, _, _ => none
  | fuel + 1, k, p =>
    if (f k).leaf then some [(k, p)]
    else
      match walkIndex f fuel (f k).left.toNat (p ++ [false]), walkIndex f fuel (f k).right.toNat (p ++ [true]) with
      | some l, some r => some (l ++ r)
      | _, _ => none

/-- The symbol and path of an indexed leaf. -/
def symbolOf (f : Nat → Node) (x : Nat × List Bool) : Coded := ((f x.1).sym, x.2)

theorem walk_eq_walkIndex (f : Nat → Node) (fuel k : Nat) (p : List Bool) :
    walk f fuel k p = (walkIndex f fuel k p).map (List.map (symbolOf f)) := by
  induction fuel generalizing k p with
  | zero => rfl
  | succ fuel ih =>
    rw [walk, walkIndex]
    by_cases hk : (f k).leaf = true
    · simp [hk, symbolOf]
    · simp only [hk, Bool.false_eq_true, if_false, ih]
      cases walkIndex f fuel (f k).left.toNat (p ++ [false]) <;>
        cases walkIndex f fuel (f k).right.toNat (p ++ [true]) <;> simp

/-- The walk lists exactly the leaves below `k`, each with its path. -/
theorem walkIndex_mem {f : Nat → Node} {fuel k : Nat} {p : List Bool} {es : List (Nat × List Bool)}
    (h : walkIndex f fuel k p = some es) (i : Nat) (r : List Bool) :
    (i, r) ∈ es ↔ ∃ q, r = p ++ q ∧ Leads f k q i ∧ (f i).leaf = true := by
  induction fuel generalizing k p es with
  | zero => simp [walkIndex] at h
  | succ fuel ih =>
    rw [walkIndex] at h
    by_cases hk : (f k).leaf = true
    · simp only [hk, if_true, Option.some.injEq] at h
      subst h
      simp only [List.mem_singleton, Prod.mk.injEq]
      constructor
      · rintro ⟨rfl, rfl⟩; exact ⟨[], by simp, .here _, hk⟩
      · rintro ⟨q, rfl, hl, _⟩
        have hq : q = [] := Leads.leaf_end (.here k) hk (by simpa using hl)
        subst hq
        rw [Leads.nil_iff] at hl
        simp [hl]
    · have hk' : (f k).leaf = false := by simpa using hk
      simp only [hk, Bool.false_eq_true, if_false] at h
      cases hl : walkIndex f fuel (f k).left.toNat (p ++ [false]) with
      | none => simp [hl] at h
      | some l =>
        cases hr : walkIndex f fuel (f k).right.toNat (p ++ [true]) with
        | none => simp [hl, hr] at h
        | some r' =>
          simp only [hl, hr, Option.some.injEq] at h
          subst h
          rw [List.mem_append, ih hl, ih hr]
          constructor
          · rintro (⟨q, rfl, h1, h2⟩ | ⟨q, rfl, h1, h2⟩)
            · exact ⟨false :: q, by simp, .down hk' (by simpa [childOn] using h1), h2⟩
            · exact ⟨true :: q, by simp, .down hk' (by simpa [childOn] using h1), h2⟩
          · rintro ⟨q, rfl, h1, h2⟩
            cases q with
            | nil => rw [Leads.nil_iff] at h1; subst h1; simp [hk'] at h2
            | cons b q =>
              rw [Leads.cons_iff] at h1
              cases b
              · exact .inl ⟨q, by simp, by simpa [childOn] using h1.2, h2⟩
              · exact .inr ⟨q, by simp, by simpa [childOn] using h1.2, h2⟩

/-- No path of the walk is a prefix of another of its entries. -/
theorem walkIndex_prefix_free {f : Nat → Node} {fuel k : Nat} {p : List Bool} {es : List (Nat × List Bool)}
    (h : walkIndex f fuel k p = some es) :
    es.Pairwise (fun c d => ¬ c.2 <+: d.2 ∧ ¬ d.2 <+: c.2) := by
  induction fuel generalizing k p es with
  | zero => simp [walkIndex] at h
  | succ fuel ih =>
    rw [walkIndex] at h
    by_cases hk : (f k).leaf = true
    · simp only [hk, if_true, Option.some.injEq] at h
      subst h; simp
    · simp only [hk, Bool.false_eq_true, if_false] at h
      cases hl : walkIndex f fuel (f k).left.toNat (p ++ [false]) with
      | none => simp [hl] at h
      | some l =>
        cases hr : walkIndex f fuel (f k).right.toNat (p ++ [true]) with
        | none => simp [hl, hr] at h
        | some r' =>
          simp only [hl, hr, Option.some.injEq] at h
          subst h
          rw [List.pairwise_append]
          refine ⟨ih hl, ih hr, ?_⟩
          rintro ⟨i, c⟩ hc ⟨j, d⟩ hd
          obtain ⟨q, rfl, -, -⟩ := (walkIndex_mem hl i c).1 hc
          obtain ⟨q', rfl, -, -⟩ := (walkIndex_mem hr j d).1 hd
          simp [List.append_assoc, List.prefix_append_right_inj]

/-- The lengths of the walk's paths have the Kraft sum of its start. -/
theorem walkIndex_kraft {f : Nat → Node} {fuel k : Nat} {p : List Bool} {es : List (Nat × List Bool)}
    (h : walkIndex f fuel k p = some es) :
    (es.map (fun c => (1 / 2 : ℚ) ^ c.2.length)).sum = (1 / 2) ^ p.length := by
  induction fuel generalizing k p es with
  | zero => simp [walkIndex] at h
  | succ fuel ih =>
    rw [walkIndex] at h
    by_cases hk : (f k).leaf = true
    · simp only [hk, if_true, Option.some.injEq] at h
      subst h; simp
    · simp only [hk, Bool.false_eq_true, if_false] at h
      cases hl : walkIndex f fuel (f k).left.toNat (p ++ [false]) with
      | none => simp [hl] at h
      | some l =>
        cases hr : walkIndex f fuel (f k).right.toNat (p ++ [true]) with
        | none => simp [hl, hr] at h
        | some r' =>
          simp only [hl, hr, Option.some.injEq] at h
          subst h
          rw [List.map_append, List.sum_append, ih hl, ih hr]
          simp only [List.length_append, List.length_singleton, pow_succ]
          ring

/-! ### A strict tree (R47) -/

section
variable {s : State} (T : TreeOk s)
include T

theorem TreeOk.leaf_iff {k : Nat} (hk : k < 2 * s.nleaf.toNat - 1) :
    (s.nodeAt k).leaf = true ↔ k < s.nleaf.toNat := by
  by_cases h : k < s.nleaf.toNat
  · simp [h, (T.leaf_shape k h).1]
  · simp [h, (T.internal_shape k hk (by omega)).1]

theorem TreeOk.child_lt {k : Nat} (hk : k < 2 * s.nleaf.toNat - 1) (hl : (s.nodeAt k).leaf = false) (b : Bool) :
    childOn s.nodeAt k b < k := by
  have hn : s.nleaf.toNat ≤ k := by
    by_contra h
    have := (T.leaf_shape k (by omega)).1
    simp [hl] at this
  have := T.internal_children k hk hn
  cases b <;> simp [childOn, this.1, this.2.1]

theorem TreeOk.internal_of {k : Nat} (_hk : k < 2 * s.nleaf.toNat - 1) (hl : (s.nodeAt k).leaf = false) :
    s.nleaf.toNat ≤ k := by
  by_contra h
  have := (T.leaf_shape k (by omega)).1
  simp [hl] at this

/-- A path from a node of the tree stays in the tree, goes down, and is no longer than the internal nodes it
can pass. -/
theorem TreeOk.leads_bound {k i : Nat} {q : List Bool} (hk : k < 2 * s.nleaf.toNat - 1)
    (h : Leads s.nodeAt k q i) :
    i ≤ k ∧ q.length + i ≤ k ∧ q.length ≤ k + 1 - s.nleaf.toNat := by
  induction h with
  | here k => simp
  | @down k i b q hl h ih =>
    have h1 := T.child_lt hk hl b
    have h2 := T.internal_of hk hl
    have h3 := ih (by omega)
    simp only [List.length_cons]
    omega

theorem TreeOk.root_lt : s.root.toNat < 2 * s.nleaf.toNat - 1 := by
  have := T.leaf_count; have := T.root_index; omega

/-- A node is a child of an internal node exactly when the list of its parents says so. -/
theorem TreeOk.parent_of_child {j i : Nat} {b : Bool} (hi : i < 2 * s.nleaf.toNat - 1)
    (hl : (s.nodeAt i).leaf = false) (h : j = childOn s.nodeAt i b) :
    i ∈ parents s.nodeAt s.nleaf.toNat (2 * s.nleaf.toNat - 1) j := by
  have h2 := T.internal_of hi hl
  subst h
  cases b <;> simp [parents, childOf, childOn, hi, h2]

/-- Every node of the tree has a path from the root. -/
theorem TreeOk.exists_path {j : Nat} (hj : j < 2 * s.nleaf.toNat - 1) :
    ∃ q, Leads s.nodeAt s.root.toNat q j := by
  by_cases h : j = s.root.toNat
  · exact ⟨[], h ▸ .here _⟩
  · have hr := T.root_index
    have h1 := T.one_parent j (by omega)
    obtain ⟨i, hi⟩ := List.length_eq_one_iff.1 h1
    have him : i ∈ parents s.nodeAt s.nleaf.toNat (2 * s.nleaf.toNat - 1) j := by rw [hi]; simp
    unfold parents at him
    rw [List.mem_filter, List.mem_range] at him
    obtain ⟨hi1, hi2⟩ := him
    simp only [Bool.and_eq_true, decide_eq_true_eq, childOf, Bool.or_eq_true, beq_iff_eq] at hi2
    have hil := (T.internal_shape i hi1 hi2.1).1
    have hic := T.internal_children i hi1 hi2.1
    have hlt : j < i := by omega
    obtain ⟨q, hq⟩ := TreeOk.exists_path hi1
    rcases hi2.2 with e | e
    · exact ⟨q ++ [false], Leads.snoc_iff.2 ⟨i, hq, hil, by simp [childOn, e]⟩⟩
    · exact ⟨q ++ [true], Leads.snoc_iff.2 ⟨i, hq, hil, by simp [childOn, e]⟩⟩
  termination_by 2 * s.nleaf.toNat - 1 - j

/-- A node of the tree has one path from the root. -/
theorem TreeOk.path_unique {j : Nat} {q r : List Bool} (_hj : j < 2 * s.nleaf.toNat - 1)
    (hq : Leads s.nodeAt s.root.toNat q j) (hr : Leads s.nodeAt s.root.toNat r j) : q = r := by
  have hroot := T.root_lt
  rcases List.eq_nil_or_concat q with rfl | ⟨q', b, rfl⟩
  · rw [Leads.nil_iff] at hq
    have := T.leads_bound hroot hr
    have : r.length = 0 := by omega
    exact (List.length_eq_zero_iff.1 this).symm
  · rcases List.eq_nil_or_concat r with rfl | ⟨r', c, rfl⟩
    · rw [Leads.nil_iff] at hr
      have := T.leads_bound hroot hq
      simp at this; omega
    · rw [List.concat_eq_append] at *
      rw [Leads.snoc_iff] at hq hr
      obtain ⟨i, hi, hil, hij⟩ := hq
      obtain ⟨i', hi', hil', hij'⟩ := hr
      have hib := T.leads_bound hroot hi
      have hib' := T.leads_bound hroot hi'
      have hit : i < 2 * s.nleaf.toNat - 1 := by omega
      have hit' : i' < 2 * s.nleaf.toNat - 1 := by omega
      have hc := T.child_lt hit hil b
      have hm := T.parent_of_child hit hil hij
      have hm' := T.parent_of_child hit' hil' hij'
      have hri := T.root_index
      obtain ⟨x, hx⟩ := List.length_eq_one_iff.1 (T.one_parent j (by omega))
      rw [hx, List.mem_singleton] at hm hm'
      have hii : i' = i := by omega
      subst hii
      have hlt : j < i' := by omega
      have hqr : q' = r' := TreeOk.path_unique hit hi hi'
      have hne := (T.internal_children i' hit (T.internal_of hit hil)).2.2
      have hbc : b = c := by
        by_contra hbc
        apply hne
        apply BitVec.eq_of_toNat_eq
        cases b <;> cases c <;> simp_all [childOn]
      simp [hqr, hbc]
  termination_by 2 * s.nleaf.toNat - 1 - j

/-- The walk from a node of the tree ends within its fuel (R176). -/
theorem TreeOk.walk_some {fuel k : Nat} (p : List Bool) (hk : k < 2 * s.nleaf.toNat - 1)
    (hpos : 1 ≤ fuel) (hfuel : k + 1 < fuel + s.nleaf.toNat) :
    ∃ es, walkIndex s.nodeAt fuel k p = some es := by
  induction fuel generalizing k p with
  | zero => omega
  | succ fuel ih =>
    rw [walkIndex]
    by_cases hl : (s.nodeAt k).leaf = true
    · exact ⟨_, by rw [if_pos hl]⟩
    · have hl' : (s.nodeAt k).leaf = false := by simpa using hl
      have hn := T.internal_of hk hl'
      have hc := T.internal_children k hk hn
      have hnl := T.leaf_count
      obtain ⟨l, hL⟩ := ih (k := (s.nodeAt k).left.toNat) (p ++ [false]) (by omega) (by omega) (by omega)
      obtain ⟨r, hR⟩ := ih (k := (s.nodeAt k).right.toNat) (p ++ [true]) (by omega) (by omega) (by omega)
      exact ⟨l ++ r, by simp [hl, hL, hR]⟩

end

/-! ### The table (R170 to R174) -/

theorem codeFor_some {codes : List Coded} {a : Nat} {p : List Bool} (h : codeFor codes a = some p) :
    ∃ sym : Symbol, (sym, p) ∈ codes ∧ sym.toNat = a := by
  unfold codeFor at h
  cases hf : codes.reverse.find? (fun c => c.1.toNat == a) with
  | none => simp [hf] at h
  | some c =>
    simp only [hf, Option.map_some, Option.some.injEq] at h
    have h1 := List.find?_some hf
    have h2 := List.mem_of_find?_eq_some hf
    exact ⟨c.1, by rw [← h]; simpa using h2, by simpa using h1⟩

theorem codeFor_none {codes : List Coded} {a : Nat} :
    codeFor codes a = none ↔ ∀ c ∈ codes, c.1.toNat ≠ a := by
  unfold codeFor
  simp [Option.map_eq_none_iff, List.find?_eq_none]

/-- `p` is the code of leaf `k`: its path from the root, or "0" in a single-leaf tree (R171, R172). -/
def IsCode (s : State) (k : Nat) (p : List Bool) : Prop :=
  if s.nleaf.toNat = 1 then p = [false] else Leads s.nodeAt s.root.toNat p k

theorem TreeOk.sym_inj {s : State} (T : TreeOk s) {j k : Nat} (hj : j < s.nleaf.toNat) (hk : k < s.nleaf.toNat)
    (h : (s.nodeAt j).sym.toNat = (s.nodeAt k).sym.toNat) : j = k := by
  rcases Nat.lt_trichotomy j k with h1 | h1 | h1
  · have := T.leaf_order k hk j h1; omega
  · exact h1
  · have := T.leaf_order j hj k h1; omega

/-- On a strict tree the traversal ends, every leaf's symbol has its leaf's code and no other symbol has one. -/
theorem TreeOk.treeCodes_spec {s : State} (T : TreeOk s) :
    ∃ codes, treeCodes s.nodeAt s.root.toNat = some codes ∧
      (∀ k, k < s.nleaf.toNat → ∃ p, codeFor codes (s.nodeAt k).sym.toNat = some p ∧ IsCode s k p) ∧
      (∀ a, (∀ k, k < s.nleaf.toNat → (s.nodeAt k).sym.toNat ≠ a) → codeFor codes a = none) := by
  have hr := T.root_index
  have hc := T.leaf_count
  have hrl := T.root_lt
  by_cases h1 : s.nleaf.toNat = 1
  · have hroot : s.root.toNat = 0 := by omega
    have hl := (T.leaf_shape 0 (by omega)).1
    refine ⟨[((s.nodeAt 0).sym, [false])], by simp [treeCodes, hroot, hl], ?_, ?_⟩
    · intro k hk
      obtain rfl : k = 0 := by omega
      exact ⟨[false], by simp [codeFor], by simp [IsCode, h1]⟩
    · intro a ha
      rw [codeFor_none]; simpa using ha 0 (by omega)
  · have hl := (T.internal_shape _ hrl (by omega)).1
    obtain ⟨es, he⟩ := T.walk_some (fuel := Config.nodeMax) [] hrl (by decide) (by simp [Config.nodeMax]; omega)
    have hmem : ∀ sym p, (sym, p) ∈ es.map (symbolOf s.nodeAt) ↔
        ∃ i, i < s.nleaf.toNat ∧ (s.nodeAt i).sym = sym ∧ Leads s.nodeAt s.root.toNat p i := by
      intro sym p
      rw [List.mem_map]
      constructor
      · rintro ⟨⟨i, r⟩, hm, he'⟩
        obtain ⟨q, rfl, hq, hql⟩ := (walkIndex_mem he i r).1 hm
        simp only [symbolOf, Prod.mk.injEq] at he'
        have hb := T.leads_bound hrl hq
        exact ⟨i, (T.leaf_iff (by omega)).1 hql, he'.1, he'.2 ▸ hq⟩
      · rintro ⟨i, hi, rfl, hq⟩
        exact ⟨(i, p), (walkIndex_mem he i p).2 ⟨p, rfl, hq, (T.leaf_shape i hi).1⟩, rfl⟩
    refine ⟨es.map (symbolOf s.nodeAt), by simp [treeCodes, hl, walk_eq_walkIndex, he], ?_, ?_⟩
    · intro k hk
      cases hcf : codeFor (es.map (symbolOf s.nodeAt)) (s.nodeAt k).sym.toNat with
      | none =>
        rw [codeFor_none] at hcf
        obtain ⟨q, hq⟩ := T.exists_path (j := k) (by omega)
        exact absurd rfl (hcf ((s.nodeAt k).sym, q) ((hmem _ _).2 ⟨k, hk, rfl, hq⟩))
      | some p =>
        obtain ⟨sym, hm, hs⟩ := codeFor_some hcf
        obtain ⟨i, hi, rfl, hq⟩ := (hmem _ _).1 hm
        obtain rfl := T.sym_inj hi hk hs
        exact ⟨p, rfl, by simp [IsCode, h1, hq]⟩
    · intro a ha
      rw [codeFor_none]
      rintro ⟨sym, p⟩ hm
      obtain ⟨i, hi, rfl, -⟩ := (hmem _ _).1 hm
      exact ha i hi

/-- A code has at least one bit and at most n - 1 (R175, R176). -/
theorem IsCode.length {s : State} (T : TreeOk s) {k : Nat} {p : List Bool} (hk : k < s.nleaf.toNat)
    (h : IsCode s k p) :
    1 ≤ p.length ∧ p.length ≤ 255 ∧ (2 ≤ s.nleaf.toNat → p.length ≤ s.nleaf.toNat - 1) := by
  have hc := T.leaf_count
  have hr := T.root_index
  unfold IsCode at h
  split at h
  · subst h; simp; omega
  · have hb := T.leads_bound T.root_lt h
    refine ⟨?_, by omega, by omega⟩
    rcases p with _ | ⟨b, p⟩
    · rw [Leads.nil_iff] at h; omega
    · simp

theorem IsCode.not_prefix {s : State} (T : TreeOk s) {j k : Nat} {p q : List Bool} (hj : j < s.nleaf.toNat)
    (hk : k < s.nleaf.toNat) (hjk : j ≠ k) (hp : IsCode s j p) (hq : IsCode s k q) : ¬ p <+: q := by
  have h1 : s.nleaf.toNat ≠ 1 := by omega
  simp only [IsCode, h1, if_false] at hp hq
  rintro ⟨r, rfl⟩
  have hr := hp.leaf_end (T.leaf_shape j hj).1 hq
  subst hr
  rw [List.append_nil] at hq
  exact hjk (hp.unique hq)

/-- The greatest length is an upper bound and is reached (R33). -/
theorem maxLength_spec (ls : List (BitVec 9)) (h : ls ≠ []) :
    (∀ l ∈ ls, l.toNat ≤ (maxLength ls).toNat) ∧ ∃ l ∈ ls, l.toNat = (maxLength ls).toNat := by
  have key : ∀ (ls : List (BitVec 9)) (m : BitVec 9),
      (∀ l ∈ m :: ls, l.toNat ≤ (ls.foldl (fun m l => if m < l then l else m) m).toNat) ∧
        ∃ l ∈ m :: ls, l.toNat = (ls.foldl (fun m l => if m < l then l else m) m).toNat := by
    intro ls
    induction ls with
    | nil => intro m; simp
    | cons x xs ih =>
      intro m
      rw [List.foldl_cons]
      obtain ⟨h1, h2⟩ := ih (if m < x then x else m)
      have hm : ∀ l, l = m ∨ l = x → l.toNat ≤ (if m < x then x else m).toNat := by
        rintro l (rfl | rfl) <;> split <;> (simp_all [BitVec.lt_def]; try omega)
      have hh := h1 _ List.mem_cons_self
      refine ⟨?_, ?_⟩
      · intro l hl
        rcases List.mem_cons.1 hl with rfl | hl
        · exact Nat.le_trans (hm _ (.inl rfl)) hh
        · rcases List.mem_cons.1 hl with rfl | hl
          · exact Nat.le_trans (hm _ (.inr rfl)) hh
          · exact h1 l (List.mem_cons_of_mem _ hl)
      · obtain ⟨l, hl, he⟩ := h2
        rcases List.mem_cons.1 hl with rfl | hl
        · refine ⟨_, ?_, he⟩; split <;> simp
        · exact ⟨l, by simp [hl], he⟩
  obtain ⟨h1, l, hl, he⟩ := key ls 0#9
  refine ⟨fun l hl => h1 l (by simp [hl]), ?_⟩
  rcases List.mem_cons.1 hl with rfl | hl
  · obtain ⟨x, xs, rfl⟩ := List.exists_cons_of_ne_nil h
    refine ⟨x, by simp, ?_⟩
    have := h1 x (by simp)
    have e : (maxLength (x :: xs)).toNat = 0 := by rw [maxLength, ← he]; rfl
    rw [e]; unfold maxLength at e; omega
  · exact ⟨l, hl, he⟩

/-- The table GENC commits, read back. -/
theorem commitCodes_tables (codes : List Coded) (s : State) (a : Nat) (ha : a < 256) :
    (commitCodes codes s).clenAt a = lengthFor codes a ∧ (commitCodes codes s).codeAt a = bitsFor codes a := by
  constructor
  · change Table.get _ (s.clen.putFirst (lengthTable codes)) a = _
    have hl : a < (lengthTable codes).length := by
      rw [lengthTable, List.length_map, List.length_range]; exact ha
    rw [Table.get_putFirst_lt _ _ _ hl]
    simp only [lengthTable, List.getElem_map, List.getElem_range]
  · change Table.get _ (s.code.putFirst (bitsTable codes)) a = _
    have hl : a < (bitsTable codes).length := by
      rw [bitsTable, List.length_map, List.length_range]; exact ha
    rw [Table.get_putFirst_lt _ _ _ hl]
    simp only [bitsTable, List.getElem_map, List.getElem_range]

/-- The greatest of the lengths in the table GENC commits. -/
theorem commitCodes_maxLen (codes : List Coded) (s : State) :
    (∀ a, a < 256 → ((commitCodes codes s).clenAt a).toNat ≤ (commitCodes codes s).codeMaxLen.toNat) ∧
      ∃ a, a < 256 ∧ ((commitCodes codes s).clenAt a).toNat = (commitCodes codes s).codeMaxLen.toNat := by
  have hlen : (lengthTable codes).length = Config.nsym := by
    rw [lengthTable, List.length_map, List.length_range]
  have hne : lengthTable codes ≠ [] := by
    intro h
    rw [h] at hlen
    exact absurd hlen (by decide)
  have hmem : ∀ l, l ∈ lengthTable codes ↔ ∃ a, a < 256 ∧ lengthFor codes a = l := by
    intro l
    rw [lengthTable, List.mem_map]
    simp only [List.mem_range, Config.nsym]
  have hmax : (commitCodes codes s).codeMaxLen = maxLength (lengthTable codes) := by rw [commitCodes]
  have hlen := fun a ha => (commitCodes_tables codes s a ha).1
  generalize lengthTable codes = ls at hne hmem hmax
  obtain ⟨h1, l, hl, he⟩ := maxLength_spec ls hne
  rw [hmax]
  constructor
  · intro a ha
    rw [hlen a ha]
    exact h1 _ ((hmem _).2 ⟨a, ha, rfl⟩)
  · obtain ⟨a, ha, rfl⟩ := (hmem _).1 hl
    exact ⟨a, ha, by rw [hlen a ha]; exact he⟩

/-- A symbol with the code `p` reads back `p`. -/
theorem codeString_commitCodes {codes : List Coded} (s : State) {a : Nat} {p : List Bool} (ha : a < 256)
    (hp : codeFor codes a = some p) (hl : p.length ≤ 255) :
    codeString (commitCodes codes s) a = p ∧ ((commitCodes codes s).clenAt a).toNat = p.length := by
  obtain ⟨h1, h2⟩ := commitCodes_tables codes s a ha
  have e : ((commitCodes codes s).clenAt a).toNat = p.length := by
    rw [h1]; simp only [lengthFor, hp, BitVec.toNat_ofNat]; omega
  refine ⟨?_, e⟩
  unfold codeString
  rw [e, h2]; simp only [bitsFor, hp]
  exact codePrefix_codeOfBits p (by omega)

/-- GENC on a strict tree: its next state, the code of every leaf, and no code for any other symbol (R170). -/
theorem genc_spec {s : State} (hv : s.treeValid = true) (T : TreeOk s) :
    ∃ codes, execGenc s = .next (complete (commitCodes codes s)) ∧
      treeCodes s.nodeAt s.root.toNat = some codes ∧
      (∀ k, k < s.nleaf.toNat → ∃ p, IsCode s k p ∧ codeFor codes (s.nodeAt k).sym.toNat = some p ∧
        codeString (commitCodes codes s) (s.nodeAt k).sym.toNat = p ∧
        ((commitCodes codes s).clenAt (s.nodeAt k).sym.toNat).toNat = p.length) ∧
      (∀ a, (∀ k, k < s.nleaf.toNat → (s.nodeAt k).sym.toNat ≠ a) → codeFor codes a = none) := by
  obtain ⟨codes, hc, h1, h2⟩ := T.treeCodes_spec
  refine ⟨codes, by simp only [execGenc, hv, if_true, hc], hc, ?_, h2⟩
  intro k hk
  obtain ⟨p, hp, hi⟩ := h1 k hk
  obtain ⟨c1, c2⟩ := codeString_commitCodes s (s.nodeAt k).sym.isLt hp (hi.length T hk).2.1
  exact ⟨p, hi, hp, c1, c2⟩

end Sys2Proof.Machine
end

