-- ==== Sys2Proof/Laws/Decode.lean ====
section
/-! SUPPORT. The fields of a command word (spec/30_encoding.md R101): a word is its three fields, and the fields of an
assembled word are what it was assembled from. -/

namespace Sys2Proof

/-- A word is the concatenation of its fields. -/
theorem word_eq_fields (w : Word) : w = opField w ++ rsvField w ++ argField w := by
  apply BitVec.eq_of_getLsbD_eq
  intro i hi
  change w.getLsbD i = (BitVec.extractLsb' 24 8 w ++ BitVec.extractLsb' 8 16 w ++ BitVec.extractLsb' 0 8 w).getLsbD i
  simp only [BitVec.getLsbD_append, BitVec.getLsbD_extractLsb']
  split
  · next h => simp [h]
  · split
    · next h1 h2 => simp [h2, show 8 + (i - 8) = i by omega]
    · next h1 h2 => simp [show i - 8 - 16 < 8 by omega, show 24 + (i - 8 - 16) = i by omega]

@[simp] theorem opField_commandWord (op arg : BitVec 8) : opField (commandWord op arg) = op := by
  ext i hi
  simp only [opField, commandWord, BitVec.getElem_extractLsb', BitVec.getLsbD_append]
  rw [if_neg (by omega), if_neg (by omega), show 24 + i - 8 - 16 = i by omega, BitVec.getLsbD_eq_getElem]

@[simp] theorem rsvField_commandWord (op arg : BitVec 8) : rsvField (commandWord op arg) = 0#16 := by
  ext i hi
  simp only [rsvField, commandWord, BitVec.getElem_extractLsb', BitVec.getLsbD_append]
  rw [if_neg (by omega), if_pos (by omega)]
  simp

@[simp] theorem argField_commandWord (op arg : BitVec 8) : argField (commandWord op arg) = arg := by
  ext i hi
  simp only [argField, commandWord, BitVec.getElem_extractLsb', BitVec.getLsbD_append]
  rw [if_pos (by omega), Nat.zero_add, BitVec.getLsbD_eq_getElem]

/-- The word of an opcode and an argument, when RSV is 0. -/
theorem word_eq_commandWord {w : Word} (h : rsvField w = 0#16) : w = commandWord (opField w) (argField w) := by
  conv => lhs; rw [word_eq_fields w, h]
  rfl

theorem withoutArg_ok {op arg : BitVec 8} {i j : Instr} : withoutArg op arg i = .ok j ↔ arg = 0#8 ∧ j = i := by
  unfold withoutArg
  split
  · next h => simp [h, eq_comm]
  · next h => simp [h]

theorem withMode_ok {op arg : BitVec 8} {f : Mode → Instr} {j : Instr} :
    withMode op arg f = .ok j ↔ arg.extractLsb' 1 7 = 0#7 ∧ j = f (modeOfArg arg) := by
  unfold withMode
  split
  · next h => simp [h, eq_comm]
  · next h => simp [h]

/-- ARG of a mode command is the ARG its mode assembles to (R102). -/
theorem argOfMode_modeOfArg (arg : BitVec 8) (h : arg.extractLsb' 1 7 = 0#7) : argOfMode (modeOfArg arg) = arg := by
  revert arg; decide

end Sys2Proof
end

