-- ==== Sys2Proof/Laws/Decoder.lean ====
section
/-! SUPPORT. What the decoder's loop does (spec/45_decoder.md R210 to R215): one bit, a path through internal nodes, a
whole path to a leaf, and the number of symbols it can answer. -/

namespace Sys2Proof.Machine

/-- One bit on a single-leaf tree (R213). -/
theorem decodeBit_single {s : State} (h : (s.nodeAt s.root.toNat).leaf = true) (j : Nat) (b : Bool) (c : Cursor) :
    decodeBit s j b c =
      if c.count = Config.bufBytes then .error ⟨.outOverflow, BitVec.ofNat 32 j⟩
      else .ok (⟨s.root.toNat, c.start, c.count + 1⟩, some (s.nodeAt s.root.toNat).sym) := by
  simp [decodeBit, h]

/-- One bit on a larger tree: a missing child, a leaf reached, or a deeper node (R210). -/
theorem decodeBit_walk {s : State} (h : (s.nodeAt s.root.toNat).leaf = false) (j : Nat) (b : Bool) (c : Cursor) :
    decodeBit s j b c =
      if s.nnode.toNat ≤ childOn s.nodeAt c.node b then .error ⟨.malformedInput, taggedInfo 0x03#8 j⟩
      else if (s.nodeAt (childOn s.nodeAt c.node b)).leaf then
        if c.count = Config.bufBytes then .error ⟨.outOverflow, BitVec.ofNat 32 j⟩
        else .ok (⟨s.root.toNat, if c.node = s.root.toNat then j else c.start, c.count + 1⟩,
          some (s.nodeAt (childOn s.nodeAt c.node b)).sym)
      else .ok (⟨childOn s.nodeAt c.node b, if c.node = s.root.toNat then j else c.start, c.count⟩, none) := by
  cases b <;> simp [decodeBit, h, childOn]

/-- Every cursor a bit leads to has room for its count, and a symbol counts one. -/
theorem decodeBit_count {s : State} {j : Nat} {b : Bool} {c c' : Cursor} {sym : Option Symbol}
    (h : decodeBit s j b c = .ok (c', sym)) (hc : c.count ≤ Config.bufBytes) :
    c'.count ≤ Config.bufBytes ∧ c'.count = c.count + sym.toList.length := by
  cases hl : (s.nodeAt s.root.toNat).leaf with
  | true =>
    rw [decodeBit_single hl] at h
    split at h
    · cases h
    · cases h; simp; omega
  | false =>
    rw [decodeBit_walk hl] at h
    split at h
    · cases h
    · split at h
      · split at h
        · cases h
        · cases h; simp; omega
      · cases h; simp [hc]

/-- The decoder answers at most BUF_BYTES symbols (R215). -/
theorem decodeFrom_length {s : State} {m : Mode} {remaining j : Nat} {c : Cursor} {syms : List Symbol}
    (h : decodeFrom s m remaining j c = .ok syms) (hc : c.count ≤ Config.bufBytes) :
    c.count + syms.length ≤ Config.bufBytes := by
  induction remaining generalizing j c syms with
  | zero =>
    rw [decodeFrom] at h
    split at h
    · cases h; simpa using hc
    · cases h
  | succ remaining ih =>
    rw [decodeFrom] at h
    cases hb : streamBit m s.inByte j with
    | none => simp [hb] at h
    | some b =>
      simp only [hb] at h
      cases hd : decodeBit s j b c with
      | error f => simp [hd] at h
      | ok r =>
        obtain ⟨c', sym⟩ := r
        simp only [hd] at h
        cases hr : decodeFrom s m remaining (j + 1) c' with
        | error f => simp [hr] at h
        | ok rest =>
          simp only [hr, Except.ok.injEq] at h
          subst h
          have h1 := decodeBit_count hd hc
          have h2 := ih hr h1.1
          simp only [List.length_append]
          omega

section
variable {s : State} (T : TreeOk s) (hn : 2 ≤ s.nleaf.toNat)
include T hn

theorem TreeOk.root_internal : (s.nodeAt s.root.toNat).leaf = false := by
  have h := T.root_index
  exact (T.internal_shape _ T.root_lt (by omega)).1

/-- A path from a node of the tree to an internal node moves the cursor and answers nothing. -/
theorem TreeOk.decode_inside {m : Mode} {k i : Nat} {q : List Bool} (rem : Nat) {j start count : Nat}
    (hk : k < 2 * s.nleaf.toNat - 1) (h : Leads s.nodeAt k q i) (hi : (s.nodeAt i).leaf = false)
    (hb : ∀ x (hx : x < q.length), streamBit m s.inByte (j + x) = some q[x]) :
    decodeFrom s m (q.length + rem) j ⟨k, start, count⟩ =
      decodeFrom s m rem (j + q.length)
        ⟨i, if q ≠ [] ∧ k = s.root.toNat then j else start, count⟩ := by
  have hroot := T.root_internal hn
  induction h generalizing j start with
  | here k => simp
  | @down k i b q hl h ih =>
    have hc := T.child_lt hk hl b
    have h0 := hb 0 (by simp)
    simp only [Nat.add_zero, List.getElem_cons_zero] at h0
    have hbd := T.leads_bound (show childOn s.nodeAt k b < 2 * s.nleaf.toNat - 1 by omega) h
    have hri := T.root_index
    have hnc := T.node_count
    have hcl : (s.nodeAt (childOn s.nodeAt k b)).leaf = false := by
      cases q with
      | nil => rw [Leads.nil_iff] at h; rw [← h]; exact hi
      | cons b' q => exact (Leads.cons_iff.1 h).1
    rw [show (b :: q).length + rem = (q.length + rem) + 1 by simp; omega, decodeFrom, h0]
    simp only [decodeBit_walk hroot]
    rw [if_neg (by omega), hcl, if_neg (by simp)]
    have ih' := ih (j := j + 1) (start := if k = s.root.toNat then j else start) (by omega) hi
      (fun x hx => by
        have := hb (x + 1) (by simp; omega)
        simpa [Nat.add_assoc, Nat.add_comm 1 x] using this)
    simp only [ih', show childOn s.nodeAt k b ≠ s.root.toNat by omega, and_false, if_false]
    simp only [ne_eq, reduceCtorEq, not_false_eq_true, true_and, List.length_cons,
      show j + 1 + q.length = j + (q.length + 1) by omega]
    cases decodeFrom s m rem (j + (q.length + 1)) ⟨i, if k = s.root.toNat then j else start, count⟩ <;> simp

/-- A path from the root to a leaf answers the leaf's symbol when there is room, and the cursor is at the root
again (R212). -/
theorem TreeOk.decode_path {m : Mode} {i : Nat} {q : List Bool} (rem : Nat) {j start count : Nat}
    (h : Leads s.nodeAt s.root.toNat q i) (hi : (s.nodeAt i).leaf = true)
    (hb : ∀ x (hx : x < q.length), streamBit m s.inByte (j + x) = some q[x]) :
    decodeFrom s m (q.length + rem) j ⟨s.root.toNat, start, count⟩ =
      if count = Config.bufBytes then .error ⟨.outOverflow, BitVec.ofNat 32 (j + q.length - 1)⟩
      else
        match decodeFrom s m rem (j + q.length) ⟨s.root.toNat, j, count + 1⟩ with
        | .error f => .error f
        | .ok rest => .ok ((s.nodeAt i).sym :: rest) := by
  have hroot := T.root_internal hn
  have hrl := T.root_lt
  rcases List.eq_nil_or_concat q with rfl | ⟨q, b, rfl⟩
  · rw [Leads.nil_iff] at h; subst h; simp [hroot] at hi
  · rw [List.concat_eq_append] at *
    obtain ⟨i', h', hi', rfl⟩ := Leads.snoc_iff.1 h
    have hbd := T.leads_bound hrl h'
    have hc := T.child_lt (by omega) hi' b
    have hnc := T.node_count
    have hlast := hb q.length (by simp)
    simp only [List.getElem_concat_length] at hlast
    rw [show (q ++ [b]).length + rem = q.length + (rem + 1) by simp; omega,
      T.decode_inside hn (rem + 1) hrl h' hi' (fun x hx => by
        have := hb x (by simp; omega)
        rwa [List.getElem_append_left hx] at this)]
    rw [decodeFrom, hlast]
    simp only [decodeBit_walk hroot]
    rw [if_neg (by omega), hi, if_pos rfl]
    have hst : (if i' = s.root.toNat then j + q.length else if q ≠ [] ∧ True then j else start) = j := by
      by_cases hq : q = []
      · subst hq; rw [Leads.nil_iff] at h'; simp [h']
      · have : i' ≠ s.root.toNat := by
          have := List.length_pos_of_ne_nil hq
          omega
        simp [this, hq]
    rw [hst, List.length_append, List.length_singleton]
    by_cases hfull : count = Config.bufBytes
    · simp [hfull, Nat.add_sub_assoc]
    · simp only [hfull, if_false, show j + q.length + 1 = j + (q.length + 1) by omega, Option.toList_some,
        List.singleton_append] <;>
        (cases decodeFrom s m rem (j + (q.length + 1)) ⟨s.root.toNat, j, count + 1⟩ <;> rfl)
end

/-! ### Runs of whole codes -/

/-- The stream of a sequence of chunks, each a path with its symbol. -/
def chunkBits (chunks : List (List Bool × Symbol)) : List Bool := (chunks.map Prod.fst).flatten

/-- A stream that begins with paths from the root to leaves, with room for them all: their symbols come out and the
cursor is at the root for the rest (R212). -/
theorem TreeOk.decode_paths {s : State} (T : TreeOk s) (hn : 2 ≤ s.nleaf.toNat) {m : Mode} (rem : Nat)
    (chunks : List (List Bool × Symbol)) (j start count : Nat)
    (h1 : ∀ c ∈ chunks, leafAt s.nodeAt s.root.toNat c.1 = some c.2)
    (h2 : ∀ x (hx : x < (chunkBits chunks).length), streamBit m s.inByte (j + x) = some (chunkBits chunks)[x])
    (h3 : count + chunks.length ≤ Config.bufBytes) :
    ∃ start', decodeFrom s m ((chunkBits chunks).length + rem) j ⟨s.root.toNat, start, count⟩ =
      match decodeFrom s m rem (j + (chunkBits chunks).length) ⟨s.root.toNat, start', count + chunks.length⟩ with
      | .error f => .error f
      | .ok rest => .ok (chunks.map Prod.snd ++ rest) := by
  unfold chunkBits at *
  induction chunks generalizing j start count with
  | nil => refine ⟨start, ?_⟩; simp; split <;> simp_all
  | cons c cs ih =>
    obtain ⟨i, hi, hil, his⟩ := leafAt_eq_some.1 (h1 c (by simp))
    simp only [List.length_cons] at h3
    simp only [List.map_cons, List.flatten_cons, List.length_append] at h2 ⊢
    obtain ⟨st, hst⟩ := ih (j + c.1.length) j (count + 1) (fun c' hc' => h1 c' (by simp [hc'])) (fun x hx => by
      have := h2 (c.1.length + x) (by omega)
      rw [List.getElem_append_right (by omega)] at this
      simpa [Nat.add_assoc] using this) (by omega)
    refine ⟨st, ?_⟩
    rw [Nat.add_assoc, T.decode_path hn _ hi hil (fun x hx => by
      have := h2 x (by omega)
      rwa [List.getElem_append_left hx] at this)]
    rw [if_neg (by omega), hst]
    simp only [List.length_cons, Nat.add_assoc, Nat.add_comm 1 cs.length, his]
    cases decodeFrom s m rem (j + (c.1.length + (cs.map Prod.fst).flatten.length))
      ⟨s.root.toNat, st, count + (cs.length + 1)⟩ <;> simp

/-- On a single-leaf tree every good bit, with room for it, gives the sole symbol (R213). -/
theorem decode_single_run {s : State} (hroot : (s.nodeAt s.root.toNat).leaf = true) {m : Mode}
    (n j start count : Nat) (h : ∀ x, x < n → (streamBit m s.inByte (j + x)).isSome = true)
    (hc : count + n ≤ Config.bufBytes) (rem : Nat) :
    decodeFrom s m (n + rem) j ⟨s.root.toNat, start, count⟩ =
      match decodeFrom s m rem (j + n) ⟨s.root.toNat, start, count + n⟩ with
      | .error f => .error f
      | .ok rest => .ok (List.replicate n (s.nodeAt s.root.toNat).sym ++ rest) := by
  induction n generalizing j count with
  | zero => simp; split <;> simp_all
  | succ n ih =>
    obtain ⟨b, hb⟩ := Option.isSome_iff_exists.1 (h 0 (by omega))
    have hst := ih (j + 1) (count + 1) (fun x hx => by
      have := h (x + 1) (by omega)
      rwa [show j + 1 + x = j + (x + 1) by omega]) (by omega)
    rw [show n + 1 + rem = (n + rem) + 1 by omega, decodeFrom]
    rw [Nat.add_zero] at hb
    simp only [hb, decodeBit_single hroot]
    rw [if_neg (by omega)]
    simp only [hst, show j + 1 + n = j + (n + 1) by omega, show count + 1 + n = count + (n + 1) by omega]
    cases decodeFrom s m rem (j + (n + 1)) ⟨s.root.toNat, start, count + (n + 1)⟩ <;> simp [List.replicate_succ]

/-! ### DEC -/

/-- DEC past its preconditions (R210, R233). -/
theorem execDec_run (m : Mode) {s : State} (hv : s.treeValid = true) (hl : s.inLen.toNat ≤ bitCapacity m) :
    execDec m s = match decodeFrom s m s.inLen.toNat 0 ⟨s.root.toNat, 0, 0⟩ with
      | .error f => .next (raiseFailure .stream f s)
      | .ok syms => .next (complete (commitDecoding syms s)) := by
  rw [execDec, hv, if_neg (by simp), if_neg (by omega)] <;> rfl

/-- The output of DEC, byte by byte: the symbols, and the old bytes above them (R215). -/
theorem commitDecoding_outByte (syms : List Symbol) (s : State) (k : Nat) :
    (commitDecoding syms s).outByte k = if h : k < syms.length then syms[k] else s.outByte k := by
  unfold State.outByte commitDecoding
  split
  · next h => exact Table.get_putFirst_lt _ _ _ h
  · next h => exact Table.get_putFirst_ge _ _ _ (by omega)

end Sys2Proof.Machine
end

