-- ==== Sys2Proof/Laws/Encoder.lean ====
section
/-! SUPPORT. What the encoder's loop does (spec/44_encoder.md R190, R191, R194): it answers the codes in order
exactly when every symbol has a code and they fit, else the first failing position. -/

namespace Sys2Proof.Machine

/-- CLEN of the symbol at input position `i`. -/
def lenAt (s : State) (i : Nat) : Nat := (s.clenAt (s.inByte i).toNat).toNat

/-- The code of the symbol at input position `i`. -/
def codeBitsAt (s : State) (i : Nat) : List Bool := codeString s (s.inByte i).toNat

@[simp] theorem length_codeBitsAt (s : State) (i : Nat) : (codeBitsAt s i).length = lenAt s i := by
  simp [codeBitsAt, lenAt, codeString, codePrefix]

/-- The loop's answer, one position at a time. -/
theorem encodeFrom_succ (s : State) (cap count i len : Nat) :
    encodeFrom s cap (count + 1) i len =
      if lenAt s i = 0 then .error ⟨.unknownSymbol, taggedInfo (s.inByte i) i⟩
      else if cap < len + lenAt s i then .error ⟨.outOverflow, BitVec.ofNat 32 i⟩
      else
        match encodeFrom s cap count (i + 1) (len + lenAt s i) with
        | .ok rest => .ok (codeBitsAt s i ++ rest)
        | .error f => .error f := rfl

/-- Everything the encoder's loop can do: all codes in order, or the first position without a code or without
room. -/
theorem encodeFrom_cases (s : State) (cap count i len : Nat) (hlen : len ≤ cap) :
    (∃ bits, encodeFrom s cap count i len = .ok bits ∧
      bits = ((List.range' i count).map (codeBitsAt s)).flatten ∧
      (∀ j, i ≤ j → j < i + count → lenAt s j ≠ 0) ∧ len + bits.length ≤ cap) ∨
    (∃ k, i ≤ k ∧ k < i + count ∧ (∀ j, i ≤ j → j < k → lenAt s j ≠ 0) ∧
      len + ((List.range' i (k - i)).map (lenAt s)).sum ≤ cap ∧
      ((lenAt s k = 0 ∧
          encodeFrom s cap count i len = .error ⟨.unknownSymbol, taggedInfo (s.inByte k) k⟩) ∨
        (lenAt s k ≠ 0 ∧ cap < len + ((List.range' i (k - i)).map (lenAt s)).sum + lenAt s k ∧
          encodeFrom s cap count i len = .error ⟨.outOverflow, BitVec.ofNat 32 k⟩))) := by
  induction count generalizing i len with
  | zero => exact .inl ⟨[], rfl, rfl, fun j h1 h2 => by omega, by simpa using hlen⟩
  | succ count ih =>
    rw [encodeFrom_succ]
    by_cases h0 : lenAt s i = 0
    · refine .inr ⟨i, Nat.le_refl _, by omega, fun j h1 h2 => by omega, by simpa using hlen, .inl ⟨h0, ?_⟩⟩
      rw [if_pos h0]
    · rw [if_neg h0]
      by_cases hc : cap < len + lenAt s i
      · refine .inr ⟨i, Nat.le_refl _, by omega, fun j h1 h2 => by omega, by simpa using hlen,
          .inr ⟨h0, by simpa using hc, ?_⟩⟩
        rw [if_pos hc]
      · rw [if_neg hc]
        rcases ih (i + 1) (len + lenAt s i) (by omega) with
          ⟨bits, he, rfl, hall, hfit⟩ | ⟨k, hk1, hk2, hall, hfit, hfail⟩
        · refine .inl ⟨_, by rw [he], by simp [List.range'_succ], fun j h1 h2 => ?_, by simp at hfit ⊢; omega⟩
          by_cases hj : j = i
          · exact hj ▸ h0
          · exact hall j (by omega) (by omega)
        · have hr : List.range' i (k - i) = i :: List.range' (i + 1) (k - (i + 1)) := by
            rw [show k - i = (k - (i + 1)) + 1 by omega, List.range'_succ]
          refine .inr ⟨k, by omega, by omega, fun j h1 h2 => ?_, ?_, ?_⟩
          · by_cases hj : j = i
            · exact hj ▸ h0
            · exact hall j (by omega) h2
          · rw [hr]; simp; omega
          · rw [hr]
            rcases hfail with ⟨hz, he⟩ | ⟨hz, hov, he⟩
            · exact .inl ⟨hz, by rw [he]⟩
            · exact .inr ⟨hz, by simp at hov ⊢; omega, by rw [he]⟩

/-- ENC past its preconditions (R190, R233). -/
theorem execEnc_run (m : Mode) {s : State} (hv : s.codesValid = true) (hl : s.inLen.toNat ≤ Config.bufBytes) :
    execEnc m s = match encodeFrom s (bitCapacity m) s.inLen.toNat 0 0 with
      | .error f => .next (raiseFailure .stream f s)
      | .ok bits => .next (complete (commitEncoding m bits s)) := by
  rw [execEnc, hv, if_neg (by simp), if_neg (by omega)] <;> rfl

/-- The output of ENC, byte by byte: the stream, and the old bytes above it (R195). -/
theorem commitEncoding_outByte (m : Mode) (bits : List Bool) (s : State) (k : Nat) :
    (commitEncoding m bits s).outByte k =
      if h : k < (streamBytes m bits).length then (streamBytes m bits)[k] else s.outByte k := by
  unfold State.outByte commitEncoding
  split
  · next h => exact Table.get_putFirst_lt _ _ _ h
  · next h => exact Table.get_putFirst_ge _ _ _ (by omega)

end Sys2Proof.Machine
end

