-- ==== Sys2Proof/Laws/Flags.lean ====
section
/-! SUPPORT. The STATUS word bit by bit (spec/10_state.md R23). -/

namespace Sys2Proof.Machine

variable (s : State)

/-- The bits of a word laid out as STATUS. -/
theorem statusBits (b6 b5 b4 b3 b2 b1 b0 : Bool) :
    (fun w : Word => w.getLsbD 0 = b0 ∧ w.getLsbD 1 = b1 ∧ w.getLsbD 2 = b2 ∧ w.getLsbD 3 = b3 ∧
      w.getLsbD 4 = b4 ∧ w.getLsbD 5 = b5 ∧ w.getLsbD 6 = b6)
    (0#25 ++ BitVec.ofBool b6 ++ BitVec.ofBool b5 ++ BitVec.ofBool b4 ++ BitVec.ofBool b3 ++
      BitVec.ofBool b2 ++ BitVec.ofBool b1 ++ BitVec.ofBool b0) := by
  revert b6 b5 b4 b3 b2 b1 b0; decide

theorem statusWord_low : (statusWord s).getLsbD 0 = s.busyF ∧ (statusWord s).getLsbD 1 = s.doneF ∧
    (statusWord s).getLsbD 2 = statusErr s ∧ (statusWord s).getLsbD 3 = statusOvr s ∧
    (statusWord s).getLsbD 4 = s.treeValid ∧ (statusWord s).getLsbD 5 = s.codesValid ∧
    (statusWord s).getLsbD 6 = statusSingle s :=
  statusBits _ _ _ _ _ _ _

theorem statusWord_busy : (statusWord s).getLsbD 0 = s.busyF := (statusWord_low s).1

theorem statusWord_done : (statusWord s).getLsbD 1 = s.doneF := (statusWord_low s).2.1

theorem statusWord_err : (statusWord s).getLsbD 2 = statusErr s := (statusWord_low s).2.2.1

theorem statusWord_ovr : (statusWord s).getLsbD 3 = statusOvr s := (statusWord_low s).2.2.2.1

theorem statusWord_treeValid : (statusWord s).getLsbD 4 = s.treeValid := (statusWord_low s).2.2.2.2.1

theorem statusWord_codesValid : (statusWord s).getLsbD 5 = s.codesValid := (statusWord_low s).2.2.2.2.2.1

theorem statusWord_single : (statusWord s).getLsbD 6 = statusSingle s := (statusWord_low s).2.2.2.2.2.2

/-- Bits [31:7] read 0. -/
theorem statusWord_high {i : Nat} (h : 7 ≤ i) : (statusWord s).getLsbD i = false := by
  simp only [statusWord, BitVec.getLsbD_append]
  simp [show ¬ i < 1 by omega, show ¬ i - 1 < 1 by omega, show ¬ i - 1 - 1 < 1 by omega,
    show ¬ i - 1 - 1 - 1 < 1 by omega, show ¬ i - 1 - 1 - 1 - 1 < 1 by omega,
    show ¬ i - 1 - 1 - 1 - 1 - 1 < 1 by omega, show ¬ i - 1 - 1 - 1 - 1 - 1 - 1 < 1 by omega]

/-- STATUS.SINGLE is 1 exactly for a valid tree of one leaf. -/
theorem statusSingle_iff : statusSingle s = true ↔ s.treeValid = true ∧ s.nleaf.toNat = 1 := by
  simp only [statusSingle, Bool.and_eq_true, beq_iff_eq]
  refine and_congr_right fun _ => ⟨fun h => by simp [h], fun h => BitVec.eq_of_toNat_eq h⟩

theorem statusErr_iff : statusErr s = true ↔ s.result ≠ 0x00#8 := by
  simp [statusErr]

end Sys2Proof.Machine
end

