-- ==== Sys2Proof/Laws/FreqTable.lean ====
section
/-! SUPPORT. What the frequency table commands do to a key (spec/41_freq_table.md R140 to R142). -/

namespace Sys2Proof.Machine

/-- Setting the bit of `sym` leaves every other bit. -/
theorem getLsbD_setValid (v : BitVec 256) (sym : Symbol) (b : Bool) (k : Nat) :
    (setValid v sym b).getLsbD k = if k = sym.toNat then b else v.getLsbD k := by
  have hs := sym.isLt
  have hone : ∀ j, (1#256 <<< sym.toNat).getLsbD j = decide (j = sym.toNat) := by
    intro j
    rw [BitVec.getLsbD_shiftLeft, BitVec.getLsbD_one]
    by_cases hj : j = sym.toNat
    · subst hj; simp; omega
    · simp only [hj, decide_false, Bool.and_eq_false_iff, decide_eq_false_iff_not, Bool.not_eq_false',
        decide_eq_true_eq]
      omega
  by_cases hk : k < 256
  · cases b
    · simp only [setValid, Bool.false_eq_true, if_false, BitVec.getLsbD_and, BitVec.getLsbD_not, hone]
      by_cases h : k = sym.toNat <;> simp [h, hk]
    · simp only [setValid, if_true, BitVec.getLsbD_or, hone]
      by_cases h : k = sym.toNat <;> simp [h]
  · have h : k ≠ sym.toNat := by omega
    have hv : ∀ w : BitVec 256, w.getLsbD k = false := fun w => BitVec.getLsbD_of_ge w k (by omega)
    simp [h, hv]

theorem writeKey_freqAt (sym : Symbol) (count : Word) (b : Bool) (s : State) (k : Nat) :
    (writeKey sym count b s).freqAt k = if k = sym.toNat then count else s.freqAt k := by
  simp [writeKey, State.freqAt, Table.get_put]

theorem writeKey_fvalidAt (sym : Symbol) (count : Word) (b : Bool) (s : State) (k : Nat) :
    (writeKey sym count b s).fvalidAt k = if k = sym.toNat then b else s.fvalidAt k := by
  simp [writeKey, State.fvalidAt, getLsbD_setValid]

end Sys2Proof.Machine
end

