-- ==== Sys2Proof/Laws/HostProgram.lean ====
section
/-! SUPPORT. What the expansions of the pseudo-instructions do when the host performs them (spec/30_encoding.md R108). -/

namespace Sys2Proof.Machine

/-- Byte `i` of word `k` of a byte list (R108, R68). -/
theorem byteOfWord_loadWord (bytes : List Byte) (k i : Nat) (hi : i < 4) :
    byteOfWord (loadWord bytes k) i = bytes.getD (4 * k + i) 0#8 := by
  obtain ⟨h0, h1, h2, h3⟩ := byteOfWord_wordOfBytes (bytes.getD (4 * k) 0#8) (bytes.getD (4 * k + 1) 0#8)
    (bytes.getD (4 * k + 2) 0#8) (bytes.getD (4 * k + 3) 0#8)
  match i, hi with
  | 0, _ => exact h0
  | 1, _ => exact h1
  | 2, _ => exact h2
  | 3, _ => exact h3

/-- Word `k` of the INBUF window (R61). -/
theorem locate_inbuf_word {k : Nat} (hk : k < 4096) :
    (BitVec.ofNat 16 (0x8000 + 4 * k)).extractLsb' 0 2 = 0#2 ∧
      locate (BitVec.ofNat 16 (0x8000 + 4 * k)) = .inbuf (4 * k) := by
  have hn : (BitVec.ofNat 16 (0x8000 + 4 * k)).toNat = 0x8000 + 4 * k := by
    rw [BitVec.toNat_ofNat]; omega
  constructor
  · apply BitVec.eq_of_toNat_eq
    rw [BitVec.extractLsb'_toNat, hn]
    simp
  · rw [locate_buffer (by omega), hn, if_pos (by omega), Nat.add_sub_cancel_left]

/-- A run goes on after a step that goes on. -/
theorem run_next {s t : State} (m : Nat) (h : step s = .next t) : core.run (m + 1) s = core.run m t := by
  have h' : core.step s = .next t := h
  simp only [Host.Core.run, h']

/-- The host writes `m` words of a byte list, from word `a` on, to an idle block. -/
theorem run_loadWords (bytes : List Byte) (rest : List HostOp) (m a : Nat) (s : State) (ha : a + m ≤ 4096)
    (hb : s.busyF = false) (hr : s.rstAsserted = false)
    (ho : s.hostOps = (List.range' a m).map (fun k => writeAt (0x8000 + 4 * k) (loadWord bytes k)) ++ rest) :
    ∃ t, core.run m s = .next t ∧ t.hostOps = rest ∧ (∃ buf, HostMoves { s with inbuf := buf } t) ∧
      ∀ i, t.inByte i = if 4 * a ≤ i ∧ i < 4 * (a + m) then bytes.getD i 0#8 else s.inByte i := by
  induction m generalizing a s with
  | zero => exact ⟨s, rfl, by simpa using ho, ⟨s.inbuf, .refl s⟩, fun i => by rw [if_neg (by omega)]⟩
  | succ m ih =>
    obtain ⟨hal, hloc⟩ := locate_inbuf_word (k := a) (by omega)
    rw [List.range'_succ, List.map_cons, List.cons_append, writeAt, if_pos (by omega)] at ho
    have hstep := step_write_idle hal hb hr ho
    rw [hloc] at hstep
    generalize hu : advanceHost (takeReply _ _) = u at hstep
    have hbuf : ∀ i, u.inByte i = (writeInbuf (4 * a) (loadWord bytes a) s.inbuf).get Config.freeByte i :=
      fun i => by rw [← hu]; rfl
    obtain ⟨_, ht, hrest, ⟨buf, _, _, _, _, rfl⟩, hin⟩ := ih (a + 1) u (by omega) (by rw [← hu]; exact hb) (by rw [← hu]; exact hr)
      (by rw [← hu]; exact congrArg List.tail ho)
    refine ⟨_, (run_next m hstep).trans ht, hrest, ⟨buf, _, _, _, _, by rw [← hu]; rfl⟩, fun i => ?_⟩
    · rw [hin i, hbuf i, writeInbuf_get]
      by_cases h1 : 4 * (a + 1) ≤ i ∧ i < 4 * (a + 1 + m)
      · rw [if_pos h1, if_pos (by omega)]
      · rw [if_neg h1]
        by_cases h2 : 4 * a ≤ i ∧ i < 4 * a + 4
        · rw [if_pos h2, if_pos (by omega), byteOfWord_loadWord _ _ _ (by omega)]
          congr 1; omega
        · rw [if_neg h2, if_neg (by omega)]; rfl

end Sys2Proof.Machine
end

