-- ==== Sys2Proof/Laws/TreeBuilder.lean ====
section
/-! SUPPORT. What the tree builder does (spec/42_tree_builder.md): the selection of the least key, and the
invariant that every merge keeps, from which the tree's shape, its sum and its greedy order follow. -/

namespace Sys2Proof.Machine

/-! ### The order of keys (R152) -/

theorem keyBefore_iff (x y : Key) : keyBefore x y = true ↔ x.1 < y.1 ∨ (x.1 = y.1 ∧ x.2 < y.2) := by
  simp [keyBefore]

theorem keyBefore_irrefl (x : Key) : ¬ keyBefore x x = true := by
  rw [keyBefore_iff]; omega

theorem keyBefore_trans {x y z : Key} (h : keyBefore x y = true) (h' : keyBefore y z = true) :
    keyBefore x z = true := by
  rw [keyBefore_iff] at *; omega

theorem keyBefore_total (x y : Key) : x = y ∨ keyBefore x y = true ∨ keyBefore y x = true := by
  rw [keyBefore_iff, keyBefore_iff]
  by_cases h1 : x.1 = y.1
  · by_cases h2 : x.2 = y.2
    · exact .inl (Prod.ext h1 h2)
    · omega
  · omega

/-- The least key is in the pool and no key of the pool comes before it. -/
theorem leastKey_spec (k : Key) (ks : List Key) :
    leastKey k ks ∈ k :: ks ∧ ∀ x ∈ k :: ks, x = leastKey k ks ∨ keyBefore (leastKey k ks) x = true := by
  induction ks generalizing k with
  | nil => simp [leastKey]
  | cons y ys ih =>
    simp only [leastKey]
    by_cases h : keyBefore y k = true
    · rw [if_pos h]
      obtain ⟨hm, hl⟩ := ih y
      refine ⟨List.mem_cons_of_mem _ hm, fun x hx => ?_⟩
      rcases List.mem_cons.1 hx with rfl | hx
      · rcases hl y List.mem_cons_self with he | hb
        · exact .inr (he ▸ h)
        · exact .inr (keyBefore_trans hb h)
      · exact hl x hx
    · rw [if_neg h]
      obtain ⟨hm, hl⟩ := ih k
      refine ⟨?_, fun x hx => ?_⟩
      · rcases List.mem_cons.1 hm with he | hm
        · rw [he]; exact List.mem_cons_self
        · exact List.mem_cons_of_mem _ (List.mem_cons_of_mem _ hm)
      · rcases List.mem_cons.1 hx with rfl | hx
        · exact hl x List.mem_cons_self
        · rcases List.mem_cons.1 hx with rfl | hx
          · rcases hl k List.mem_cons_self with he | hb
            · rcases keyBefore_total x k with h1 | h1 | h1
              · exact .inl (h1.trans he)
              · exact absurd h1 h
              · exact .inr (he ▸ h1)
            · rcases keyBefore_total x k with h1 | h1 | h1
              · exact .inr (h1 ▸ hb)
              · exact absurd h1 h
              · exact .inr (keyBefore_trans hb h1)
          · exact hl x (List.mem_cons_of_mem _ hx)

/-- Taking the least key: it is in the pool, it comes before every other, and the rest of the pool is what is
left; only an empty pool has none (R153). -/
theorem takeLeast_spec {pool rest : List Key} {m : Key} (h : takeLeast pool = some (m, rest)) :
    m ∈ pool ∧ rest = pool.erase m ∧ ∀ x ∈ pool, x = m ∨ keyBefore m x = true := by
  cases pool with
  | nil => simp [takeLeast] at h
  | cons k ks =>
    simp only [takeLeast, Option.some.injEq, Prod.mk.injEq] at h
    obtain ⟨rfl, rfl⟩ := h
    exact ⟨(leastKey_spec k ks).1, rfl, (leastKey_spec k ks).2⟩

theorem takeLeast_eq_none {pool : List Key} : takeLeast pool = none ↔ pool = [] := by
  cases pool <;> simp [takeLeast]

/-! ### The nodes made so far -/

/-- Node `k` of the nodes made so far. -/
def nodeIn (nodes : List Node) (k : Nat) : Node := nodes.getD k (leafNode 0#32 0)

theorem nodeIn_append_lt (nodes : List Node) (nd : Node) {k : Nat} (h : k < nodes.length) :
    nodeIn (nodes ++ [nd]) k = nodeIn nodes k := by
  simp [nodeIn, List.getD_eq_getElem?_getD, List.getElem?_append_left h]

@[simp] theorem nodeIn_append_last (nodes : List Node) (nd : Node) :
    nodeIn (nodes ++ [nd]) nodes.length = nd := by
  simp [nodeIn, List.getD_eq_getElem?_getD]

/-- The parents of `j` depend only on the nodes below `hi`. -/
theorem parents_congr {f g : Nat → Node} (lo hi j : Nat) (h : ∀ k, k < hi → f k = g k) :
    parents f lo hi j = parents g lo hi j := by
  unfold parents
  apply List.filter_congr
  intro k hk
  simp [childOf, h k (List.mem_range.1 hk)]

theorem parents_succ (f : Nat → Node) (lo hi j : Nat) :
    parents f lo (hi + 1) j =
      parents f lo hi j ++ (if decide (lo ≤ hi) && childOf f hi j then [hi] else []) := by
  unfold parents
  rw [List.range_succ, List.filter_append]
  congr 1
  rw [List.filter_singleton]
  cases decide (lo ≤ hi) && childOf f hi j <;> rfl

theorem parents_of_ge (f : Nat → Node) {lo hi : Nat} (j : Nat) (h : hi ≤ lo) : parents f lo hi j = [] := by
  unfold parents
  rw [List.filter_eq_nil_iff]
  intro k hk
  have := List.mem_range.1 hk
  simp [show ¬ lo ≤ k by omega]

/-! ### The invariant of the merge loop -/

/-- The pool and its two least nodes depend only on the nodes below `k`. -/
theorem LeastTwo.congr {f g : Nat → Node} {n k a b : Nat} (h : LeastTwo f n k a b) (hfg : ∀ i, i < k → f i = g i) :
    LeastTwo g n k a b := by
  have hkey : ∀ i, i < k → keyOf g i = keyOf f i := fun i hi => by simp [keyOf, hfg i hi]
  have hin : ∀ j, inPool g n k j ↔ inPool f n k j := fun j => by
    rw [inPool, inPool, parents_congr n k j hfg]
  refine ⟨(hin a).2 h.first_in, (hin b).2 h.second_in, ?_, fun j hj hja hjb => ?_⟩
  · rw [hkey a h.first_in.1, hkey b h.second_in.1]; exact h.first_least
  · rw [hkey b h.second_in.1, hkey j hj.1]; exact h.second_next j ((hin j).1 hj) hja hjb

/-- What holds of the `nodes` and the `pool` after any number of merges of `n` leaves whose counts sum to
`total`. -/
structure MergeInv (n total : Nat) (nodes : List Node) (pool : List Key) : Prop where
  few : n ≤ 256
  leaves_made : n ≤ nodes.length
  size : nodes.length + pool.length = 2 * n
  keys : ∀ x ∈ pool, x.2 < nodes.length ∧ x = keyOf (nodeIn nodes) x.2
  nodup : (pool.map Prod.snd).Nodup
  shape : ∀ k, n ≤ k → k < nodes.length →
    (nodeIn nodes k).leaf = false ∧ (nodeIn nodes k).sym = 0#8 ∧ (nodeIn nodes k).left.toNat < k ∧
      (nodeIn nodes k).right.toNat < k ∧ (nodeIn nodes k).left ≠ (nodeIn nodes k).right ∧
      (nodeIn nodes k).f.toNat =
        (nodeIn nodes (nodeIn nodes k).left.toNat).f.toNat +
          (nodeIn nodes (nodeIn nodes k).right.toNat).f.toNat
  parent : ∀ j, j < nodes.length →
    (parents (nodeIn nodes) n nodes.length j).length = if j ∈ pool.map Prod.snd then 0 else 1
  sum : (pool.map Prod.fst).sum = total
  greedy : ∀ k, n ≤ k → k < nodes.length →
    LeastTwo (nodeIn nodes) n k (nodeIn nodes k).left.toNat (nodeIn nodes k).right.toNat

theorem MergeInv.pool_lt {n total : Nat} {nodes : List Node} {pool : List Key}
    (h : MergeInv n total nodes pool) (hp : 2 ≤ pool.length) : nodes.length < 511 := by
  have := h.size; have := h.few; omega

/-- The pool holds the nodes that are not yet a child. -/
theorem MergeInv.mem_pool {n total : Nat} {nodes : List Node} {pool : List Key} (h : MergeInv n total nodes pool)
    (j : Nat) : j ∈ pool.map Prod.snd ↔ inPool (nodeIn nodes) n nodes.length j := by
  constructor
  · intro hj
    obtain ⟨x, hx, rfl⟩ := List.mem_map.1 hj
    have hlt := (h.keys x hx).1
    have hp := h.parent x.2 hlt
    rw [if_pos hj] at hp
    exact ⟨hlt, List.eq_nil_of_length_eq_zero hp⟩
  · rintro ⟨hlt, hp⟩
    by_contra hj
    have := h.parent j hlt
    simp [hj, hp] at this

/-- The two keys that a merge removes are those of the two least nodes of the pool (R152). -/
theorem MergeInv.leastTwo {n total : Nat} {nodes : List Node} {pool poolA poolB : List Key} {a b : Key}
    (h : MergeInv n total nodes pool) (ha : takeLeast pool = some (a, poolA)) (hb : takeLeast poolA = some (b, poolB)) :
    LeastTwo (nodeIn nodes) n nodes.length a.2 b.2 ∧ a = keyOf (nodeIn nodes) a.2 ∧ b = keyOf (nodeIn nodes) b.2 := by
  obtain ⟨ham, rfl, hal⟩ := takeLeast_spec ha
  obtain ⟨hbm, rfl, hbl⟩ := takeLeast_spec hb
  have hnd : pool.Nodup := List.Nodup.of_map _ h.nodup
  have hbp : b ∈ pool := List.mem_of_mem_erase hbm
  have hba : b ≠ a := fun e => List.Nodup.not_mem_erase hnd (e ▸ hbm)
  have hka := (h.keys a ham).2
  have hkb := (h.keys b hbp).2
  refine ⟨⟨(h.mem_pool _).1 (List.mem_map.2 ⟨a, ham, rfl⟩), (h.mem_pool _).1 (List.mem_map.2 ⟨b, hbp, rfl⟩), ?_, ?_⟩,
    hka, hkb⟩
  · rw [← hka, ← hkb]
    exact (hal b hbp).resolve_left hba
  · intro j hj hja hjb
    obtain ⟨x, hx, rfl⟩ := List.mem_map.1 ((h.mem_pool j).2 hj)
    rw [← hkb, ← (h.keys x hx).2]
    refine (hbl x ?_).resolve_left (fun e => hjb (e ▸ rfl))
    rw [hnd.mem_erase_iff]
    exact ⟨fun e => hja (e ▸ rfl), hx⟩

/-- One merge keeps the invariant (R153). -/
theorem MergeInv.step {n total : Nat} {nodes : List Node} {pool poolA poolB : List Key} {a b : Key}
    (h : MergeInv n total nodes pool) (ha : takeLeast pool = some (a, poolA))
    (hb : takeLeast poolA = some (b, poolB)) (hsum : a.1 + b.1 ≤ Config.freqMax) :
    MergeInv n total (nodes ++ [mergedNode a b]) ((a.1 + b.1, nodes.length) :: poolB) := by
  obtain ⟨ham, hA, hal⟩ := takeLeast_spec ha
  obtain ⟨hbm, hB, hbl⟩ := takeLeast_spec hb
  subst hA hB
  have hnd : pool.Nodup := List.Nodup.of_map _ h.nodup
  have hndA : (pool.erase a).Nodup := hnd.erase a
  have hbp : b ∈ pool := List.mem_of_mem_erase hbm
  have hba : b ≠ a := fun e => by
    subst e; exact (List.Nodup.not_mem_erase hnd) hbm
  have hinj : ∀ x ∈ pool, ∀ y ∈ pool, x.2 = y.2 → x = y := by
    intro x hx y hy hxy
    rw [(h.keys x hx).2, (h.keys y hy).2, hxy]
  have hb2 : a.2 ≠ b.2 := fun e => hba (hinj b hbp a ham e.symm)
  have hlenA : (pool.erase a).length = pool.length - 1 := List.length_erase_of_mem ham
  have hlenB : ((pool.erase a).erase b).length = pool.length - 2 := by
    rw [List.length_erase_of_mem hbm, hlenA]; omega
  have hpool : 2 ≤ pool.length := by
    have h1 := List.length_pos_of_mem hbm
    omega
  have hlt := h.pool_lt hpool
  have ha2 := (h.keys a ham).1
  have hb2' := (h.keys b hbp).1
  have hmemB : ∀ x, x ∈ (pool.erase a).erase b ↔ x ∈ pool ∧ x ≠ a ∧ x ≠ b := by
    intro x
    rw [hndA.mem_erase_iff, hnd.mem_erase_iff]
    tauto
  have hleft : (mergedNode a b).left.toNat = a.2 := by simp [mergedNode]; omega
  have hright : (mergedNode a b).right.toNat = b.2 := by simp [mergedNode]; omega
  have hf : (mergedNode a b).f.toNat = a.1 + b.1 := by
    simp only [Config.freqMax] at hsum
    simp [mergedNode]; omega
  have hkey : ∀ k, k < nodes.length →
      keyOf (nodeIn (nodes ++ [mergedNode a b])) k = keyOf (nodeIn nodes) k := by
    intro k hk; simp [keyOf, nodeIn_append_lt _ _ hk]
  have hsndmem : ∀ j, j ∈ ((pool.erase a).erase b).map Prod.snd ↔
      j ∈ pool.map Prod.snd ∧ j ≠ a.2 ∧ j ≠ b.2 := by
    intro j
    simp only [List.mem_map, hmemB]
    constructor
    · rintro ⟨x, ⟨hx, hxa, hxb⟩, rfl⟩
      exact ⟨⟨x, hx, rfl⟩, fun e => hxa (hinj x hx a ham e), fun e => hxb (hinj x hx b hbp e)⟩
    · rintro ⟨⟨x, hx, rfl⟩, h1, h2⟩
      exact ⟨x, ⟨hx, fun e => h1 (e ▸ rfl), fun e => h2 (e ▸ rfl)⟩, rfl⟩
  have hchild : ∀ j, childOf (nodeIn (nodes ++ [mergedNode a b])) nodes.length j = true ↔
      j = a.2 ∨ j = b.2 := by
    intro j
    simp only [childOf, nodeIn_append_last, hleft, hright, Bool.or_eq_true, beq_iff_eq]
    constructor <;> rintro (h | h) <;> simp [h]
  have hparlt : ∀ j hi, hi ≤ nodes.length →
      parents (nodeIn (nodes ++ [mergedNode a b])) n hi j = parents (nodeIn nodes) n hi j := by
    intro j hi hhi
    exact parents_congr _ _ _ fun k hk => nodeIn_append_lt _ _ (by omega)
  have hpar : ∀ j, (parents (nodeIn (nodes ++ [mergedNode a b])) n (nodes.length + 1) j).length =
      (parents (nodeIn nodes) n nodes.length j).length + if j = a.2 ∨ j = b.2 then 1 else 0 := by
    intro j
    rw [parents_succ, hparlt j _ (Nat.le_refl _), List.length_append]
    congr 1
    have := hchild j
    by_cases hj : j = a.2 ∨ j = b.2
    · simp [hj, this.2 hj, h.leaves_made]
    · simp [hj, show childOf (nodeIn (nodes ++ [mergedNode a b])) nodes.length j = false by
        simpa using mt this.1 hj]
  refine ⟨h.few, ?_, ?_, ?_, ?_, ?_, ?_, ?_, ?_⟩
  · have := h.leaves_made; simp; omega
  · have := h.size; simp [hlenB]; omega
  · intro x hx
    rcases List.mem_cons.1 hx with rfl | hx
    · refine ⟨by simp, ?_⟩
      simp [keyOf, hf]
    · have hxp := ((hmemB x).1 hx).1
      have hk := h.keys x hxp
      refine ⟨by simp; omega, ?_⟩
      rw [hkey _ hk.1]; exact hk.2
  · rw [List.map_cons, List.nodup_cons]
    refine ⟨?_, ?_⟩
    · intro hm
      obtain ⟨x, hx, hxe⟩ := List.mem_map.1 ((hsndmem _).1 hm).1
      have := (h.keys x hx).1
      omega
    · exact (h.nodup.sublist (((List.erase_sublist).trans (List.erase_sublist)).map _))
  · intro k hnk hk
    rw [List.length_append, List.length_singleton] at hk
    by_cases hkl : k < nodes.length
    · have hs := h.shape k hnk hkl
      rw [nodeIn_append_lt _ _ hkl, nodeIn_append_lt _ _ (show (nodeIn nodes k).left.toNat < nodes.length by omega),
        nodeIn_append_lt _ _ (show (nodeIn nodes k).right.toNat < nodes.length by omega)]
      exact hs
    · obtain rfl : k = nodes.length := by omega
      have hka := (h.keys a ham).2
      have hkb := (h.keys b hbp).2
      rw [nodeIn_append_last, hleft, hright, nodeIn_append_lt _ _ ha2, nodeIn_append_lt _ _ hb2', hf]
      refine ⟨rfl, rfl, ha2, hb2', ?_, ?_⟩
      · intro e
        apply hb2
        rw [← hleft, ← hright, e]
      · rw [Prod.ext_iff] at hka hkb
        simp only [keyOf] at hka hkb
        omega
  · intro j hj
    rw [List.length_append, List.length_singleton] at hj ⊢
    rw [hpar j, List.map_cons]
    by_cases hjl : j < nodes.length
    · rw [h.parent j hjl]
      have hjne : j ≠ nodes.length := by omega
      simp only [List.mem_cons, hjne, false_or, hsndmem]
      by_cases hja : j = a.2
      · subst hja
        have : a.2 ∈ pool.map Prod.snd := List.mem_map.2 ⟨a, ham, rfl⟩
        simp [this]
      · by_cases hjb : j = b.2
        · subst hjb
          have : b.2 ∈ pool.map Prod.snd := List.mem_map.2 ⟨b, hbp, rfl⟩
          simp [this]
        · by_cases hjp : j ∈ pool.map Prod.snd <;> simp only [hjp, hja, hjb, or_self, if_true, if_false,
            not_false_eq_true, and_true, ne_eq, Nat.add_zero]
    · obtain rfl : j = nodes.length := by omega
      have hne : ¬ (nodes.length = a.2 ∨ nodes.length = b.2) := by omega
      have hp0 : parents (nodeIn nodes) n nodes.length nodes.length = [] := by
        unfold parents
        rw [List.filter_eq_nil_iff]
        intro k hk
        have hk := List.mem_range.1 hk
        simp only [Bool.and_eq_true, decide_eq_true_eq, childOf, Bool.or_eq_true, beq_iff_eq, not_and]
        intro hnk
        have := h.shape k hnk hk
        omega
      simp [hne, hp0]
  · rw [List.map_cons, List.sum_cons, ← h.sum]
    have h1 := List.perm_cons_erase ham
    have h2 := List.perm_cons_erase hbm
    have e1 := (h1.map Prod.fst).sum_eq
    have e2 := (h2.map Prod.fst).sum_eq
    simp only [List.map_cons, List.sum_cons] at e1 e2
    omega
  · intro k hnk hk
    rw [List.length_append, List.length_singleton] at hk
    by_cases hkl : k < nodes.length
    · have hs := h.shape k hnk hkl
      have hg := h.greedy k hnk hkl
      rw [nodeIn_append_lt _ _ hkl]
      exact hg.congr fun i hi => (nodeIn_append_lt _ _ (by omega)).symm
    · obtain rfl : k = nodes.length := by omega
      rw [nodeIn_append_last, hleft, hright]
      exact (h.leastTwo ha hb).1.congr fun i hi => (nodeIn_append_lt _ _ hi).symm

/-- The next merge of the pool overflows (R155). -/
def Overflows (pool : List Key) : Prop :=
  ∃ a poolA b poolB, takeLeast pool = some (a, poolA) ∧ takeLeast poolA = some (b, poolB) ∧ Config.freqMax < a.1 + b.1

/-- A pool whose next merge overflows holds two nodes whose keys its counts include. -/
theorem Overflows.bound {pool : List Key} (h : Overflows pool) :
    2 ≤ pool.length ∧ Config.freqMax < (pool.map Prod.fst).sum := by
  obtain ⟨a, poolA, b, poolB, ha, hb, hov⟩ := h
  obtain ⟨ham, hA, -⟩ := takeLeast_spec ha
  obtain ⟨hbm, hB, -⟩ := takeLeast_spec hb
  have e1 := ((List.perm_cons_erase ham).map Prod.fst).sum_eq
  have e2 := ((List.perm_cons_erase hbm).map Prod.fst).sum_eq
  simp only [List.map_cons, List.sum_cons, ← hA] at e1 e2
  have h1 := List.length_pos_of_mem hbm
  rw [hA, List.length_erase_of_mem ham] at h1
  exact ⟨by omega, by omega⟩

/-- Everything the merge loop can do from a state with the invariant: it makes all the merges and ends with the
one node of the pool, or it makes merges up to the first that overflows and names the node of that one (R154,
R155). -/
theorem mergeLoop_spec {n total m : Nat} {nodes : List Node} {pool : List Key}
    (h : MergeInv n total nodes pool) (hm : pool.length = m + 1) :
    (∃ nodes' k, mergeLoop m nodes pool = .ok (nodes', [k]) ∧ MergeInv n total nodes' [k] ∧
      nodes'.take nodes.length = nodes) ∨
    (∃ nodes' pool', mergeLoop m nodes pool = .error nodes'.length ∧ MergeInv n total nodes' pool' ∧
      nodes'.take nodes.length = nodes ∧ Overflows pool') := by
  induction m generalizing nodes pool with
  | zero =>
    obtain ⟨k, rfl⟩ := List.length_eq_one_iff.1 hm
    exact .inl ⟨nodes, k, rfl, h, by simp⟩
  | succ m ih =>
    rw [mergeLoop]
    cases ha : takeLeast pool with
    | none => rw [takeLeast_eq_none] at ha; simp [ha] at hm
    | some ap =>
      obtain ⟨a, poolA⟩ := ap
      obtain ⟨ham, hA, hal⟩ := takeLeast_spec ha
      have hlA : poolA.length = m + 1 := by rw [hA, List.length_erase_of_mem ham]; omega
      cases hb : takeLeast poolA with
      | none => rw [takeLeast_eq_none] at hb; simp [hb] at hlA
      | some bp =>
        obtain ⟨b, poolB⟩ := bp
        obtain ⟨hbm, hB, hbl⟩ := takeLeast_spec hb
        have hlB : poolB.length = m := by rw [hB, List.length_erase_of_mem hbm]; omega
        by_cases hov : Config.freqMax < a.1 + b.1
        · exact .inr ⟨nodes, pool, by simp [hb, hov], h, by simp, a, poolA, b, poolB, ha, hb, hov⟩
        · have hs := h.step ha hb (by omega)
          have htake : ∀ nodes' : List Node,
              nodes'.take (nodes ++ [mergedNode a b]).length = nodes ++ [mergedNode a b] →
              nodes'.take nodes.length = nodes := by
            intro nodes' ht
            have := congrArg (List.take nodes.length) ht
            rw [List.take_take, List.length_append, List.length_singleton, Nat.min_eq_left (by omega)] at this
            rw [this]; simp
          rcases ih hs (by simp [hlB]) with ⟨nodes', k, he, hi, ht⟩ | ⟨nodes', pool', he, hi, ht, ho⟩
          · exact .inl ⟨nodes', k, by simp only [hb, hov, if_false, he], hi, htake nodes' ht⟩
          · exact .inr ⟨nodes', pool', by simp only [hb, hov, if_false, he], hi, htake nodes' ht, ho⟩

/-! ### The leaves (R151) -/

theorem initialPool_snd (ls : List Node) : (initialPool ls).map Prod.snd = List.range ls.length := by
  unfold initialPool
  rw [List.map_map]
  apply List.ext_getElem
  · simp
  · intro i h1 h2; simp

theorem initialPool_fst (ls : List Node) : (initialPool ls).map Prod.fst = ls.map (fun nd => nd.f.toNat) := by
  unfold initialPool
  rw [List.map_map]
  apply List.ext_getElem
  · simp
  · intro i h1 h2; simp

/-- The invariant holds of the leaves and the first pool. -/
theorem MergeInv.initial (ls : List Node) (h : ls.length ≤ 256) :
    MergeInv ls.length (ls.map (fun nd => nd.f.toNat)).sum ls (initialPool ls) := by
  have hlen : (initialPool ls).length = ls.length := by simp [initialPool]
  refine ⟨h, Nat.le_refl _, by omega, ?_, ?_, fun k h1 h2 => by omega, ?_, ?_, fun k h1 h2 => by omega⟩
  · intro x hx
    obtain ⟨⟨nd, i⟩, hm, rfl⟩ := List.mem_map.1 hx
    have hi := List.mem_zipIdx hm
    simp only [Nat.zero_le, Nat.zero_add, true_and, Nat.sub_zero] at hi
    refine ⟨hi.1, ?_⟩
    simp [keyOf, nodeIn, hi.1, hi.2]
  · rw [initialPool_snd]; exact List.nodup_range
  · intro j hj
    rw [initialPool_snd, parents_of_ge _ _ (Nat.le_refl _)]
    simp [hj]
  · rw [initialPool_fst]

theorem keySymbols_length_le (s : State) : (keySymbols s).length ≤ 256 := by
  have := List.length_filter_le s.fvalidAt (List.range Config.nsym)
  simpa [keySymbols, Config.nsym] using this

theorem leaves_length (s : State) : (leaves s).length = (keySymbols s).length := by simp [leaves]

theorem keySymbols_lt (s : State) : ∀ k ∈ keySymbols s, k < 256 := by
  intro k hk
  have := (List.mem_filter.1 hk).1
  simpa [Config.nsym] using this

theorem keySymbols_sorted (s : State) : (keySymbols s).Pairwise (· < ·) :=
  List.Pairwise.filter _ List.pairwise_lt_range

theorem leaves_get (s : State) (i : Nat) (h : i < (keySymbols s).length) :
    nodeIn (leaves s) i = leafNode (s.freqAt (keySymbols s)[i]) (keySymbols s)[i] := by
  simp [nodeIn, leaves, h]

theorem leaves_sum (s : State) :
    ((leaves s).map (fun nd => nd.f.toNat)).sum = ((keySymbols s).map (fun k => (s.freqAt k).toNat)).sum := by
  simp [leaves, leafNode, Function.comp_def]

theorem nodeIn_take {nodes ls : List Node} (h : nodes.take ls.length = ls) (i : Nat) (hi : i < ls.length) :
    nodeIn nodes i = nodeIn ls i := by
  unfold nodeIn
  conv => rhs; rw [← h]
  simp [List.getD_eq_getElem?_getD, hi]

/-! ### The committed tree (R154) -/

/-- Entries above the tree keep what they hold. -/
theorem commit_nodeAt (n : Nat) (nodes : List Node) (pool : List Key) (s : State) (k : Nat) :
    (complete (commitTree n nodes pool s)).nodeAt k =
      if k < nodes.length then nodeIn nodes k else s.nodeAt k := by
  simp only [complete_nodeAt]
  simp only [State.nodeAt, commitTree]
  split
  · next h => rw [Table.get_putFirst_lt _ _ _ h]; simp [nodeIn, h]
  · next h => rw [Table.get_putFirst_ge _ _ _ (by omega)]

/-- A finished merge loop over leaves in symbol order commits a strict tree (R47) whose root is the last node and
holds the sum of the counts. -/
theorem treeOk_commit {n total : Nat} {nodes : List Node} {k : Key} (s : State) (hn : 1 ≤ n)
    (h : MergeInv n total nodes [k])
    (hleaf : ∀ i, i < n →
      (nodeIn nodes i).leaf = true ∧ (nodeIn nodes i).left = 0#9 ∧ (nodeIn nodes i).right = 0#9)
    (hord : ∀ i, i < n → ∀ j, j < i → (nodeIn nodes j).sym.toNat < (nodeIn nodes i).sym.toNat) :
    TreeOk (complete (commitTree n nodes [k] s)) ∧ k.2 = 2 * n - 2 ∧
      (nodeIn nodes (2 * n - 2)).f.toNat = total := by
  have hsz := h.size
  have hfew := h.few
  simp at hsz
  have hlen : nodes.length = 2 * n - 1 := by omega
  have hk := h.keys k (by simp)
  have hk2 : k.2 = 2 * n - 2 := by
    by_contra hc
    have hp := h.parent (2 * n - 2) (by omega)
    simp only [List.map_cons, List.map_nil, List.mem_singleton, if_neg (Ne.symm hc)] at hp
    have : parents (nodeIn nodes) n nodes.length (2 * n - 2) = [] := by
      unfold parents
      rw [List.filter_eq_nil_iff]
      intro x hx
      have hx := List.mem_range.1 hx
      simp only [Bool.and_eq_true, decide_eq_true_eq, childOf, Bool.or_eq_true, beq_iff_eq, not_and]
      intro hnk
      have := h.shape x hnk hx
      omega
    rw [this] at hp; simp at hp
  have hN : ∀ j, j < 2 * n - 1 → (complete (commitTree n nodes [k] s)).nodeAt j = nodeIn nodes j := by
    intro j hj; rw [commit_nodeAt, if_pos (by omega)]
  have hnl : (complete (commitTree n nodes [k] s)).nleaf.toNat = n := by
    simp [commitTree]; omega
  have hroot : (complete (commitTree n nodes [k] s)).root.toNat = 2 * n - 2 := by
    simp [commitTree, hk2]; omega
  have hpar : ∀ j, parents (complete (commitTree n nodes [k] s)).nodeAt n (2 * n - 1) j =
      parents (nodeIn nodes) n nodes.length j := by
    intro j; rw [hlen]; exact parents_congr _ _ _ hN
  refine ⟨⟨?_, ?_, ?_, ?_, ?_, ?_, ?_, ?_, ?_, ?_⟩, hk2, ?_⟩
  · rw [hnl]; omega
  · rw [hnl]; simp [commitTree, hlen]; omega
  · rw [hnl, hroot]
  · rw [hnl]; intro i hi; rw [hN i (by omega)]; exact hleaf i hi
  · rw [hnl]; intro i hi j hj; rw [hN i (by omega), hN j (by omega)]; exact hord i hi j hj
  · rw [hnl]; intro i hi hni; rw [hN i hi]
    have := h.shape i hni (by omega); exact ⟨this.1, this.2.1⟩
  · rw [hnl]; intro i hi hni; rw [hN i hi]
    have := h.shape i hni (by omega); exact ⟨this.2.2.1, this.2.2.2.1, this.2.2.2.2.1⟩
  · rw [hnl]; intro i hi hni; rw [hN i hi]
    have := h.shape i hni (by omega)
    rw [hN _ (by omega), hN _ (by omega)]; exact this.2.2.2.2.2
  · rw [hnl]; intro j hj; rw [hpar, h.parent j (by omega)]; simp [hk2]; omega
  · rw [hnl, hroot, hpar]; have := h.parent (2 * n - 2) (by omega); simpa [hk2] using this
  · have hs := h.sum
    have := hk.2
    simp at hs
    rw [← hs, this]; simp [keyOf, hk2]

/-! ### BUILD -/

/-- The sum of the keys' counts. -/
def countSum (s : State) : Nat := ((keySymbols s).map (fun k => (s.freqAt k).toNat)).sum

/-- Everything BUILD can do: no key, a tree, or the merges up to one whose sum overflows (R150, R155, R157). -/
theorem execBuild_cases (s : State) :
    (keySymbols s = [] ∧ execBuild s = .next (raiseFailure .build ⟨.emptyAlphabet, 0#32⟩ s)) ∨
    (keySymbols s ≠ [] ∧ ∃ nodes k,
      execBuild s = .next (complete (commitTree (keySymbols s).length nodes [k] s)) ∧
      MergeInv (keySymbols s).length (countSum s) nodes [k] ∧
      ∀ i (h : i < (keySymbols s).length),
        nodeIn nodes i = leafNode (s.freqAt (keySymbols s)[i]) (keySymbols s)[i]) ∨
    (keySymbols s ≠ [] ∧ ∃ nodes pool,
      execBuild s = .next (raiseFailure .build ⟨.freqOverflow, BitVec.ofNat 32 nodes.length⟩ s) ∧
      MergeInv (keySymbols s).length (countSum s) nodes pool ∧ Overflows pool ∧
      ∀ i (h : i < (keySymbols s).length),
        nodeIn nodes i = leafNode (s.freqAt (keySymbols s)[i]) (keySymbols s)[i]) := by
  have h256 := keySymbols_length_le s
  have hll := leaves_length s
  by_cases h0 : keySymbols s = []
  · refine .inl ⟨h0, ?_⟩; simp [execBuild, leaves, h0]
  · have hpos := List.length_pos_of_ne_nil h0
    have hinit := MergeInv.initial (leaves s) (by omega)
    have hp : (initialPool (leaves s)).length = ((leaves s).length - 1) + 1 := by
      simp [initialPool]; omega
    rw [leaves_sum, hll] at hinit
    rcases mergeLoop_spec hinit hp with ⟨nodes, k, he, hi, ht⟩ | ⟨nodes, pool, he, hi, ht, ho⟩
    · refine .inr (.inl ⟨h0, nodes, k, ?_, hi, fun i hi' => ?_⟩)
      · unfold execBuild
        simp only [he]
        rw [if_neg (by omega), hll]
      · rw [nodeIn_take ht i (by omega), leaves_get _ _ hi']
    · refine .inr (.inr ⟨h0, nodes, pool, ?_, hi, ho, fun i hi' => ?_⟩)
      · unfold execBuild
        simp only [he]
        rw [if_neg (by omega)]
      · rw [nodeIn_take ht i (by omega), leaves_get _ _ hi']

/-- The tree a successful BUILD commits is strict, its root is node 2n-2 and holds the sum of the counts. -/
theorem build_treeOk (s : State) {nodes : List Node} {k : Key} (h0 : keySymbols s ≠ [])
    (hi : MergeInv (keySymbols s).length (countSum s) nodes [k])
    (hl : ∀ i (h : i < (keySymbols s).length),
      nodeIn nodes i = leafNode (s.freqAt (keySymbols s)[i]) (keySymbols s)[i]) :
    TreeOk (complete (commitTree (keySymbols s).length nodes [k] s)) ∧
      k.2 = 2 * (keySymbols s).length - 2 ∧
      (nodeIn nodes (2 * (keySymbols s).length - 2)).f.toNat = countSum s := by
  refine treeOk_commit s (List.length_pos_of_ne_nil h0) hi ?_ ?_
  · intro i h; rw [hl i h]; simp [leafNode]
  · intro i h j hj
    rw [hl i h, hl j (by omega)]
    have h1 := List.pairwise_iff_getElem.1 (keySymbols_sorted s) j i (by omega) h hj
    have h2 := keySymbols_lt s (keySymbols s)[i] (List.getElem_mem h)
    simp [leafNode]; omega

end Sys2Proof.Machine
end

