-- ==== Sys2Proof/Laws/Invariants.lean ====
section
/-! SUPPORT. How each part of a step treats the invariants of Safety: a completion, a failing completion, a command, and an
effect of the host. -/

namespace Sys2Proof.Machine

/-! ### What the host leaves of the tree and the code table (R79) -/

theorem HostEffect.tree {s b : State} (h : HostEffect s b) :
    b.treeValid = s.treeValid ∧ b.node = s.node ∧ b.root = s.root ∧ b.nnode = s.nnode ∧ b.nleaf = s.nleaf ∧
      b.codesValid = s.codesValid ∧ b.clen = s.clen ∧ b.code = s.code ∧ b.codeMaxLen = s.codeMaxLen := by
  cases h <;> simp

theorem HostMoves.tree {s b : State} (h : HostMoves s b) :
    b.treeValid = s.treeValid ∧ b.node = s.node ∧ b.root = s.root ∧ b.nnode = s.nnode ∧ b.nleaf = s.nleaf ∧
      b.codesValid = s.codesValid ∧ b.clen = s.clen ∧ b.code = s.code ∧ b.codeMaxLen = s.codeMaxLen := by
  obtain ⟨_, _, _, _, rfl⟩ := h; simp

/-! ### Registers and memories -/

theorem memoriesOk_iff (s : State) : memoriesOk s = true ↔
    Table.wf Config.nsym s.freq = true ∧ Table.wf Config.nodeMax s.node = true ∧
      Table.wf Config.nsym s.clen = true ∧ Table.wf Config.nsym s.code = true ∧ Memory.wf s.inbuf = true ∧
      Memory.wf s.outbuf = true := by
  simp [memoriesOk, and_assoc]

theorem drawsOk_iff (s : State) : drawsOk s = true ↔
    s.freq.fill < s.draws ∧ s.node.fill < s.draws ∧ s.clen.fill < s.draws ∧ s.code.fill < s.draws ∧
      s.inbuf.fill < s.draws ∧ s.outbuf.fill < s.draws := by
  simp [drawsOk, and_assoc]

/-- A successful completion of a state with sound memories and OUT_LEN. -/
theorem ShapeInv.complete {s : State} (hm : memoriesOk s = true) (ho : s.outLen.toNat ≤ 8 * Config.bufBytes)
    (hd : drawsOk s = true) : ShapeInv (complete s) :=
  ⟨hm, rfl, nofun, nofun, fun _ => rfl, by simp, fun _ => rfl, ho, hd⟩

theorem ShapeInv.raise {s : State} (c : FailingCommand) (f : Failure) (h : ShapeInv s) :
    ShapeInv (raiseFailure c f s) := by
  have hm := (memoriesOk_iff s).1 h.memories
  have hd := (drawsOk_iff s).1 h.draws
  have hr := resultCode_le f.cause
  have hr0 := resultCode_pos f.cause
  have ho := h.out_len
  refine ⟨?_, rfl, nofun, nofun, fun _ => rfl, hr, fun h => absurd h hr0, ?_, ?_⟩
  · rw [memoriesOk_iff]
    rcases failureEffects_cases c f.cause s with ⟨_, _, h⟩ | ⟨_, _, h⟩ | ⟨_, h⟩ | ⟨_, _, h⟩ | ⟨_, _, h⟩ | ⟨_, h⟩ <;>
      simp [raiseFailure, h, hm]
    rfl
  · rcases failureEffects_cases c f.cause s with ⟨_, _, h⟩ | ⟨_, _, h⟩ | ⟨_, h⟩ | ⟨_, _, h⟩ | ⟨_, _, h⟩ | ⟨_, h⟩ <;>
      simp [raiseFailure, h, ho]
  · rw [drawsOk_iff]
    rcases failureEffects_cases c f.cause s with ⟨_, _, h⟩ | ⟨_, _, h⟩ | ⟨_, h⟩ | ⟨_, _, h⟩ | ⟨_, _, h⟩ | ⟨_, h⟩ <;>
      simp [raiseFailure, h, hd] <;> omega

/-- Every command keeps the registers and memories sound. -/
theorem ShapeInv.exec {s t : State} {i : Instr} (h : ShapeInv s) (he : exec i s = .next t) : ShapeInv t := by
  have hm := (memoriesOk_iff s).1 h.memories
  have hd := (drawsOk_iff s).1 h.draws
  have ho := h.out_len
  cases i with
  | nop => cases he; exact .complete h.memories ho h.draws
  | srst => cases he; refine .complete h.memories (by simp [softReset]) h.draws
  | fclr =>
    cases he; refine .complete ?_ ho h.draws
    rw [memoriesOk_iff]; exact ⟨Table.wf_putFirst (by rw [List.length_replicate]) hm.1, hm.2⟩
  | fset a =>
    cases he; refine .complete ?_ ho h.draws
    rw [memoriesOk_iff]; exact ⟨Table.wf_put _ a.isLt hm.1, hm.2⟩
  | fdel a =>
    cases he; refine .complete ?_ ho h.draws
    rw [memoriesOk_iff]; exact ⟨Table.wf_put _ a.isLt hm.1, hm.2⟩
  | build =>
    rcases execBuild_cases s with ⟨_, hx⟩ | ⟨_, nodes, k, hx, hi, _⟩ | ⟨_, _, _, hx, _⟩ <;>
      simp only [Machine.exec, hx] at he <;> cases he
    · exact h.raise _ _
    · refine .complete ?_ ho h.draws
      rw [memoriesOk_iff]
      have := hi.size; have := hi.few; simp at *
      exact ⟨hm.1, Table.wf_putFirst (by simp [Config.nodeMax]; omega) hm.2.1, hm.2.2⟩
    · exact h.raise _ _
  | genc =>
    simp only [Machine.exec, execGenc] at he
    split at he
    · split at he <;> cases he
      refine .complete ?_ ho h.draws
      rw [memoriesOk_iff]
      exact ⟨hm.1, hm.2.1, Table.wf_putFirst (by rw [lengthTable, List.length_map, List.length_range]) hm.2.2.1,
        Table.wf_putFirst (by rw [bitsTable, List.length_map, List.length_range]) hm.2.2.2.1, hm.2.2.2.2⟩
    · cases he; exact h.raise _ _
  | enc m =>
    simp only [Machine.exec, execEnc] at he
    split at he
    · cases he; exact h.raise _ _
    · split at he
      · cases he; exact h.raise _ _
      · rcases encodeFrom_cases s (bitCapacity m) s.inLen.toNat 0 0 (Nat.zero_le _) with
          ⟨bits, hx, _, _, hl⟩ | ⟨k, _, _, _, _, ⟨_, hx⟩ | ⟨_, _, hx⟩⟩ <;> simp only [hx] at he <;> cases he
        · have hb := length_streamBytes_le m bits (by omega)
          refine .complete ?_ ?_ h.draws
          · rw [memoriesOk_iff]
            exact ⟨hm.1, hm.2.1, hm.2.2.1, hm.2.2.2.1, hm.2.2.2.2.1, Table.wf_putFirst hb hm.2.2.2.2.2⟩
          · simp only [commitEncoding, BitVec.toNat_ofNat]
            have : bitCapacity m ≤ 8 * Config.bufBytes := by cases m <;> decide
            have := Nat.mod_le bits.length (2 ^ 32)
            omega
        · exact h.raise _ _
        · exact h.raise _ _
  | dec m =>
    simp only [Machine.exec, execDec] at he
    split at he
    · cases he; exact h.raise _ _
    · split at he
      · cases he; exact h.raise _ _
      · split at he
        · cases he; exact h.raise _ _
        · next syms hx =>
          cases he
          have hl := decodeFrom_length hx (by simp)
          simp only [Nat.zero_add] at hl
          refine .complete ?_ ?_ h.draws
          · rw [memoriesOk_iff]
            exact ⟨hm.1, hm.2.1, hm.2.2.1, hm.2.2.2.1, hm.2.2.2.2.1, Table.wf_putFirst hl hm.2.2.2.2.2⟩
          · simp only [commitDecoding, BitVec.toNat_ofNat]
            have := Nat.mod_le syms.length (2 ^ 32)
            omega
  | move =>
    cases he; refine .complete ?_ ho ?_
    · rw [memoriesOk_iff]; exact ⟨hm.1, hm.2.1, hm.2.2.1, hm.2.2.2.1, hm.2.2.2.2.2, hm.2.2.2.2.2⟩
    · rw [drawsOk_iff]; exact ⟨hd.1, hd.2.1, hd.2.2.1, hd.2.2.2.1, hd.2.2.2.2.2, hd.2.2.2.2.2⟩

theorem ShapeInv.moves {b t : State} (hm : HostMoves b t) (h : ShapeInv b) : ShapeInv t := by
  obtain ⟨_, _, _, _, rfl⟩ := hm
  exact ⟨h.memories, h.busy_pending, h.busy_not_done, h.pending_last, h.reset_idle, h.result_code, h.success_info,
    h.out_len, h.draws⟩

/-- A host access outside reset keeps the registers and memories sound. -/
theorem ShapeInv.effect {s b : State} (hb : HostEffect s b) (h : ShapeInv s) (hr : s.rstAsserted = false) :
    ShapeInv b := by
  have hm := (memoriesOk_iff s).1 h.memories
  have hd := (drawsOk_iff s).1 h.draws
  cases hb with
  | unchanged => exact h
  | drawn _ =>
    exact ⟨h.memories, h.busy_pending, h.busy_not_done, h.pending_last, h.reset_idle, h.result_code, h.success_info,
      h.out_len, by rw [drawsOk_iff]; simp; omega⟩
  | accepted w hb =>
    exact ⟨h.memories, rfl, fun _ => rfl, fun w h => by cases h; rfl, fun h => by simp [hr] at h, h.result_code,
      h.success_info, h.out_len, by rw [drawsOk_iff]; simp; omega⟩
  | inbuf k v _ hk =>
    exact ⟨(by
      rw [memoriesOk_iff]
      exact ⟨hm.1, hm.2.1, hm.2.2.1, hm.2.2.2.1, writeInbuf_wf _ hk hm.2.2.2.2.1, hm.2.2.2.2.2⟩),
      h.busy_pending, h.busy_not_done, h.pending_last, h.reset_idle, h.result_code, h.success_info, h.out_len,
      h.draws⟩
  | dropped _ | irqEn _ | irqStatus _ | data _ _ | inLen _ _ =>
    exact ⟨h.memories, h.busy_pending, h.busy_not_done, h.pending_last, h.reset_idle, h.result_code, h.success_info,
      h.out_len, h.draws⟩

/-! ### The tree (R47) -/

theorem TreeOk.congr {s t : State} (h : TreeOk s) (h1 : t.node = s.node) (h2 : t.root = s.root)
    (h3 : t.nnode = s.nnode) (h4 : t.nleaf = s.nleaf) : TreeOk t := by
  have hn : t.nodeAt = s.nodeAt := by funext k; simp [State.nodeAt, h1]
  constructor <;> simp only [hn, h2, h3, h4]
  exacts [h.leaf_count, h.node_count, h.root_index, h.leaf_shape, h.leaf_order, h.internal_shape, h.internal_children,
    h.internal_sum, h.one_parent, h.root_no_parent]

theorem TreeInv.congr {s t : State} (h : TreeInv s) (h0 : t.treeValid = s.treeValid) (h1 : t.node = s.node)
    (h2 : t.root = s.root) (h3 : t.nnode = s.nnode) (h4 : t.nleaf = s.nleaf) : TreeInv t :=
  ⟨fun hv => (h.tree (h0 ▸ hv)).congr h1 h2 h3 h4, fun hv => by rw [h2, h3, h4]; exact h.noTree (h0 ▸ hv)⟩

theorem TreeInv.of_noTree {t : State} (h : t.treeValid = false) (h2 : t.root = 0#9) (h3 : t.nnode = 0#10)
    (h4 : t.nleaf = 0#9) : TreeInv t :=
  ⟨fun hv => by simp [h] at hv, fun _ => ⟨h2, h3, h4⟩⟩

theorem TreeInv.raise {s : State} (c : FailingCommand) (f : Failure) (h : TreeInv s) :
    TreeInv (raiseFailure c f s) := by
  rcases failureEffects_cases c f.cause s with
    ⟨_, _, hf⟩ | ⟨_, _, hf⟩ | ⟨_, hf⟩ | ⟨_, _, hf⟩ | ⟨_, _, hf⟩ | ⟨_, hf⟩
  · refine .of_noTree ?_ ?_ ?_ ?_ <;> simp [raiseFailure, hf]
  · refine .of_noTree ?_ ?_ ?_ ?_ <;> simp [raiseFailure, hf]
  all_goals refine h.congr ?_ ?_ ?_ ?_ ?_ <;> simp [raiseFailure, hf]

/-- Every command keeps R47. -/
theorem TreeInv.exec {s t : State} {i : Instr} (h : TreeInv s) (he : exec i s = .next t) : TreeInv t := by
  cases i with
  | nop | fclr | fset _ | fdel _ | move => cases he; exact h.congr rfl rfl rfl rfl rfl
  | srst => cases he; exact .of_noTree rfl rfl rfl rfl
  | build =>
    rcases execBuild_cases s with ⟨_, hx⟩ | ⟨h0, nodes, k, hx, hi, hl⟩ | ⟨_, _, _, hx, _⟩ <;>
      simp only [Machine.exec, hx] at he <;> cases he
    · exact h.raise _ _
    · exact ⟨fun _ => (build_treeOk s h0 hi hl).1, nofun⟩
    · exact h.raise _ _
  | genc =>
    simp only [Machine.exec, execGenc] at he
    split at he
    · split at he <;> cases he
      exact h.congr rfl rfl rfl rfl rfl
    · cases he; exact h.raise _ _
  | enc m =>
    simp only [Machine.exec, execEnc] at he
    repeat' split at he
    all_goals cases he
    all_goals first | exact h.raise _ _ | exact h.congr rfl rfl rfl rfl rfl
  | dec m =>
    simp only [Machine.exec, execDec] at he
    repeat' split at he
    all_goals cases he
    all_goals first | exact h.raise _ _ | exact h.congr rfl rfl rfl rfl rfl

/-! ### The code table (R48) -/

/-- The code table is the one GENC derives, entry by entry. -/
theorem codesFromTree_iff {s : State} (hv : s.treeValid = true) {codes : List Coded}
    (hc : treeCodes s.nodeAt s.root.toNat = some codes) :
    CodesFromTree s ↔ ∀ a, a < 256 → lengthFor codes a = s.clenAt a ∧ bitsFor codes a = s.codeAt a := by
  have hx : Machine.exec .genc s = .next (complete (commitCodes codes s)) := by
    simp only [Machine.exec, execGenc, hv, if_true, hc]
  constructor
  · rintro ⟨t, ht, -, h⟩ a ha
    rw [hx] at ht; cases ht
    have h1 := commitCodes_tables codes s a ha
    have h2 := h a ha
    simp only [complete_clenAt, complete_codeAt] at h2
    exact ⟨h1.1.symm.trans h2.1, h1.2.symm.trans h2.2⟩
  · intro h
    refine ⟨_, hx, rfl, fun a ha => ?_⟩
    have h1 := commitCodes_tables codes s a ha
    simp only [complete_clenAt, complete_codeAt]
    rw [h1.1, h1.2]; exact h a ha

/-- The bits after a code that GENC writes are 0, and a symbol that is no leaf has none (R173, R174). -/
theorem TreeOk.getMsbD_after {s : State} (T : TreeOk s) {codes : List Coded}
    (hc : treeCodes s.nodeAt s.root.toNat = some codes) {a j : Nat} (ha : a < 256)
    (hj : ((commitCodes codes s).clenAt a).toNat ≤ j) : ((commitCodes codes s).codeAt a).getMsbD j = false := by
  obtain ⟨codes', hc', h1, h2⟩ := T.treeCodes_spec
  rw [hc] at hc'; cases hc'
  obtain ⟨e1, e2⟩ := commitCodes_tables codes s a ha
  rw [e2]
  cases hcf : codeFor codes a with
  | none => simp [bitsFor, hcf]
  | some p =>
    obtain ⟨k, hk, rfl⟩ : ∃ k, k < s.nleaf.toNat ∧ (s.nodeAt k).sym.toNat = a := by
      by_contra hne
      have := h2 a (fun k hk e => hne ⟨k, hk, e⟩)
      simp [hcf] at this
    obtain ⟨p', hcf', hi⟩ := h1 k hk
    rw [hcf] at hcf'; cases hcf'
    have hb := hi.length T hk
    have hl := (codeString_commitCodes s ha hcf hb.2.1).2
    simp only [bitsFor, hcf]
    rw [getMsbD_codeOfBits p (by omega), List.getD_eq_getElem?_getD, List.getElem?_eq_none (by omega)]; rfl

/-- The table GENC writes is sound and is the tree's (R175). -/
theorem genc_codesOk {s : State} (hv : s.treeValid = true) (T : TreeOk s) {codes : List Coded}
    (hc : treeCodes s.nodeAt s.root.toNat = some codes) :
    CodesOk (commitCodes codes s) ∧ CodesFromTree (commitCodes codes s) := by
  obtain ⟨codes', -, hc', h1, h2⟩ := genc_spec hv T
  rw [hc] at hc'; cases hc'
  have hnode : (commitCodes codes s).nodeAt = s.nodeAt := rfl
  have hnl : (commitCodes codes s).nleaf = s.nleaf := rfl
  have hleaf : ∀ a, a < 256 → 1 ≤ ((commitCodes codes s).clenAt a).toNat →
      ∃ k, k < s.nleaf.toNat ∧ (s.nodeAt k).sym.toNat = a := by
    intro a ha h
    by_contra hne
    have hz : ((commitCodes codes s).clenAt a).toNat = 0 := by
      rw [(commitCodes_tables codes s a ha).1]
      simp [lengthFor, h2 a (fun k hk e => hne ⟨k, hk, e⟩)]
    omega
  refine ⟨⟨?_, ?_, fun a ha j _ hle => T.getMsbD_after hc ha hle, (commitCodes_maxLen codes s).1,
    (commitCodes_maxLen codes s).2⟩, ?_⟩
  · intro a ha
    rw [hnode, hnl]
    refine ⟨hleaf a ha, ?_⟩
    rintro ⟨k, hk, rfl⟩
    obtain ⟨p, hi, _, _, hl⟩ := h1 k hk
    have := hi.length T hk
    omega
  · intro a ha b hb hab h h'
    obtain ⟨j, hj, rfl⟩ := hleaf a ha h
    obtain ⟨k, hk, rfl⟩ := hleaf b hb h'
    obtain ⟨p, hi, _, hs, _⟩ := h1 j hj
    obtain ⟨q, hi', _, hs', _⟩ := h1 k hk
    rw [hs, hs']
    exact hi.not_prefix T hj hk (by rintro rfl; exact hab rfl) hi'
  · rw [codesFromTree_iff (s := commitCodes codes s) (codes := codes) hv hc]
    intro a ha
    exact ⟨(commitCodes_tables codes s a ha).1.symm, (commitCodes_tables codes s a ha).2.symm⟩

theorem CodesOk.congr {s t : State} (h : CodesOk s) (h1 : t.node = s.node) (h4 : t.nleaf = s.nleaf)
    (h5 : t.clen = s.clen) (h6 : t.code = s.code) (h7 : t.codeMaxLen = s.codeMaxLen) : CodesOk t := by
  have hn : t.nodeAt = s.nodeAt := by funext k; simp [State.nodeAt, h1]
  have hl : t.clenAt = s.clenAt := by funext k; simp [State.clenAt, h5]
  have hc : t.codeAt = s.codeAt := by funext k; simp [State.codeAt, h6]
  constructor <;> simp only [codeString, hn, hl, hc, h4, h7]
  exacts [h.coded_iff_leaf, h.prefix_free, h.zero_after, h.max_bound, h.max_reached]

theorem CodesInv.congr {s t : State} (hT : TreeInv s) (h : CodesInv s) (h0 : t.treeValid = s.treeValid)
    (h1 : t.node = s.node) (h2 : t.root = s.root) (h4 : t.nleaf = s.nleaf) (hcv : t.codesValid = s.codesValid)
    (h5 : t.clen = s.clen) (h6 : t.code = s.code) (h7 : t.codeMaxLen = s.codeMaxLen) : CodesInv t := by
  have hn : t.nodeAt = s.nodeAt := by funext k; simp [State.nodeAt, h1]
  have hl : t.clenAt = s.clenAt := by funext k; simp [State.clenAt, h5]
  have hc : t.codeAt = s.codeAt := by funext k; simp [State.codeAt, h6]
  refine ⟨fun hv => ?_, fun hv => by rw [h7]; exact h.noCodes (hcv ▸ hv)⟩
  obtain ⟨a, b, c⟩ := h.codes (hcv ▸ hv)
  refine ⟨h0 ▸ a, b.congr h1 h4 h5 h6 h7, ?_⟩
  obtain ⟨codes, hco, _⟩ := (hT.tree a).treeCodes_spec
  rw [codesFromTree_iff a hco] at c
  rw [codesFromTree_iff (h0 ▸ a) (codes := codes) (by rw [hn, h2]; exact hco), hl, hc]
  exact c

theorem CodesInv.of_noCodes {t : State} (h : t.codesValid = false) (h2 : t.codeMaxLen = 0#9) : CodesInv t :=
  ⟨fun hv => by simp [h] at hv, fun _ => h2⟩

theorem CodesInv.raise {s : State} (c : FailingCommand) (f : Failure) (hT : TreeInv s) (h : CodesInv s) :
    CodesInv (raiseFailure c f s) := by
  rcases failureEffects_cases c f.cause s with
    ⟨_, _, hf⟩ | ⟨_, _, hf⟩ | ⟨_, hf⟩ | ⟨_, _, hf⟩ | ⟨_, _, hf⟩ | ⟨_, hf⟩
  · refine .of_noCodes ?_ ?_ <;> simp [raiseFailure, hf]
  · refine .of_noCodes ?_ ?_ <;> simp [raiseFailure, hf]
  · refine .of_noCodes ?_ ?_ <;> simp [raiseFailure, hf]
  all_goals refine h.congr hT ?_ ?_ ?_ ?_ ?_ ?_ ?_ ?_ <;> simp [raiseFailure, hf]

/-- Every command keeps R48. -/
theorem CodesInv.exec {s t : State} {i : Instr} (hT : TreeInv s) (h : CodesInv s) (he : exec i s = .next t) :
    CodesInv t := by
  cases i with
  | nop | fclr | fset _ | fdel _ | move => cases he; exact h.congr hT rfl rfl rfl rfl rfl rfl rfl rfl
  | srst => cases he; exact .of_noCodes rfl rfl
  | build =>
    rcases execBuild_cases s with ⟨_, hx⟩ | ⟨h0, nodes, k, hx, hi, hl⟩ | ⟨_, _, _, hx, _⟩ <;>
      simp only [Machine.exec, hx] at he <;> cases he
    · exact h.raise _ _ hT
    · exact .of_noCodes rfl rfl
    · exact h.raise _ _ hT
  | genc =>
    simp only [Machine.exec, execGenc] at he
    split at he
    · next hv =>
      split at he <;> cases he
      next codes hc =>
      obtain ⟨a, b⟩ := genc_codesOk hv (hT.tree hv) hc
      refine ⟨fun _ => ⟨hv, a.congr (by simp) (by simp) (by simp) (by simp) (by simp), ?_⟩, nofun⟩
      rw [codesFromTree_iff (s := commitCodes codes s) hv hc] at b
      rw [codesFromTree_iff (s := complete (commitCodes codes s)) hv hc]
      exact b
    · cases he; exact h.raise _ _ hT
  | enc m =>
    simp only [Machine.exec, execEnc] at he
    repeat' split at he
    all_goals cases he
    all_goals first | exact h.raise _ _ hT | exact h.congr hT rfl rfl rfl rfl rfl rfl rfl rfl
  | dec m =>
    simp only [Machine.exec, execDec] at he
    repeat' split at he
    all_goals cases he
    all_goals first | exact h.raise _ _ hT | exact h.congr hT rfl rfl rfl rfl rfl rfl rfl rfl

end Sys2Proof.Machine
end

