-- ==== Sys2Proof/Laws/PerInstr.lean ====
section
/-! SUPPORT. Statements about every command as syntax, one lemma per constructor of Instr: its word is legal, so the
assembler never emits an illegal word (spec/30_encoding.md R103, R106). -/

namespace Sys2Proof.Laws.EncodesLegal

/-- The word of the command matches a row of the opcode map. -/
def Statement (i : Instr) : Prop := legalWord (encode i) = true

theorem nop : Statement .nop := by unfold Statement; decide

theorem srst : Statement .srst := by unfold Statement; decide

theorem fclr : Statement .fclr := by unfold Statement; decide

theorem fset (sym : Symbol) : Statement (.fset sym) := by
  have h : commandWord 0x03#8 sym &&& 0xFFFFFF00#32 = 0x03000000#32 := by revert sym; decide +kernel
  simp only [Statement, legalWord, opRows, List.any_eq_true]
  exact ⟨⟨"FSET", 0x03000000#32, 0xFFFFFF00#32⟩, by simp, by simp only [OpRow.holds, encode, h, beq_self_eq_true]⟩

theorem fdel (sym : Symbol) : Statement (.fdel sym) := by
  have h : commandWord 0x04#8 sym &&& 0xFFFFFF00#32 = 0x04000000#32 := by revert sym; decide +kernel
  simp only [Statement, legalWord, opRows, List.any_eq_true]
  exact ⟨⟨"FDEL", 0x04000000#32, 0xFFFFFF00#32⟩, by simp, by simp only [OpRow.holds, encode, h, beq_self_eq_true]⟩

theorem build : Statement .build := by unfold Statement; decide

theorem genc : Statement .genc := by unfold Statement; decide

theorem enc (mode : Mode) : Statement (.enc mode) := by unfold Statement; cases mode <;> decide

theorem dec (mode : Mode) : Statement (.dec mode) := by unfold Statement; cases mode <;> decide

theorem move : Statement .move := by unfold Statement; decide

end Sys2Proof.Laws.EncodesLegal
end

