-- ==== Sys2Proof/Tests/Slice0.lean ====
section
/-! SUPPORT. The model's own tests: ill-formed terms that the checks refuse, words written out from the spec's encodings,
one step a test on a small state with the results of spec/95_test_vectors.md, and for every statement with hypotheses a
state that meets them. -/

namespace Sys2Proof.Tests

open Sys2Proof Sys2Proof.Machine

-- The kernel evaluations run one after another, in one thread.
set_option Elab.async false

/-! ### Well-formedness (R104, R106): one ill-formed term for each check -/

/-- R106: "A `sym` outside 0 to 255 is an assembly error". -/
theorem test_wf_fset_256_refused :
    (AsmLine.fset (.num 256)).wellFormed = false ∧ assemble (.fset (.num 256)) = none := by decide

theorem test_wf_fdel_256_refused :
    (AsmLine.fdel (.num 256)).wellFormed = false ∧ assemble (.fdel (.num 256)) = none := by decide

/-- A quoted character without an ASCII code. -/
theorem test_wf_non_ascii_refused :
    (AsmLine.fset (.chr 'é')).wellFormed = false ∧ (AsmLine.fset (.chr 'a')).wellFormed = true := by decide

/-- R104, one word of each class: an undefined opcode, a nonzero RSV, a nonzero ARG, a nonzero ARG[7:1]. -/
theorem test_wf_illegal_words_refused :
    legalWord 0x05000000#32 = false ∧ legalWord 0x00010000#32 = false ∧ legalWord 0x10000001#32 = false ∧
      legalWord 0x20000002#32 = false := by decide

/-- The canonical form refuses indices that do not rise, and an index beyond the memory. -/
theorem test_wf_memory_refused :
    Memory.wf { cells := [(4, 0x00#8), (4, 0x01#8)], fill := 0 } = false ∧
      Memory.wf { cells := [(16384, 0x00#8)], fill := 0 } = false := by decide

/-! ### The pseudo-instructions (R108) -/

/-- A map of one key and the LOADIN of five bytes, written out from the expansions; the count of LOADBITS is written last. -/
theorem test_pseudo_instructions :
    buildTree [(0x61#8, 5#32)] = [.wr 0x0004#16 0x02000000#32, .wait, .wr 0x0014#16 5#32,
      .wr 0x0004#16 0x03000061#32, .wait, .wr 0x0004#16 0x10000000#32, .wait] ∧
    decodeStream .P (.bits 37 [1#8, 2#8, 3#8, 4#8, 5#8]) = [.wr 0x8000#16 0x04030201#32, .wr 0x8004#16 0x00000005#32,
      .wr 0x0018#16 5#32, .wr 0x0018#16 37#32, .wr 0x0004#16 0x30000000#32, .wait] := by decide

/-- Word 8193 of a LOADIN lies outside the window (R60): it is no write of CMD. -/
theorem test_loadin_beyond_the_window :
    writeAt (0x8000 + 4 * 8191) 7#32 = .wr 0xFFFC#16 7#32 ∧
      writeAt (0x8000 + 4 * 8193) 7#32 = .busWrite (Config.huffBase + 0x10004) 4 7#32 := ⟨rfl, rfl⟩

/-! ### Decoding: the bit patterns of R103 written out -/

theorem test_decode_control_words :
    decode (0b00000000#8 ++ 0b0000000000000000#16 ++ 0b00000000#8) = .ok .nop ∧
      decode (0b00000001#8 ++ 0b0000000000000000#16 ++ 0b00000000#8) = .ok .srst ∧
      decode (0b01000000#8 ++ 0b0000000000000000#16 ++ 0b00000000#8) = .ok .move := by decide

theorem test_decode_freq_table_words :
    decode (0b00000010#8 ++ 0b0000000000000000#16 ++ 0b00000000#8) = .ok .fclr ∧
      decode (0b00000011#8 ++ 0b0000000000000000#16 ++ 0b10000001#8) = .ok (.fset 0x81#8) ∧
      decode (0b00000100#8 ++ 0b0000000000000000#16 ++ 0b01111110#8) = .ok (.fdel 0x7E#8) := by decide

theorem test_decode_tree_words :
    decode (0b00010000#8 ++ 0b0000000000000000#16 ++ 0b00000000#8) = .ok .build ∧
      decode (0b00010001#8 ++ 0b0000000000000000#16 ++ 0b00000000#8) = .ok .genc := by decide

theorem test_decode_stream_words :
    decode (0b00100000#8 ++ 0b0000000000000000#16 ++ 0b00000000#8) = .ok (.enc .P) ∧
      decode (0b00100000#8 ++ 0b0000000000000000#16 ++ 0b00000001#8) = .ok (.enc .A) ∧
      decode (0b00110000#8 ++ 0b0000000000000000#16 ++ 0b00000000#8) = .ok (.dec .P) ∧
      decode (0b00110000#8 ++ 0b0000000000000000#16 ++ 0b00000001#8) = .ok (.dec .A) := by decide

/-- V1's illegal words. -/
theorem test_decode_illegal_words :
    decode 0x12000000#32 = .error (.opcode 0x12#8) ∧ decode 0x300000FF#32 = .error (.argument 0x30#8 0xFF#8) ∧
      decode 0x10000001#32 = .error (.argument 0x10#8 0x01#8) := by decide

/-! ### Small states -/

/-- A symbol's leaf. -/
def leaf (f : Word) (sym : Symbol) : Node := ⟨f, true, sym, 0#9, 0#9⟩

/-- An internal node. -/
def internal (f : Word) (left right : NodeIdx) : Node := ⟨f, false, 0#8, left, right⟩

/-- After reset, with a frequency map. -/
def mapped (l : List (Nat × Word)) (valid : BitVec 256) : State :=
  { State.reset with freq := ⟨l, 0⟩, fvalid := valid }

/-- V5 B1: a 1, b 1. -/
def b1Map : State := mapped [(0x61, 1#32), (0x62, 1#32)] (0b11#256 <<< 0x61)

/-- V5 B2: a 1, b 1, c 2. -/
def b2Map : State := mapped [(0x61, 1#32), (0x62, 1#32), (0x63, 2#32)] (0b111#256 <<< 0x61)

/-- V5 B9: A 0x7FFFFFFF, B 0x80000000, C 1. -/
def b9Map : State := mapped [(0x41, 0x7FFFFFFF#32), (0x42, 0x80000000#32), (0x43, 1#32)] (0b111#256 <<< 0x41)

/-- V5 B12: a 4. -/
def b12Map : State := mapped [(0x61, 4#32)] (1#256 <<< 0x61)

/-- The tree of V5 B1. -/
def b1Tree : State :=
  { b1Map with
    node := ⟨[(0, leaf 1#32 0x61#8), (1, leaf 1#32 0x62#8), (2, internal 2#32 0#9 1#9)], 0⟩,
    root := 2#9, nnode := 3#10, nleaf := 2#9, treeValid := true }

/-- The tree of V5 B2: the codes are a 10, b 11, c 0 (V6). -/
def b2Tree : State :=
  { b2Map with
    node := ⟨[(0, leaf 1#32 0x61#8), (1, leaf 1#32 0x62#8), (2, leaf 2#32 0x63#8), (3, internal 2#32 0#9 1#9),
      (4, internal 4#32 2#9 3#9)], 0⟩,
    root := 4#9, nnode := 5#10, nleaf := 3#9, treeValid := true }

/-- The tree of V5 B12, a single leaf. -/
def b12Tree : State :=
  { b12Map with
    node := ⟨[(0, leaf 4#32 0x61#8)], 0⟩, root := 0#9, nnode := 1#10, nleaf := 1#9, treeValid := true }

/-- The state with the code table entries a, b and z of V6 B1: a 0, b 1, z none. -/
def b1Coded : State :=
  { b1Tree with
    clen := ⟨[(0x61, 1#9), (0x62, 1#9), (0x7A, 0#9)], 0⟩, code := ⟨[(0x61, 0#256), (0x62, 1#256 <<< 255)], 0⟩,
    codesValid := true, codeMaxLen := 1#9 }

/-- With an input in INBUF and its length in IN_LEN. -/
def withInput (bytes : List Byte) (len : Word) (s : State) : State :=
  { s with inbuf := ⟨cellsFrom 0 bytes, 0⟩, inLen := len }

/-- The next state of a command, for tests; the state itself if it stops. -/
def after (i : Instr) (s : State) : State :=
  match exec i s with
  | .next t => t
  | .fault _ => s
  | .refused _ => s

/-- With the word accepted and `left` host operations to pass. -/
def busyWith (w : Word) (left : Nat) (ops : List HostOp) (s : State) : State :=
  { s with busyF := true, doneF := false, pend := some w, cmdLast := w, latency := left, hostOps := ops }

/-! ### One step each, with the results of spec/95_test_vectors.md -/

/-- V3: RESULT 0, STATUS 0x02, IRQ_STATUS 0x1. -/
theorem test_nop :
    let t := after .nop (busyWith 0#32 0 [] State.reset)
    (t.result, statusWord t, t.irqStatus) = (0x00#8, 0x02#32, 0x1#3) := by decide

/-- V3: after a failure, ERR stays in IRQ_STATUS and RESULT and ERR_INFO are 0. -/
theorem test_nop_after_failure :
    let t := after .nop { State.reset with result := 0x06#8, errInfo := 7#32, irqStatus := 0x3#3 }
    (t.result, t.errInfo, t.irqStatus) = (0x00#8, 0#32, 0x3#3) := by decide

/-- V3: IRQ_STATUS 0x1, IRQ_EN 7, `irq` 1, STATUS 0x02. -/
theorem test_srst :
    let t := after .srst { b1Coded with irqEn := 7#3, irqStatus := 7#3 }
    (t.irqStatus, t.irqEn, irq t, statusWord t) = (0x1#3, 7#3, true, 0x02#32) := by decide

/-- V3: NODE contents kept, FVALID all 0. -/
theorem test_srst_keeps_nodes :
    let t := after .srst b1Coded
    (linkWord (t.nodeAt 2), t.fvalid, t.nleaf, t.codeMaxLen) = (0x00010000#32, 0#256, 0#9, 0#9) := by decide

/-- V4: every FREQ word 0, every FVALID word 0; TREE_VALID unchanged. -/
theorem test_fclr :
    let t := after .fclr b1Tree
    (t.freqAt 0, t.freqAt 0x61, t.freqAt 255, t.fvalid, t.treeValid) = (0#32, 0#32, 0#32, 0#256, true) := by
  decide +kernel

/-- V4: FREQ['a'] = 4 and the word at 0x080C is 0x00000002. -/
theorem test_fset :
    let t := after (.fset 0x61#8) { State.reset with data := 4#32 }
    ((busReadAt 0x0584#16 4 t).1.data, (busReadAt 0x080C#16 4 t).1.data, t.data) = (4#32, 0x00000002#32, 4#32) := by
  decide

/-- V4: 0x0584 reads 0 and the word at 0x080C is 0x00000004 after FDEL 'a' of a and b. -/
theorem test_fdel :
    let t := after (.fdel 0x61#8) b1Map
    ((busReadAt 0x0584#16 4 t).1.data, (busReadAt 0x080C#16 4 t).1.data) = (0#32, 0x00000004#32) := by decide

/-- V5 B2: the leaf c comes before node 3. -/
theorem test_build_tie :
    let t := after .build b2Map
    (t.root, t.nnode, t.nleaf, linkWord (t.nodeAt 3), linkWord (t.nodeAt 4)) =
      (4#9, 5#10, 3#9, 0x00010000#32, 0x00030002#32) := by decide +kernel

/-- V5 B9: the second merge overflows. -/
theorem test_build_overflow :
    let t := after .build b9Map
    (t.result, t.errInfo, t.root, t.treeValid) = (0x09#8, 4#32, 0#9, false) := by decide +kernel

/-- V6 B2: a 10, b 11, c 0. -/
theorem test_genc :
    let t := after .genc b2Tree
    ((busReadAt 0x4C20#16 4 t).1.data, (busReadAt 0x4C40#16 4 t).1.data, (busReadAt 0x4C60#16 4 t).1.data,
      t.codeMaxLen) = (0x80000000#32, 0xC0000000#32, 0x00000000#32, 2#9) := by decide +kernel

/-- V6: from reset GENC gives NO_TREE. -/
theorem test_genc_no_tree :
    let t := after .genc State.reset
    (t.result, t.codesValid, t.irqStatus) = (0x05#8, false, 0x3#3) := by decide

/-- V7 B1: "ab" in mode P. -/
theorem test_enc_packed :
    let t := after (.enc .P) (withInput [0x61#8, 0x62#8] 2#32 b1Coded)
    (t.result, t.outLen, t.outByte 0) = (0x00#8, 2#32, 0x40#8) := by decide +kernel

/-- V7 B1: "zab" in mode A. -/
theorem test_enc_unknown_symbol :
    let t := after (.enc .A) (withInput [0x7A#8, 0x61#8, 0x62#8] 3#32 b1Coded)
    (t.result, t.errInfo, t.outLen) = (0x02#8, 0x7A000000#32, 0#32) := by decide +kernel

/-- V8 B1: "0110" in mode A is "abba". -/
theorem test_dec_characters :
    let t := after (.dec .A) (withInput [0x30#8, 0x31#8, 0x31#8, 0x30#8] 4#32 b1Tree)
    (t.outLen, t.outByte 0, t.outByte 1, t.outByte 2, t.outByte 3) = (4#32, 0x61#8, 0x62#8, 0x62#8, 0x61#8) := by
  decide +kernel

/-- V8 B1: "01x" in mode A. -/
theorem test_dec_bad_character :
    let t := after (.dec .A) (withInput [0x30#8, 0x31#8, 0x78#8] 3#32 b1Tree)
    (t.result, t.errInfo, t.outLen) = (0x03#8, 0x01000002#32, 0#32) := by decide +kernel

/-- V3: MOVE after ENC.P. -/
theorem test_move :
    let t := after .move { State.reset with outbuf := ⟨[(0, 0xFC#8), (1, 0x0B#8), (2, 0xBC#8), (3, 0xB4#8)], 1⟩,
                                            outLen := 32#32 }
    ((busReadAt 0x8000#16 4 t).1.data, t.inLen) = (0xB4BC0BFC#32, 32#32) := by decide

/-- V2: a misaligned read answers ERROR and 0, and a little-endian write. -/
theorem test_bus :
    (busReadAt 0x0002#16 4 State.reset).1 = ⟨.error, 0#32⟩ ∧
      (let t := (busWriteAt 0x8000#16 4 0x64636261#32 State.reset).2
       (t.inByte 0, t.inByte 1, t.inByte 2, t.inByte 3)) = (0x61#8, 0x62#8, 0x63#8, 0x64#8) := by decide

/-! ### Witnesses: for each statement with hypotheses, states and operands that meet them -/

/-- The command has a next state. -/
def runs (i : Instr) (s : State) : Bool :=
  match exec i s with
  | .next _ => true
  | .fault _ => false
  | .refused _ => false

theorem next_after {i : Instr} {s : State} (h : runs i s = true) : exec i s = .next (after i s) := by
  revert h
  simp only [runs, after]
  cases exec i s with
  | next t => exact fun _ => rfl
  | fault f => exact (nomatch ·)
  | refused r => exact (nomatch ·)

/-- One step's next state, for tests; the state itself if it stops. -/
def stepped (s : State) : State :=
  match step s with
  | .next t => t
  | .fault _ => s
  | .refused _ => s

/-! #### Encoding, reset and the invariants -/

theorem witness_IllegalWordsFailAndChangeNothingElse :
    let s := busyWith 0x05000000#32 0 [] State.reset
    legalWord 0x05000000#32 = false ∧ State.reset.busyF = false ∧ s.busyF = true ∧ s.pend = some 0x05000000#32 ∧ s.latency = 0 := by decide

theorem witness_AssemblerEmitsOnlyLegalWords :
    assemble (.fset (.num 255)) = some 0x030000FF#32 ∧ 255 ≤ 255 ∧ 'a'.toNat ≤ 127 ∧ 255 < 256 := by decide

/-- Asserted while a command runs, and released. -/
theorem witness_RstAbandonsTheCommandAndResets :
    let s := busyWith 0#32 1 [.assertRst] State.reset
    let t := { State.reset with rstAsserted := true, hostOps := [HostOp.releaseRst] }
    engineTurn s = false ∧ s.hostOps = HostOp.assertRst :: [] ∧
      engineTurn t = false ∧ t.hostOps = HostOp.releaseRst :: [] := by decide

theorem reset_shape : ShapeInv State.reset := by
  refine ⟨rfl, rfl, (nomatch ·), (fun _ => (nomatch ·)), (nomatch ·), ?_, fun _ => rfl, ?_, ?_⟩
  all_goals decide

theorem reset_tree : TreeInv State.reset :=
  ⟨(nomatch ·), fun _ => ⟨rfl, rfl, rfl⟩⟩

theorem reset_codes : CodesInv State.reset := ⟨(nomatch ·), fun _ => rfl⟩

theorem b1Tree_ok : TreeOk b1Tree := by constructor <;> decide +kernel

theorem b2Tree_ok : TreeOk b2Tree := by constructor <;> decide +kernel

theorem b12Tree_ok : TreeOk b12Tree := by constructor <;> decide +kernel

theorem busy_shape : ShapeInv (busyWith 0x00000000#32 0 [] State.reset) := by
  refine ⟨rfl, rfl, fun _ => rfl, fun _ h => Option.some.inj h, (nomatch ·), ?_, fun _ => rfl, ?_, ?_⟩
  all_goals decide

theorem step_busy_nop (s : State) :
    step (busyWith 0x00000000#32 0 [] s) = .next (after .nop (busyWith 0x00000000#32 0 [] s)) := rfl

theorem step_busy_genc (s : State) :
    step (busyWith 0x11000000#32 0 [] s) = exec .genc (busyWith 0x11000000#32 0 [] s) := rfl

/-- A state with a tree and its code table. -/
def coded (s : State) : State := commitCodes ((treeCodes s.nodeAt s.root.toNat).getD []) s

theorem coded_b1 : treeCodes b1Tree.nodeAt b1Tree.root.toNat = some [(0x61#8, [false]), (0x62#8, [true])] := by
  decide +kernel

theorem coded_b1_ok : CodesOk (coded b1Tree) ∧ CodesFromTree (coded b1Tree) :=
  genc_codesOk rfl b1Tree_ok (by rw [coded_b1]; rfl)

theorem witness_StepKeepsShapeInv :
    ShapeInv (busyWith 0x00000000#32 0 [] State.reset) ∧
      step (busyWith 0x00000000#32 0 [] State.reset) =
        .next (after .nop (busyWith 0x00000000#32 0 [] State.reset)) := ⟨busy_shape, step_busy_nop _⟩

theorem witness_StepKeepsTreeInv :
    TreeInv (busyWith 0x11000000#32 0 [] b1Tree) ∧
      step (busyWith 0x11000000#32 0 [] b1Tree) = .next (after .genc (busyWith 0x11000000#32 0 [] b1Tree)) :=
  ⟨⟨fun _ => b1Tree_ok.congr rfl rfl rfl rfl, (nomatch ·)⟩,
    (step_busy_genc _).trans (next_after (by decide +kernel))⟩

theorem busy_keeps {s : State} (hT : TreeInv s) (hC : CodesInv s) :
    TreeInv (busyWith 0x00000000#32 0 [] s) ∧ CodesInv (busyWith 0x00000000#32 0 [] s) ∧
      step (busyWith 0x00000000#32 0 [] s) = .next (after .nop (busyWith 0x00000000#32 0 [] s)) :=
  ⟨hT.congr rfl rfl rfl rfl rfl, hC.congr hT rfl rfl rfl rfl rfl rfl rfl rfl, step_busy_nop s⟩

theorem coded_b1_treeOk : TreeOk (coded b1Tree) := b1Tree_ok.congr rfl rfl rfl rfl

theorem coded_b1_valid : (coded b1Tree).treeValid = true := rfl

theorem coded_b1_tree : TreeInv (coded b1Tree) := ⟨fun _ => coded_b1_treeOk, (nomatch ·)⟩

theorem coded_b1_codes : CodesInv (coded b1Tree) := ⟨fun _ => ⟨rfl, coded_b1_ok⟩, (nomatch ·)⟩

theorem witness_StepKeepsCodesInv :
    TreeInv (busyWith 0x00000000#32 0 [] (coded b1Tree)) ∧ CodesInv (busyWith 0x00000000#32 0 [] (coded b1Tree)) ∧
      step (busyWith 0x00000000#32 0 [] (coded b1Tree)) =
        .next (after .nop (busyWith 0x00000000#32 0 [] (coded b1Tree))) :=
  busy_keeps coded_b1_tree coded_b1_codes

theorem witness_EveryCommandCompletes : TreeInv State.reset ∧ TreeInv (coded b1Tree) := ⟨reset_tree, coded_b1_tree⟩

theorem witness_BusyEngineBecomesIdle :
    ShapeInv (busyWith 0x00000000#32 0 [] State.reset) ∧ TreeInv (busyWith 0x00000000#32 0 [] State.reset) ∧
      (busyWith 0x00000000#32 0 [] State.reset).busyF = true :=
  ⟨busy_shape, reset_tree.congr rfl rfl rfl rfl rfl, rfl⟩

/-- `rst` asserted and the host at the operation. -/
def inReset (op : HostOp) : State := { State.reset with rstAsserted := true, hostOps := [op] }

theorem inReset_sound (op : HostOp) : ShapeInv (inReset op) ∧ TreeInv (inReset op) := by
  refine ⟨⟨rfl, rfl, (nomatch ·), (fun _ => (nomatch ·)), fun _ => rfl, ?_, fun _ => rfl, ?_, rfl⟩,
    reset_tree.congr rfl rfl rfl rfl rfl⟩
  · exact Nat.zero_le 9
  · exact Nat.zero_le _

/-- Each kind of access, and a sound state in which it stops. -/
theorem witness_OnlyAccessesDuringResetStop :
    (∀ op ∈ [HostOp.wr 0x0004#16 0#32, .rd 0x0000#16, .expect 0x000C#16 0#32, .wait, .busRead Config.huffBase 4,
        .busWrite (Config.huffBase + 65535) 1 0#32],
      (inReset op).rstAsserted = true ∧ (inReset op).busyF = false ∧ (inReset op).hostOps = op :: [] ∧
        IsWindowAccess op) ∧
    ShapeInv (inReset .wait) ∧ TreeInv (inReset .wait) ∧ step (inReset .wait) = .fault .accessDuringReset := by
  refine ⟨fun op h => ⟨rfl, rfl, rfl, ?_⟩, (inReset_sound _).1, (inReset_sound _).2, rfl⟩
  fin_cases h <;> simp [IsWindowAccess]

/-! #### Acceptance and the bus -/

theorem witness_StepRunsTheDecodedCommand :
    let s := busyWith 0x03000061#32 0 [.wait] State.reset
    let t := busyWith 0x03000061#32 9 [] State.reset
    s.busyF = true ∧ s.pend = some 0x03000061#32 ∧ decode 0x03000061#32 = .ok (.fset 0x61#8) ∧ s.latency = 0 ∧
      t.busyF = true ∧ t.pend = some 0x03000061#32 ∧ t.latency ≠ 0 ∧ t.hostOps = [] := by decide

/-- The host at an operation, with the engine idle. -/
def hostAt (op : HostOp) (s : State) : State := { s with hostOps := [op] }

theorem witness_CommandWriteIsAcceptedWhenIdle :
    let s := hostAt (.wr 0x0004#16 0x10000000#32) State.reset
    let t := busyWith 0x00000000#32 1 [.wr 0x0004#16 0x10000000#32] State.reset
    s.busyF = false ∧ s.rstAsserted = false ∧ s.hostOps = HostOp.wr 0x0004#16 0x10000000#32 :: [] ∧
      t.busyF = true ∧ t.latency ≠ 0 ∧ t.rstAsserted = false ∧
      t.hostOps = HostOp.wr 0x0004#16 0x10000000#32 :: [] := by decide

/-- Each clause, at the ends of the INBUF window and just outside it. -/
theorem witness_WritesWhileBusy :
    [0x0004#16, 0x0014#16, 0x0018#16, 0x8000#16, 0xBFFC#16, 0x0030#16, 0x0034#16, 0x7FFC#16, 0xC000#16, 0x0000#16,
        0xFFFC#16].all (fun off => off.extractLsb' 0 2 = 0#2) = true ∧
      ∀ off, let s := busyWith 0x00000000#32 1 [.wr off 7#32] State.reset
        s.busyF = true ∧ s.latency ≠ 0 ∧ s.rstAsserted = false ∧ s.hostOps = HostOp.wr off 7#32 :: [] :=
  ⟨by decide +kernel, fun _ => ⟨rfl, Nat.one_ne_zero, rfl, rfl⟩⟩

theorem witness_MisalignedOrNarrowAnswersError : (0x0002#16).extractLsb' 0 2 ≠ 0#2 ∧ 1 ≠ 4 := by decide

/-- A misaligned 4-byte read and a narrow write of the last byte. -/
theorem witness_MisalignedAndNarrowAccessesHaveNoEffect :
    let a := Config.huffBase + 2
    let b := Config.huffBase + 65532
    let s := hostAt (.busRead a 4) State.reset
    let t := hostAt (.busWrite b 1 7#32) State.reset
    (Config.huffBase ≤ a ∧ a < Config.huffBase + 65536 ∧ a % 4 ≠ 0 ∧ engineTurn s = false ∧
      s.rstAsserted = false ∧ s.hostOps = HostOp.busRead a 4 :: []) ∧
    (Config.huffBase ≤ b ∧ b < Config.huffBase + 65536 ∧ 1 ≠ 4 ∧ engineTurn t = false ∧
      t.rstAsserted = false ∧ t.hostOps = HostOp.busWrite b 1 7#32 :: []) := by
  refine ⟨⟨?_, ?_, ?_, rfl, rfl, rfl⟩, ⟨?_, ?_, by decide, rfl, rfl, rfl⟩⟩
  all_goals unfold Config.huffBase; omega

/-- Both ends of every reserved range, and both ends of the read-only locations. -/
theorem witness_ReservedAndReadOnlyLocations :
    [0x003C#16, 0x03FC#16, 0x0820#16, 0x0FFC#16, 0x2400#16, 0x3FFC#16, 0x6000#16, 0x7FFC#16].all (fun off =>
      off.extractLsb' 0 2 = 0#2 ∧
        ((0x003C ≤ off.toNat ∧ off.toNat ≤ 0x03FF) ∨ (0x0820 ≤ off.toNat ∧ off.toNat ≤ 0x0FFF) ∨
          (0x2400 ≤ off.toNat ∧ off.toNat ≤ 0x3FFF) ∨ (0x6000 ≤ off.toNat ∧ off.toNat ≤ 0x7FFF))) = true ∧
    [0x0000#16, 0x0008#16, 0x0038#16, 0x0400#16, 0x1000#16, 0x7FFC#16, 0xC000#16, 0xFFFC#16].all (fun off =>
      off.extractLsb' 0 2 = 0#2 ∧ off.toNat ∉ [0x0004, 0x0014, 0x0018, 0x0030, 0x0034] ∧
        ¬(0x8000 ≤ off.toNat ∧ off.toNat ≤ 0xBFFF)) = true ∧
    State.reset.busyF = false ∧ 9 ≤ 9 ∧ 10 ≤ 10 ∧ 8 ≤ 8 ∧ 7 ≤ 7 ∧ 3 ≤ 3 ∧
    (0xFFFFFFF9#32).extractLsb' 0 3 = (0x00000001#32).extractLsb' 0 3 := by decide +kernel

theorem witness_RegisterReadsAndWrites : State.reset.busyF = false := rfl

/-- Idle, and a bit beyond the fields. -/
theorem witness_StatusShowsTheFlags : b12Tree.busyF = false ∧ statusWord b12Tree = 0x50#32 ∧ 7 ≤ 7 := by decide

theorem witness_IrqStatusIsWriteOneToClear : (0b001#3).getLsbD 0 = true := rfl

/-- The last word of each buffer window and its neighbours. -/
theorem witness_BufferWindowsAreLittleEndian :
    4095 < 4096 ∧ State.reset.busyF = false ∧ 3 < 4 ∧ (16379 < 4 * 4095 ∨ 4 * 4095 + 4 ≤ 16379) := by decide

/-- The last entries of the windows. -/
theorem witness_FrequencyWindows : State.reset.busyF = false ∧ 255 < 256 ∧ 7 < 8 ∧ 31 < 32 := by decide

/-- A leaf, an internal node, and the last entry. -/
theorem witness_NodeWindows :
    b1Tree.busyF = false ∧ (b1Tree.nodeAt 1).leaf = true ∧ (b1Tree.nodeAt 2).leaf = false ∧ 510 < 511 := by decide

theorem witness_CodeWindows : State.reset.busyF = false ∧ 255 < 256 ∧ 7 < 8 ∧ 31 < 32 := by decide

/-- Every command's word, a location of its row, and a sound busy state. -/
theorem witness_ReadsWhileBusy :
    (∀ x ∈ [(0x00000000#32, Instr.nop, 0x0008#16), (0x01000000#32, .srst, 0x0034#16),
        (0x02000000#32, .fclr, 0x0400#16), (0x03000061#32, .fset 0x61#8, 0x081C#16), (0x04000061#32, .fdel 0x61#8, 0x07FC#16),
        (0x10000000#32, .build, 0x1FF8#16), (0x11000000#32, .genc, 0x5FFC#16), (0x20000000#32, .enc .P, 0xC000#16),
        (0x30000001#32, .dec .A, 0x001C#16), (0x40000000#32, .move, 0xBFFC#16)],
      let s := busyWith x.1 0 [] State.reset
      s.busyF = true ∧ s.pend = some x.1 ∧ decode x.1 = .ok x.2.1 ∧ x.2.2.extractLsb' 0 2 = 0#2) ∧
    ((busyWith 0x05000000#32 0 [] State.reset).busyF = true ∧
      (busyWith 0x05000000#32 0 [] State.reset).pend = some 0x05000000#32 ∧ legalWord 0x05000000#32 = false ∧
      (0xBFFC#16).extractLsb' 0 2 = 0#2) ∧
    ShapeInv (busyWith 0x00000000#32 0 [] State.reset) := ⟨by decide +kernel, by decide, busy_shape⟩

/-- An idle and a busy host turn. -/
theorem witness_HostCannotReachCommandState :
    let s := hostAt (.wr 0xC000#16 7#32) State.reset
    let t := busyWith 0x00000000#32 1 [.wr 0x0014#16 7#32] State.reset
    engineTurn s = false ∧ s.hostOps = HostOp.wr 0xC000#16 7#32 :: [] ∧ HostOp.wr 0xC000#16 7#32 ≠ .assertRst ∧
      engineTurn t = false ∧ t.hostOps = HostOp.wr 0x0014#16 7#32 :: [] ∧ HostOp.wr 0x0014#16 7#32 ≠ .assertRst ∧
      t.busyF = true ∧ (∃ s', step s = .next s') ∧ ∃ t', step t = .next t' := by
  refine ⟨rfl, rfl, ?_, rfl, rfl, ?_, rfl, ⟨_, rfl⟩, ⟨_, rfl⟩⟩ <;> decide

/-- Both outcomes of V9. -/
theorem witness_DataWriteRacesWithCompletion :
    ∀ s ∈ [busyWith 0x00000000#32 0 [.wr 0x0014#16 0x00000005#32] State.reset,
        busyWith 0x00000000#32 1 [.wr 0x0014#16 0x00000005#32] State.reset],
      s.busyF = true ∧ s.pend = some 0x00000000#32 ∧ s.rstAsserted = false ∧
        s.hostOps = [.wr 0x0014#16 0x00000005#32] := by decide

/-- A full buffer, and 5 bytes: a last word with three bytes of padding and a byte above it. -/
theorem witness_LoadinStoresTheInput :
    (∀ bytes ∈ [List.replicate 16384 0xFF#8, [1#8, 2#8, 3#8, 4#8, 5#8]],
      let s : State := { State.reset with hostOps := loadIn bytes ++ [.wait] }
      bytes.length ≤ 16384 ∧ s.busyF = false ∧ s.rstAsserted = false ∧ s.hostOps = loadIn bytes ++ [.wait]) ∧
    (4 < 5 ∧ 5 ≤ 7 ∧ 7 < 4 * ((5 + 3) / 4) ∧ 4 * ((5 + 3) / 4) ≤ 8) := by
  refine ⟨fun bytes h => ⟨?_, rfl, rfl, rfl⟩, by decide⟩
  obtain rfl | rfl : bytes = List.replicate 16384 0xFF#8 ∨ bytes = [1#8, 2#8, 3#8, 4#8, 5#8] :=
    (List.mem_cons.mp h).imp_right List.mem_singleton.mp
  · rw [List.length_replicate]
  · decide

theorem witness_RaiseWritesTheFailure :
    ∀ x ∈ [(Cause.unknownSymbol, 0x02#8), (Cause.malformedInput, 0x03#8), (Cause.outOverflow, 0x08#8)],
      x ∈ [(Cause.unknownSymbol, 0x02#8), (Cause.malformedInput, 0x03#8), (Cause.outOverflow, 0x08#8)] :=
  fun _ h => h

/-- A next state of every command. -/
theorem witness_CommandsWriteOnlyTheirOwnState :
    ∀ i ∈ [Instr.nop, .srst, .fclr, .fset 0x00#8, .fdel 0xFF#8, .build, .genc, .enc .P, .enc .A, .dec .P, .dec .A, .move],
      exec i b1Tree = .next (after i b1Tree) := by
  intro i hi
  apply next_after
  revert i
  decide +kernel

/-! #### BUILD and GENC -/

theorem witness_BuildOfEmptyMapFails : ∀ k, k < 256 → State.reset.fvalidAt k = false := by
  intro k _
  simp [State.fvalidAt, State.reset, State.afterRst]

theorem witness_BuildBuildsTheTree :
    [0x61, 0x62, 0x63] = (List.range 256).filter b2Map.fvalidAt ∧ [0x61, 0x62, 0x63] ≠ [] ∧
      ([0x61, 0x62, 0x63].map (fun k => (b2Map.freqAt k).toNat)).sum ≤ 0xFFFFFFFF := by decide +kernel

theorem witness_BuildOfOneKeyIsASingleLeaf :
    0x61 < 256 ∧ ∀ k, k < 256 → (b12Map.fvalidAt k = true ↔ k = 0x61) := by decide +kernel

theorem witness_BuildOverflowFails :
    [0x41, 0x42, 0x43] = (List.range 256).filter b9Map.fvalidAt ∧
      0xFFFFFFFF < ([0x41, 0x42, 0x43].map (fun k => (b9Map.freqAt k).toNat)).sum ∧
      2 ≤ [0x41, 0x42, 0x43].length := by decide +kernel

/-- The lowest and the highest internal node. -/
theorem witness_BuildMergesTheTwoLeastNodes :
    exec .build b2Map = .next (after .build b2Map) ∧ (after .build b2Map).result = 0x00#8 ∧
      (after .build b2Map).nleaf.toNat ≤ 3 ∧ 3 ≤ 4 ∧ 4 ≤ (after .build b2Map).root.toNat :=
  ⟨next_after (by decide +kernel), by decide +kernel⟩

/-- Two states that differ in the count of a symbol that is no key. -/
theorem witness_BuildIsDeterminedByTheTable :
    let s := b1Map
    let s' := mapped [(0x41, 9#32), (0x61, 1#32), (0x62, 1#32)] (0b11#256 <<< 0x61)
    s.fvalid = s'.fvalid ∧ (∀ k, k < 256 → s.fvalidAt k = true → s.freqAt k = s'.freqAt k) ∧
      exec .build s = .next (after .build s) ∧ exec .build s' = .next (after .build s') ∧
      (after .build s).result = 0x00#8 := by
  refine ⟨rfl, ?_, next_after ?_, next_after ?_, ?_⟩ <;> decide +kernel

theorem witness_GencWithoutTreeFails : State.reset.treeValid = false := rfl

/-- A tree of two leaves, of three and of one; a symbol that is no leaf. -/
theorem witness_GencWritesThePathCodes :
    (b2Tree.treeValid = true ∧ TreeOk b2Tree ∧ 2 < b2Tree.nleaf.toNat) ∧
      (b12Tree.treeValid = true ∧ TreeOk b12Tree ∧ b12Tree.nleaf.toNat = 1) ∧
      ∀ k, k < b2Tree.nleaf.toNat → (b2Tree.nodeAt k).sym.toNat ≠ 0xFF :=
  ⟨⟨rfl, b2Tree_ok, by decide⟩, ⟨rfl, b12Tree_ok, by decide⟩, by decide +kernel⟩

theorem witness_GencCodesArePrefixFreeAndComplete :
    (b2Tree.treeValid = true ∧ TreeOk b2Tree ∧ exec .genc b2Tree = .next (after .genc b2Tree)) ∧
      (b12Tree.treeValid = true ∧ TreeOk b12Tree ∧ exec .genc b12Tree = .next (after .genc b12Tree)) :=
  ⟨⟨rfl, b2Tree_ok, next_after (by decide +kernel)⟩, ⟨rfl, b12Tree_ok, next_after (by decide +kernel)⟩⟩

/-! #### ENC and DEC -/

/-- Without codes, and with codes and one symbol too many. -/
theorem witness_EncPreconditions :
    State.reset.codesValid = false ∧ (withInput [] 16385#32 b1Coded).codesValid = true ∧
      16384 < (withInput [] 16385#32 b1Coded).inLen.toNat := by decide

/-- "ab" is 01, and the empty input is the empty stream; in both modes. -/
theorem witness_EncWritesTheCodesInOrder :
    ∀ x ∈ [(withInput [0x61#8, 0x62#8] 2#32 b1Coded, [false, true]), (withInput [] 0#32 b1Coded, [])],
      x.1.codesValid = true ∧ x.1.inLen.toNat ≤ 16384 ∧
        (∀ i, i < x.1.inLen.toNat → x.1.clenAt (x.1.inByte i).toNat ≠ 0#9) ∧
        x.2 = ((List.range x.1.inLen.toNat).map (fun i => codeString x.1 (x.1.inByte i).toNat)).flatten ∧
        ∀ m, x.2.length ≤ (match m with | Mode.P => 131072 | .A => 16384) := by
  intro x hx
  simp only [List.mem_cons, List.not_mem_nil, or_false] at hx
  rcases hx with rfl | rfl
  · exact ⟨rfl, by decide, by decide +kernel, by decide +kernel, fun m => by cases m <;> decide⟩
  · exact ⟨rfl, by decide, by decide +kernel, by decide +kernel, fun m => by cases m <;> decide⟩

/-- A code table with one long code, and an input of its symbol. -/
def longCoded (len : BitVec 9) (count : Nat) : State :=
  withInput (List.replicate count 0x61#8) (BitVec.ofNat 32 count) { b1Coded with clen := ⟨[(0x61, len)], 0⟩ }

/-- An unknown symbol after two known ones, and the first position whose code does not fit, in each mode. -/
theorem witness_EncReportsTheFirstFailure :
    (let s := withInput [0x61#8, 0x62#8, 0x7A#8] 3#32 b1Coded;
      s.codesValid = true ∧ s.inLen.toNat ≤ 16384 ∧ 2 < s.inLen.toNat ∧
        (∀ j, j < 2 → s.clenAt (s.inByte j).toNat ≠ 0#9) ∧
        2 = ((List.range 2).map (fun j => (s.clenAt (s.inByte j).toNat).toNat)).sum ∧ 2 ≤ 16384 ∧ 2 ≤ 131072 ∧
        s.clenAt (s.inByte 2).toNat = 0#9) ∧
    ∀ x ∈ [(64, 16384, 255), (256, 131072, 511)],
      let s := longCoded (BitVec.ofNat 9 x.2.2) (x.1 + 1)
      s.codesValid = true ∧ s.inLen.toNat ≤ 16384 ∧ x.1 < s.inLen.toNat ∧
        (∀ j, j < x.1 → s.clenAt (s.inByte j).toNat ≠ 0#9) ∧
        x.2.2 * x.1 = ((List.range x.1).map (fun j => (s.clenAt (s.inByte j).toNat).toNat)).sum ∧
        x.2.2 * x.1 ≤ x.2.1 ∧ s.clenAt (s.inByte x.1).toNat ≠ 0#9 ∧
        x.2.1 < x.2.2 * x.1 + (s.clenAt (s.inByte x.1).toNat).toNat := by decide +kernel

/-- Without a tree, and with one and one bit too many in each mode. -/
theorem witness_DecPreconditions :
    State.reset.treeValid = false ∧ b1Tree.treeValid = true ∧ 131072 < (withInput [] 131073#32 b1Tree).inLen.toNat ∧
      16384 < (withInput [] 16385#32 b1Tree).inLen.toNat := by decide

/-- "100" is the paths of a and c, packed and as characters; and the empty stream. -/
theorem witness_DecReadsPathsFromTheRoot :
    TreeOk b2Tree ∧
    ∀ x ∈ [(Mode.P, withInput [0x80#8] 3#32 b2Tree, [([true, false], 0x61#8), ([false], 0x63#8)]),
        (.A, withInput [0x31#8, 0x30#8, 0x30#8] 3#32 b2Tree, [([true, false], 0x61#8), ([false], 0x63#8)]),
        (.P, withInput [] 0#32 b2Tree, [])],
      x.2.1.node = b2Tree.node ∧ x.2.1.treeValid = true ∧ 2 ≤ x.2.1.nleaf.toNat ∧ x.2.1.inLen.toNat ≤ 16384 ∧
        x.2.2.length ≤ 16384 ∧ (∀ c ∈ x.2.2, leafAt x.2.1.nodeAt x.2.1.root.toNat c.1 = some c.2) ∧
        (x.2.2.map Prod.fst).flatten.length = x.2.1.inLen.toNat ∧
        ∀ j (h : j < (x.2.2.map Prod.fst).flatten.length),
          streamBit x.1 x.2.1.inByte j = some ((x.2.2.map Prod.fst).flatten[j]) :=
  ⟨b2Tree_ok, by decide +kernel⟩

/-- The single leaf: three characters that fit, and in mode P one bit more than fits. -/
theorem witness_DecOfASingleLeafTree :
    TreeOk b12Tree ∧ b12Tree.treeValid = true ∧ b12Tree.nleaf.toNat = 1 ∧
      (let s := withInput [0x30#8, 0x31#8, 0x30#8] 3#32 b12Tree;
        s.inLen.toNat ≤ 16384 ∧ ∀ j, j < s.inLen.toNat → (streamBit .A s.inByte j).isSome = true) ∧
      (let s := withInput [] 16385#32 b12Tree;
        s.inLen.toNat ≤ 131072 ∧ 16384 < s.inLen.toNat ∧
          ∀ j, j < s.inLen.toNat → (streamBit .P s.inByte j).isSome = true) :=
  ⟨b12Tree_ok, rfl, rfl, by decide +kernel, by decide, by decide, fun _ _ => rfl⟩

/-- "01" packed: the path of c and then half of the path of a. -/
theorem witness_DecOfATruncatedStreamFails :
    TreeOk b2Tree ∧
    (let s := withInput [0x40#8] 2#32 b2Tree;
      s.treeValid = true ∧ 2 ≤ s.nleaf.toNat ∧ s.inLen.toNat ≤ 131072 ∧
        leafAt s.nodeAt s.root.toNat [false] = some 0x63#8 ∧ [true] ≠ [] ∧ [false] ≠ [] ∧
        leafAt s.nodeAt s.root.toNat ([true] ++ [false]) = some 0x61#8 ∧
        ([[false]].flatten ++ [true]).length = s.inLen.toNat ∧
        ∀ j (h : j < ([[false]].flatten ++ [true]).length),
          streamBit .P s.inByte j = some (([[false]].flatten ++ [true])[j])) :=
  ⟨b2Tree_ok, by decide +kernel⟩

/-- "01x", on a tree of two leaves and on the single leaf. -/
theorem witness_DecOfABadCharacterFails :
    TreeOk b1Tree ∧ TreeOk b12Tree ∧
    ∀ s ∈ [withInput [0x30#8, 0x31#8, 0x78#8] 3#32 b1Tree, withInput [0x30#8, 0x31#8, 0x78#8] 3#32 b12Tree],
      s.treeValid = true ∧ s.inLen.toNat ≤ 16384 ∧ 2 < s.inLen.toNat ∧
        (∀ i, i < 2 → s.inByte i = 0x30#8 ∨ s.inByte i = 0x31#8) ∧ s.inByte 2 ≠ 0x30#8 ∧ s.inByte 2 ≠ 0x31#8 :=
  ⟨b1Tree_ok, b12Tree_ok, by decide +kernel⟩

/-- One bit a symbol on the tree of a and b, whatever the bits: 16385 of them. -/
theorem witness_DecOutputOverflowFails :
    let s := withInput [] 16385#32 b1Tree
    let chunks := (List.range 16385).map fun j =>
      ([bitP s.inByte j], if bitP s.inByte j then (0x62#8 : Symbol) else 0x61#8)
    s.treeValid = true ∧ TreeOk s ∧ 2 ≤ s.nleaf.toNat ∧ s.inLen.toNat ≤ 131072 ∧ chunks.length = 16385 ∧
      (∀ c ∈ chunks, leafAt s.nodeAt s.root.toNat c.1 = some c.2) ∧
      (chunks.map Prod.fst).flatten.length ≤ s.inLen.toNat ∧
      ∀ j (h : j < (chunks.map Prod.fst).flatten.length),
        streamBit .P s.inByte j = some ((chunks.map Prod.fst).flatten[j]) := by
  intro s chunks
  have hb : (chunks.map Prod.fst).flatten = (List.range 16385).map (bitP s.inByte) := by
    simp only [chunks, List.map_map]
    induction List.range 16385 with
    | nil => rfl
    | cons a l ih => simp only [List.map_cons, List.flatten_cons, ih]; rfl
  have hl : ∀ b, leafAt b1Tree.nodeAt b1Tree.root.toNat [b] = some (if b then (0x62#8 : Symbol) else 0x61#8) := by
    decide +kernel
  refine ⟨rfl, b1Tree_ok.congr rfl rfl rfl rfl, by decide, by decide, by simp [chunks], ?_, ?_, ?_⟩
  · intro c hc
    obtain ⟨j, -, rfl⟩ := List.mem_map.1 hc
    exact hl _
  · rw [hb, List.length_map, List.length_range]; decide
  · intro j h
    simp only [hb, List.getElem_map, List.getElem_range]; rfl

theorem withInput_ok {s : State} (T : TreeOk s) (bytes : List Byte) (len : Word) : TreeOk (withInput bytes len s) :=
  T.congr rfl rfl rfl rfl

theorem withInput_codes {s : State} (hv : s.treeValid = true) (T : TreeOk s) (h : CodesFromTree s)
    (bytes : List Byte) (len : Word) : CodesFromTree (withInput bytes len s) := by
  obtain ⟨codes, hc, -⟩ := T.treeCodes_spec
  exact (codesFromTree_iff (s := withInput bytes len s) hv hc).2 ((codesFromTree_iff hv hc).1 h)

/-- "ab" with the table GENC derives from the tree. -/
theorem witness_EncodeMoveDecodeIsTheIdentity :
    let s := withInput [0x61#8, 0x62#8] 2#32 (coded b1Tree)
    s.treeValid = true ∧ TreeOk s ∧ s.codesValid = true ∧ CodesFromTree s ∧
      ∀ m, exec (.enc m) s = .next (after (.enc m) s) ∧ (after (.enc m) s).result = 0x00#8 := by
  refine ⟨rfl, withInput_ok coded_b1_treeOk _ _, rfl, ?_, fun m => ⟨next_after ?_, ?_⟩⟩
  · exact withInput_codes coded_b1_valid coded_b1_treeOk coded_b1_ok.2 _ _
  · cases m <;> decide +kernel
  · cases m <;> decide +kernel

end Sys2Proof.Tests
end

/-! ## The state's family: what a step keeps, what a command may write, STATUS, IRQ_STATUS, `irq` and reset
(spec/10_state.md)

The step lemmas `step_cases`, `runWord_cases` and `access_effect` say what a step can do and `ShapeInv.exec`,
`TreeInv.exec` and `CodesInv.exec` what a command keeps. `KeptByParts` joins them to one principle for a whole step. -/

namespace Sys2Proof.Machine

/-! ### A predicate that every part of a step keeps is kept by the step -/

/-- Each part of a step keeps `P`: a command, the failure of an illegal word, the host's own fields, a host access
outside reset, and the two operations on `rst`. -/
structure KeptByParts (P : State → Prop) : Prop where
  exec : ∀ {i s t}, P s → Machine.exec i s = .next t → P t
  illegal : ∀ {s} (f : Failure), P s → P (raiseFailure .illegal f s)
  moves : ∀ {b t}, HostMoves b t → P b → P t
  effect : ∀ {s b}, HostEffect s b → s.rstAsserted = false → P s → P b
  reset : ∀ {s}, P s → P (hardReset s)
  release : ∀ {s}, P s → P { s with rstAsserted := false }

theorem KeptByParts.performAccess {P : State → Prop} (K : KeptByParts P) {op : HostOp} {s : State}
    (hr : (s.rstAsserted && accessesWindow op) = false) (h : P s) : P (performAccess op s) := by
  have advance : ∀ {b}, P b → P (advanceHost b) := fun hb => K.moves (HostMoves.refl _).advance hb
  by_cases h1 : op = .assertRst
  · subst h1; exact advance (K.reset h)
  by_cases h2 : op = .releaseRst
  · subst h2; exact advance (K.release h)
  cases hrst : s.rstAsserted with
  | false =>
    obtain ⟨b, hb, hm⟩ := access_effect op s h1 h2
    exact K.moves hm (K.effect hb hrst h)
  | true =>
    rw [hrst, Bool.true_and] at hr
    rw [performAccess_outside hr h1 h2]
    exact advance h

theorem KeptByParts.step {P : State → Prop} (K : KeptByParts P) {s t : State} (h : P s) (hs : step s = .next t) :
    P t := by
  rcases step_cases hs with ⟨_, w, _, hw⟩ | ⟨_, _, rfl⟩ | ⟨_, op, _, _, hr, rfl⟩
  · rcases runWord_cases hw with ⟨i, _, hi⟩ | ⟨_, _, rfl⟩
    · exact K.exec h hi
    · exact K.illegal _ h
  · exact h
  · exact K.performAccess hr (K.moves ⟨_, _, _, _, rfl⟩ h)

/-! ### The invariants at reset -/

/-- The level of `rst` may change while nothing runs, and its release may come at any time. -/
theorem ShapeInv.setRst {s : State} (h : ShapeInv s) (r : Bool) (hr : r = true → s.busyF = false) :
    ShapeInv { s with rstAsserted := r } :=
  { h with reset_idle := hr }

/-- The draws of the reset memories are `d` and `d + 1`, so the next one, `d + 2`, is fresh. -/
theorem drawsOk_afterRst (d : Nat) : drawsOk (State.afterRst d) = true := by
  simp [drawsOk_iff, State.afterRst]

theorem ShapeInv.afterRst (d : Nat) : ShapeInv (State.afterRst d) where
  memories := rfl
  busy_pending := rfl
  busy_not_done := nofun
  pending_last := nofun
  reset_idle := nofun
  result_code := Nat.zero_le _
  success_info _ := rfl
  out_len := Nat.zero_le _
  draws := drawsOk_afterRst d

theorem ShapeInv.hardReset (s : State) : ShapeInv (hardReset s) :=
  ((ShapeInv.afterRst s.draws).setRst true fun _ => rfl).moves ⟨_, _, _, _, rfl⟩

theorem TreeInv.afterRst (d : Nat) : TreeInv (State.afterRst d) := .of_noTree rfl rfl rfl rfl

theorem TreeInv.hardReset (s : State) : TreeInv (hardReset s) := .of_noTree rfl rfl rfl rfl

theorem CodesInv.afterRst (d : Nat) : CodesInv (State.afterRst d) := .of_noCodes rfl rfl

theorem CodesInv.hardReset (s : State) : CodesInv (hardReset s) := .of_noCodes rfl rfl

/-- Settles O8: reset is `afterRst` at draw 0, with sound registers, no tree and no codes. -/
theorem resetSatisfiesTheInvariants : Obligations.ResetSatisfiesTheInvariants :=
  ⟨ShapeInv.afterRst 0, TreeInv.afterRst 0, CodesInv.afterRst 0⟩

/-! ### Every step keeps the invariants -/

theorem ShapeInv.keptByParts : KeptByParts ShapeInv where
  exec := ShapeInv.exec
  illegal f h := h.raise .illegal f
  moves := ShapeInv.moves
  effect hb hr h := h.effect hb hr
  reset {s} _ := ShapeInv.hardReset s
  release h := h.setRst false nofun

/-- Settles O9: every part of a step keeps the shape invariant. -/
theorem stepKeepsShapeInv : Obligations.StepKeepsShapeInv := fun _ _ h hs => ShapeInv.keptByParts.step h hs

theorem TreeInv.moves {b t : State} (hm : HostMoves b t) (h : TreeInv b) : TreeInv t := by
  obtain ⟨hv, hn, hr, hnn, hl, -⟩ := hm.tree
  exact h.congr hv hn hr hnn hl

theorem TreeInv.effect {s b : State} (hb : HostEffect s b) (h : TreeInv s) : TreeInv b := by
  obtain ⟨hv, hn, hr, hnn, hl, -⟩ := hb.tree
  exact h.congr hv hn hr hnn hl

theorem TreeInv.keptByParts : KeptByParts TreeInv where
  exec := TreeInv.exec
  illegal f h := h.raise .illegal f
  moves := TreeInv.moves
  effect hb _ h := h.effect hb
  reset {s} _ := TreeInv.hardReset s
  release h := h.congr rfl rfl rfl rfl rfl

/-- Settles O10: BUILD alone makes a tree, and every other part of a step keeps it or drops it whole. -/
theorem stepKeepsTreeInv : Obligations.StepKeepsTreeInv := fun _ _ h hs => TreeInv.keptByParts.step h hs

theorem CodesInv.moves {b t : State} (hm : HostMoves b t) (hT : TreeInv b) (h : CodesInv b) : CodesInv t := by
  obtain ⟨hv, hn, hr, -, hl, hcv, hcl, hc, hmax⟩ := hm.tree
  exact h.congr hT hv hn hr hl hcv hcl hc hmax

theorem CodesInv.effect {s b : State} (hb : HostEffect s b) (hT : TreeInv s) (h : CodesInv s) : CodesInv b := by
  obtain ⟨hv, hn, hr, -, hl, hcv, hcl, hc, hmax⟩ := hb.tree
  exact h.congr hT hv hn hr hl hcv hcl hc hmax

/-- R48 speaks of the current tree, so it is kept together with R47. -/
theorem CodesInv.keptByParts : KeptByParts (fun s => TreeInv s ∧ CodesInv s) where
  exec h he := ⟨h.1.exec he, h.2.exec h.1 he⟩
  illegal f h := ⟨h.1.raise .illegal f, h.2.raise .illegal f h.1⟩
  moves hm h := ⟨h.1.moves hm, h.2.moves hm h.1⟩
  effect hb _ h := ⟨h.1.effect hb, h.2.effect hb h.1⟩
  reset {s} _ := ⟨TreeInv.hardReset s, CodesInv.hardReset s⟩
  release h := ⟨h.1.congr rfl rfl rfl rfl rfl, h.2.congr h.1 rfl rfl rfl rfl rfl rfl rfl rfl⟩

/-- Settles O11: the codes are kept together with the tree they belong to. -/
theorem stepKeepsCodesInv : Obligations.StepKeepsCodesInv :=
  fun _ _ hT hC hs => (CodesInv.keptByParts.step ⟨hT, hC⟩ hs).2

/-! ### What a command writes before its completion -/

/-- What a command can make of the block `s` before its completion: the writes of its rule, or the failure effects of
R232. -/
inductive CommandWrites (s : State) : Instr → State → Prop where
  | nop : CommandWrites s .nop s
  | srst : CommandWrites s .srst (softReset s)
  | fclr (freq : Table Word) : CommandWrites s .fclr { s with freq := freq, fvalid := 0#256 }
  | fset (a : Symbol) (n : Word) : CommandWrites s (.fset a) (writeKey a n true s)
  | fdel (a : Symbol) : CommandWrites s (.fdel a) (writeKey a 0#32 false s)
  | build (n : Nat) (nodes : List Node) (pool : List Key) : CommandWrites s .build (commitTree n nodes pool s)
  | buildFailed : CommandWrites s .build (dropTree s)
  | buildOverflow : CommandWrites s .build (unfixNodes (dropTree s))
  | genc (codes : List Coded) : CommandWrites s .genc (commitCodes codes s)
  | gencFailed : CommandWrites s .genc (dropCodes s)
  | enc (m : Mode) (bits : List Bool) : CommandWrites s (.enc m) (commitEncoding m bits s)
  | encRefused (m : Mode) : CommandWrites s (.enc m) (dropOutput s)
  | encFailed (m : Mode) : CommandWrites s (.enc m) (unfixOutbuf (dropOutput s))
  | dec (m : Mode) (syms : List Symbol) : CommandWrites s (.dec m) (commitDecoding syms s)
  | decRefused (m : Mode) : CommandWrites s (.dec m) (dropOutput s)
  | decFailed (m : Mode) : CommandWrites s (.dec m) (unfixOutbuf (dropOutput s))
  | move : CommandWrites s .move { s with inbuf := s.outbuf, inLen := s.outLen }

/-- A failing ENC or DEC frees OUTBUF or keeps it (R232). -/
theorem failureEffects_stream (cause : Cause) (s : State) :
    failureEffects .stream cause s = dropOutput s ∨ failureEffects .stream cause s = unfixOutbuf (dropOutput s) := by
  cases h : cause.unfixesOutbuf <;> simp [failureEffects, h]

/-- A failing BUILD frees the nodes or keeps them (R232). -/
theorem failureEffects_build (cause : Cause) (s : State) :
    failureEffects .build cause s = dropTree s ∨ failureEffects .build cause s = unfixNodes (dropTree s) := by
  by_cases h : cause = .freqOverflow <;> simp [failureEffects, h]

theorem CommandWrites.buildEffects (cause : Cause) (s : State) :
    CommandWrites s .build (failureEffects .build cause s) := by
  rcases failureEffects_build cause s with h | h <;> rw [h]
  · exact .buildFailed
  · exact .buildOverflow

theorem CommandWrites.encEffects (m : Mode) (cause : Cause) (s : State) :
    CommandWrites s (.enc m) (failureEffects .stream cause s) := by
  rcases failureEffects_stream cause s with h | h <;> rw [h]
  · exact .encRefused m
  · exact .encFailed m

theorem CommandWrites.decEffects (m : Mode) (cause : Cause) (s : State) :
    CommandWrites s (.dec m) (failureEffects .stream cause s) := by
  rcases failureEffects_stream cause s with h | h <;> rw [h]
  · exact .decRefused m
  · exact .decFailed m

/-- `t` is `b` after one of the two completions (R122, R232). -/
def Completes (b t : State) : Prop := t = complete b ∨ ∃ f, t = completeFailed f b

theorem Completes.success (b : State) : Completes b (complete b) := .inl rfl

theorem Completes.failure (c : FailingCommand) (f : Failure) (s : State) :
    Completes (failureEffects c f.cause s) (raiseFailure c f s) := .inr ⟨f, rfl⟩

theorem execGenc_writes {s t : State} (h : execGenc s = .next t) : ∃ b, CommandWrites s .genc b ∧ Completes b t := by
  unfold execGenc at h
  split at h
  · split at h <;> cases h
    exact ⟨_, .genc _, .success _⟩
  · cases h; exact ⟨_, .gencFailed, .failure _ _ _⟩

theorem execBuild_writes {s t : State} (h : execBuild s = .next t) :
    ∃ b, CommandWrites s .build b ∧ Completes b t := by
  rcases execBuild_cases s with ⟨_, hx⟩ | ⟨_, _, _, hx, _⟩ | ⟨_, _, _, hx, _⟩ <;> rw [hx] at h <;> cases h
  · exact ⟨_, .buildEffects _ s, .failure _ _ _⟩
  · exact ⟨_, .build _ _ _, .success _⟩
  · exact ⟨_, .buildEffects _ s, .failure _ _ _⟩

theorem execEnc_writes {m : Mode} {s t : State} (h : execEnc m s = .next t) :
    ∃ b, CommandWrites s (.enc m) b ∧ Completes b t := by
  unfold execEnc at h
  split at h
  · cases h; exact ⟨_, .encEffects m _ s, .failure _ _ _⟩
  split at h
  · cases h; exact ⟨_, .encEffects m _ s, .failure _ _ _⟩
  split at h <;> cases h
  · exact ⟨_, .encEffects m _ s, .failure _ _ _⟩
  · exact ⟨_, .enc m _, .success _⟩

theorem execDec_writes {m : Mode} {s t : State} (h : execDec m s = .next t) :
    ∃ b, CommandWrites s (.dec m) b ∧ Completes b t := by
  unfold execDec at h
  split at h
  · cases h; exact ⟨_, .decEffects m _ s, .failure _ _ _⟩
  split at h
  · cases h; exact ⟨_, .decEffects m _ s, .failure _ _ _⟩
  split at h <;> cases h
  · exact ⟨_, .decEffects m _ s, .failure _ _ _⟩
  · exact ⟨_, .dec m _, .success _⟩

/-- Every command makes its writes and completes. -/
theorem exec_writes {i : Instr} {s t : State} (h : exec i s = .next t) :
    ∃ b, CommandWrites s i b ∧ Completes b t := by
  cases i with
  | nop => cases h; exact ⟨_, .nop, .success _⟩
  | srst => cases h; exact ⟨_, .srst, .success _⟩
  | fclr => cases h; exact ⟨_, .fclr _, .success _⟩
  | fset a => cases h; exact ⟨_, .fset a _, .success _⟩
  | fdel a => cases h; exact ⟨_, .fdel a, .success _⟩
  | build => exact execBuild_writes h
  | genc => exact execGenc_writes h
  | enc m => exact execEnc_writes h
  | dec m => exact execDec_writes h
  | move => cases h; exact ⟨_, .move, .success _⟩

/-! ### The frame of a command's writes -/

section
variable {s b : State} {i : Instr}

/-- IRQ_EN, CMD.LAST and the host are no command's (R34, R37). -/
theorem CommandWrites.host (h : CommandWrites s i b) :
    b.cmdLast = s.cmdLast ∧ b.irqEn = s.irqEn ∧ b.rstAsserted = s.rstAsserted ∧ b.hostOps = s.hostOps ∧
      b.hostReplies = s.hostReplies ∧ b.expectFailed = s.expectFailed := by
  cases h <;> exact ⟨rfl, rfl, rfl, rfl, rfl, rfl⟩

/-- DATA and IRQ_STATUS are SRST's (R27, R124). -/
theorem CommandWrites.data (h : CommandWrites s i b) (hi : i ≠ .srst) :
    b.data = s.data ∧ b.irqStatus = s.irqStatus := by
  cases h with
  | srst => exact absurd rfl hi
  | _ => exact ⟨rfl, rfl⟩

/-- FREQ is the table commands', FVALID theirs and SRST's (R40). -/
theorem CommandWrites.freq (h : CommandWrites s i b) (hi : i ≠ .fclr ∧ (∀ a, i ≠ .fset a) ∧ ∀ a, i ≠ .fdel a) :
    b.freq = s.freq ∧ (i ≠ .srst → b.fvalid = s.fvalid) := by
  obtain ⟨hclr, hset, hdel⟩ := hi
  cases h with
  | fclr _ => exact absurd rfl hclr
  | fset a _ => exact absurd rfl (hset a)
  | fdel a => exact absurd rfl (hdel a)
  | srst => exact ⟨rfl, absurd rfl⟩
  | _ => exact ⟨rfl, fun _ => rfl⟩

/-- The node memory is BUILD's, the tree's registers BUILD's and SRST's (R41). -/
theorem CommandWrites.tree (h : CommandWrites s i b) (hi : i ≠ .build) :
    b.node = s.node ∧ (i ≠ .srst → b.treeValid = s.treeValid ∧ b.root = s.root ∧ b.nnode = s.nnode ∧
      b.nleaf = s.nleaf) := by
  cases h with
  | build _ _ _ | buildFailed | buildOverflow => exact absurd rfl hi
  | srst => exact ⟨rfl, absurd rfl⟩
  | _ => exact ⟨rfl, fun _ => ⟨rfl, rfl, rfl, rfl⟩⟩

/-- The code table is GENC's, its registers GENC's, BUILD's and SRST's (R42). -/
theorem CommandWrites.codes (h : CommandWrites s i b) (hi : i ≠ .genc) :
    b.clen = s.clen ∧ b.code = s.code ∧
      (i ≠ .build → i ≠ .srst → b.codesValid = s.codesValid ∧ b.codeMaxLen = s.codeMaxLen) := by
  cases h with
  | genc _ | gencFailed => exact absurd rfl hi
  | build _ _ _ | buildFailed | buildOverflow => exact ⟨rfl, rfl, absurd rfl⟩
  | srst => exact ⟨rfl, rfl, fun _ => absurd rfl⟩
  | _ => exact ⟨rfl, rfl, fun _ _ => ⟨rfl, rfl⟩⟩

/-- OUTBUF is that of ENC and DEC, OUT_LEN theirs and SRST's (R43). -/
theorem CommandWrites.output (h : CommandWrites s i b) (hi : ∀ m, i ≠ .enc m ∧ i ≠ .dec m) :
    b.outbuf = s.outbuf ∧ (i ≠ .srst → b.outLen = s.outLen) := by
  cases h with
  | enc m _ | encRefused m | encFailed m => exact absurd rfl (hi m).1
  | dec m _ | decRefused m | decFailed m => exact absurd rfl (hi m).2
  | srst => exact ⟨rfl, absurd rfl⟩
  | _ => exact ⟨rfl, fun _ => rfl⟩

/-- INBUF is MOVE's, IN_LEN MOVE's and SRST's (R43). -/
theorem CommandWrites.input (h : CommandWrites s i b) (hi : i ≠ .move) :
    b.inbuf = s.inbuf ∧ (i ≠ .srst → b.inLen = s.inLen) := by
  cases h with
  | move => exact absurd rfl hi
  | srst => exact ⟨rfl, absurd rfl⟩
  | _ => exact ⟨rfl, fun _ => rfl⟩

end

/-- Bits that are only set stay set. -/
theorem and_irqNext_set (old set : BitVec 3) : old &&& irqNext old set 0#3 = old := by
  revert old set; decide

/-- A completion clears no interrupt bit (R122, R232). -/
theorem Completes.irqStatus {b t : State} (h : Completes b t) : b.irqStatus &&& t.irqStatus = b.irqStatus := by
  rcases h with rfl | ⟨_, rfl⟩ <;> exact and_irqNext_set _ _

/-- What no completion writes. -/
theorem Completes.frame {b t : State} (h : Completes b t) :
    t = { b with result := t.result, errInfo := t.errInfo, irqStatus := t.irqStatus, busyF := t.busyF,
                 doneF := t.doneF, pend := t.pend } := by
  rcases h with rfl | ⟨_, rfl⟩ <;> rfl

/-- Settles O35: the command's writes stay in its own part of the state, and its completion writes none of it. -/
theorem commandsWriteOnlyTheirOwnState : Obligations.CommandsWriteOnlyTheirOwnState := by
  intro i s t he
  obtain ⟨b, hw, hc⟩ := exec_writes he
  have hdata : i ≠ .srst → b.data = s.data ∧ s.irqStatus &&& t.irqStatus = s.irqStatus := fun hi =>
    ⟨(hw.data hi).1, (hw.data hi).2 ▸ hc.irqStatus⟩
  rw [hc.frame]
  exact ⟨hw.host, hdata, hw.freq, hw.tree, hw.codes, hw.output, hw.input⟩

/-! ### STATUS (R23) -/

/-- No command frees BUSY, DONE or ERR: a read of these three bits of STATUS returns their value at any time (R67). -/
theorem unfixedBits_status_low (i : Instr) {k : Nat} (hk : k < 3) : (unfixedBits i .status).getLsbD k = false := by
  cases i with
  | srst | build | genc => revert k; decide
  | _ => exact BitVec.getLsbD_zero

theorem readUnfixed_status_low (s : State) {k : Nat} (hk : k < 3) : (readUnfixed s .status).getLsbD k = false := by
  unfold readUnfixed
  split
  · split
    · split
      · exact unfixedBits_status_low _ hk
      · exact BitVec.getLsbD_zero
    · exact BitVec.getLsbD_zero
  · exact BitVec.getLsbD_zero

/-- A bit that is not free reads as the location's own, whatever the free value (R67). -/
theorem getLsbD_readWord_fixed {s : State} {l : Loc} {k : Nat} (free : Word)
    (h : (readUnfixed s l).getLsbD k = false) : (readWord s free l).getLsbD k = (locWord s l).getLsbD k := by
  rw [readWord, BitVec.getLsbD_or, BitVec.getLsbD_and, BitVec.getLsbD_and, BitVec.getLsbD_not, h]
  by_cases hk : k < 32
  · simp [hk]
  · simp [hk, BitVec.getLsbD_of_ge (locWord s l) k (Nat.le_of_not_lt hk)]

theorem busReadAt_status_idle {s : State} (hb : s.busyF = false) :
    (busReadAt 0x0008#16 4 s).1.data = statusWord s := by
  rw [busReadAt_idle (by decide) hb]; rfl

theorem busReadAt_status_low (s : State) {k : Nat} (hk : k < 3) :
    (busReadAt 0x0008#16 4 s).1.data.getLsbD k = (statusWord s).getLsbD k := by
  cases hb : s.busyF with
  | false => rw [busReadAt_status_idle hb]
  | true =>
    rw [busReadAt_busy (by decide) hb]
    exact getLsbD_readWord_fixed _ (readUnfixed_status_low s hk)

/-- Settles O22: a read of STATUS gives the STATUS word, in bits 0 to 2 also while busy. -/
theorem statusShowsTheFlags : Obligations.StatusShowsTheFlags := by
  refine ⟨fun s => ?_, fun s hb => ?_, fun s i hb hi => ?_, fun s v => ?_⟩
  · rw [busReadAt_status_low s (by decide), busReadAt_status_low s (by decide), busReadAt_status_low s (by decide)]
    exact ⟨statusWord_busy s, statusWord_done s, by rw [statusWord_err, statusErr_iff]⟩
  · rw [busReadAt_status_idle hb]
    exact ⟨statusWord_ovr s, statusWord_treeValid s, statusWord_codesValid s,
      by rw [statusWord_single, statusSingle_iff]⟩
  · rw [busReadAt_status_idle hb, statusWord_high s hi]
  · rw [busWriteAt_word v s (by decide)]
    simp [hostWrite, show locate 0x0008#16 = .status from rfl, droppedWhileBusy, writeLoc]

/-! ### IRQ_STATUS and `irq` (R35, R38) -/

theorem busWriteAt_irqStatus (v : Word) (s : State) :
    busWriteAt 0x0034#16 4 v s = (⟨.ok, 0#32⟩, clearIrq (v.extractLsb' 0 3) s) := by
  rw [busWriteAt_word v s (by decide)]
  simp [hostWrite, show locate 0x0034#16 = .irqStatus from rfl, droppedWhileBusy, writeLoc]

/-- Bit `i` after a write: it stays unless it was written 1. -/
theorem getLsbD_irqNext_clear (old : BitVec 3) (v : Word) (i : Nat) :
    (irqNext old 0#3 (v.extractLsb' 0 3)).getLsbD i = (old.getLsbD i && !(i < 3 && v.getLsbD i)) := by
  rw [irqNext_clear]
  by_cases hi : i < 3
  · simp [hi]
  · simp [BitVec.getLsbD_of_ge _ i (Nat.le_of_not_lt hi)]

theorem getLsbD_irqNext_set (old set clear : BitVec 3) {i : Nat} (h : set.getLsbD i = true) :
    (irqNext old set clear).getLsbD i = true := by
  simp [irqNext, h]

/-- Settles O24: the write is `clearIrq`, busy or not, and `irqNext` sets after it clears. -/
theorem irqStatusIsWriteOneToClear : Obligations.IrqStatusIsWriteOneToClear :=
  ⟨fun s v => ⟨_, busWriteAt_irqStatus v s, rfl, getLsbD_irqNext_clear s.irqStatus v⟩,
    fun old set clear _ => getLsbD_irqNext_set old set clear⟩

/-- Settles O23: the three terms of `irq` are the three bits, and reset enables and leaves none. -/
theorem irqIsTheEnabledPendingBits : Obligations.IrqIsTheEnabledPendingBits := by
  refine ⟨fun s => ?_, rfl⟩
  simp only [irq, Bool.or_eq_true, Bool.and_eq_true]
  constructor
  · rintro ((h | h) | h)
    · exact ⟨0, by decide, h⟩
    · exact ⟨1, by decide, h⟩
    · exact ⟨2, by decide, h⟩
  · rintro ⟨i, hi, h⟩
    match i, hi with
    | 0, _ => exact .inl (.inl h)
    | 1, _ => exact .inl (.inr h)
    | 2, _ => exact .inr h

/-! ### The state after reset (R46) -/

theorem afterRst_registers (d : Nat) : ResetRegisters (State.afterRst d) := by
  constructor
  case fvalid => exact fun k _ => BitVec.getLsbD_zero
  case status => simp [statusWord, statusSingle, statusErr, statusOvr, State.afterRst]
  case irq => simp [irq, State.afterRst]
  all_goals rfl

theorem afterRst_memories (d : Nat) : ResetMemories d (State.afterRst d) := by
  constructor <;> exact fun k => Table.get_unspecified _ _ k

/-- Settles O6: reset is `afterRst` at draw 0, and ID and CAP read their constants. -/
theorem resetLeavesTheTableOfR46 : Obligations.ResetLeavesTheTableOfR46 := by
  refine ⟨afterRst_registers 0, afterRst_memories 0, ?_, ?_⟩
  · rw [busReadAt_idle (by decide) rfl]; rfl
  · rw [busReadAt_idle (by decide) rfl]; rfl

end Sys2Proof.Machine

/-! ## The memory's family: the address map, what the windows read, what a write does, the any-value reads of a busy
engine, and what the host can reach (spec/20_memory.md)

`MapRow` is the table of R61. `mapRow_locate` puts every word offset in its row, so that a statement about offsets is a
case split over the rows; `MapRow.read_idle` and `MapRow.write` say what an access to a row does. -/

namespace Sys2Proof.Machine

/-! ### The address map (R61) -/

/-- A row of the address map: the word at offset `a` is the location. -/
inductive MapRow (a : Nat) : Loc → Prop where
  | id : a = 0x0000 → MapRow a .id
  | cmd : a = 0x0004 → MapRow a .cmd
  | status : a = 0x0008 → MapRow a .status
  | result : a = 0x000C → MapRow a .result
  | errInfo : a = 0x0010 → MapRow a .errInfo
  | data : a = 0x0014 → MapRow a .data
  | inLen : a = 0x0018 → MapRow a .inLen
  | outLen : a = 0x001C → MapRow a .outLen
  | root : a = 0x0020 → MapRow a .root
  | nnode : a = 0x0024 → MapRow a .nnode
  | nleaf : a = 0x0028 → MapRow a .nleaf
  | codeMaxLen : a = 0x002C → MapRow a .codeMaxLen
  | irqEn : a = 0x0030 → MapRow a .irqEn
  | irqStatus : a = 0x0034 → MapRow a .irqStatus
  | cap : a = 0x0038 → MapRow a .cap
  | reserved : a % 4 = 0 →
      (0x003C ≤ a ∧ a ≤ 0x03FF) ∨ (0x0820 ≤ a ∧ a ≤ 0x0FFF) ∨ (0x2400 ≤ a ∧ a ≤ 0x3FFF) ∨
        (0x6000 ≤ a ∧ a ≤ 0x7FFF) → MapRow a .reserved
  | freq (k : Nat) : k < 256 → a = 0x0400 + 4 * k → MapRow a (.freq k)
  | fvalid (w : Nat) : w < 8 → a = 0x0800 + 4 * w → MapRow a (.fvalid w)
  | nodeFreq (n : Nat) : n < 512 → a = 0x1000 + 4 * n → MapRow a (.nodeFreq n)
  | nodeLink (n : Nat) : n < 512 → a = 0x1800 + 4 * n → MapRow a (.nodeLink n)
  | clen (k : Nat) : k < 256 → a = 0x2000 + 4 * k → MapRow a (.clen k)
  | code (k w : Nat) : k < 256 → w < 8 → a = 0x4000 + 32 * k + 4 * w → MapRow a (.code k w)
  | inbuf (k : Nat) : k < 4096 → a = 0x8000 + 4 * k → MapRow a (.inbuf (4 * k))
  | outbuf (k : Nat) : k < 4096 → a = 0xC000 + 4 * k → MapRow a (.outbuf (4 * k))

theorem aligned_iff (off : Offset) : off.extractLsb' 0 2 = 0#2 ↔ off.toNat % 4 = 0 := by
  rw [← BitVec.toNat_inj, BitVec.extractLsb'_toNat]
  simp

theorem MapRow.bounds {a : Nat} {l : Loc} (h : MapRow a l) : a < 65536 ∧ a % 4 = 0 := by
  cases h <;> omega

/-- The model finds a row's location at the row's offset. -/
theorem MapRow.locate_eq {off : Offset} {l : Loc} (h : MapRow off.toNat l) : locate off = l := by
  cases h with
  | reserved _ hr =>
    rcases hr with h | h | h | h <;> simp (disch := omega) only [locate, registerAt, if_pos, if_neg]
  | freq _ _ ha | fvalid _ _ ha | nodeFreq _ _ ha | nodeLink _ _ ha | clen _ _ ha | code _ _ _ _ ha | inbuf _ _ ha
  | outbuf _ _ ha =>
    simp (disch := omega) only [locate, ha, if_pos, if_neg, Loc.freq.injEq, Loc.fvalid.injEq, Loc.nodeFreq.injEq,
      Loc.nodeLink.injEq, Loc.clen.injEq, Loc.code.injEq, Loc.inbuf.injEq, Loc.outbuf.injEq]
    omega
  | _ ha => simp [locate, registerAt, ha]

/-- The rows cover every word offset. -/
theorem exists_mapRow {a : Nat} (hlt : a < 65536) (h4 : a % 4 = 0) : ∃ l, MapRow a l := by
  by_cases hreg : a < 0x003C
  · have ha : a ∈ (List.range 15).map (4 * ·) :=
      List.mem_map.mpr ⟨a / 4, List.mem_range.mpr (by omega), by omega⟩
    fin_cases ha
    exacts [⟨_, .id rfl⟩, ⟨_, .cmd rfl⟩, ⟨_, .status rfl⟩, ⟨_, .result rfl⟩, ⟨_, .errInfo rfl⟩, ⟨_, .data rfl⟩,
      ⟨_, .inLen rfl⟩, ⟨_, .outLen rfl⟩, ⟨_, .root rfl⟩, ⟨_, .nnode rfl⟩, ⟨_, .nleaf rfl⟩, ⟨_, .codeMaxLen rfl⟩,
      ⟨_, .irqEn rfl⟩, ⟨_, .irqStatus rfl⟩, ⟨_, .cap rfl⟩]
  by_cases hres : (0x003C ≤ a ∧ a ≤ 0x03FF) ∨ (0x0820 ≤ a ∧ a ≤ 0x0FFF) ∨ (0x2400 ≤ a ∧ a ≤ 0x3FFF) ∨
      (0x6000 ≤ a ∧ a ≤ 0x7FFF)
  · exact ⟨_, .reserved h4 hres⟩
  by_cases hfreq : a < 0x0800
  · exact ⟨_, .freq ((a - 0x0400) / 4) (by omega) (by omega)⟩
  by_cases hfvalid : a < 0x1000
  · exact ⟨_, .fvalid ((a - 0x0800) / 4) (by omega) (by omega)⟩
  by_cases hnodeFreq : a < 0x1800
  · exact ⟨_, .nodeFreq ((a - 0x1000) / 4) (by omega) (by omega)⟩
  by_cases hnodeLink : a < 0x2000
  · exact ⟨_, .nodeLink ((a - 0x1800) / 4) (by omega) (by omega)⟩
  by_cases hclen : a < 0x4000
  · exact ⟨_, .clen ((a - 0x2000) / 4) (by omega) (by omega)⟩
  by_cases hcode : a < 0x8000
  · exact ⟨_, .code ((a - 0x4000) / 32) ((a - 0x4000) % 32 / 4) (by omega) (by omega) (by omega)⟩
  by_cases hinbuf : a < 0xC000
  · exact ⟨_, .inbuf ((a - 0x8000) / 4) (by omega) (by omega)⟩
  · exact ⟨_, .outbuf ((a - 0xC000) / 4) (by omega) (by omega)⟩

/-- Every word offset is in the row of its location. -/
theorem mapRow_locate {off : Offset} (h : off.extractLsb' 0 2 = 0#2) : MapRow off.toNat (locate off) := by
  obtain ⟨l, hl⟩ := exists_mapRow off.isLt ((aligned_iff off).mp h)
  exact hl.locate_eq ▸ hl

/-! ### Accesses by row -/

section
variable {a : Nat} {l : Loc} (h : MapRow a l)
include h

theorem MapRow.offset : (BitVec.ofNat 16 a).extractLsb' 0 2 = 0#2 ∧ locate (BitVec.ofNat 16 a) = l := by
  obtain ⟨hlt, h4⟩ := h.bounds
  have hn : (BitVec.ofNat 16 a).toNat = a := by rw [BitVec.toNat_ofNat]; omega
  exact ⟨(aligned_iff _).mpr (hn.symm ▸ h4), MapRow.locate_eq (hn.symm ▸ h)⟩

/-- A read while idle, by row (R62). -/
theorem MapRow.read_idle {s : State} (hb : s.busyF = false) :
    (busReadAt (BitVec.ofNat 16 a) 4 s).1 = ⟨.ok, locWord s l⟩ := by
  obtain ⟨ha, hl⟩ := h.offset
  rw [busReadAt_idle ha hb, hl]

/-- A write, by row (R65, R66). -/
theorem MapRow.write (v : Word) (s : State) :
    busWriteAt (BitVec.ofNat 16 a) 4 v s = (⟨.ok, 0#32⟩, hostWrite v l s) := by
  obtain ⟨ha, hl⟩ := h.offset
  rw [busWriteAt_word v s ha, hl]

end

theorem hostWrite_idle (v : Word) (l : Loc) {s : State} (hb : s.busyF = false) :
    hostWrite v l s = writeLoc v l s := by
  rw [hostWrite, hb, Bool.false_and, if_neg Bool.false_ne_true]

/-- IRQ_EN takes its writes, busy or not (R34, R66). -/
theorem busWriteAt_irqEn (v : Word) (s : State) :
    busWriteAt 0x0030#16 4 v s = (⟨.ok, 0#32⟩, { s with irqEn := v.extractLsb' 0 3 }) := by
  rw [(MapRow.irqEn rfl).write v s, hostWrite, droppedWhileBusy, Bool.and_false]
  rfl

/-! ### The layout of the words (R64, R68 to R71) -/

/-- Above the field a register reads 0 (R64). -/
theorem getLsbD_setWidth_above {n i : Nat} (x : BitVec n) (h : n ≤ i) : (x.setWidth 32).getLsbD i = false := by
  rw [BitVec.getLsbD_setWidth, BitVec.getLsbD_of_ge x i h, Bool.and_false]

/-- Byte `i` of a buffer word is byte `k + i` of the buffer (R68). -/
theorem byteOfWord_bufferWord (byteAt : Nat → Byte) (k : Nat) {i : Nat} (hi : i < 4) :
    byteOfWord (bufferWord byteAt k) i = byteAt (k + i) := by
  obtain ⟨h0, h1, h2, h3⟩ := byteOfWord_wordOfBytes (byteAt k) (byteAt (k + 1)) (byteAt (k + 2)) (byteAt (k + 3))
  match i, hi with
  | 0, _ => exact h0
  | 1, _ => exact h1
  | 2, _ => exact h2
  | 3, _ => exact h3

/-- The link word of a leaf (R70). -/
theorem linkWord_leaf {nd : Node} (h : nd.leaf = true) :
    (linkWord nd).getLsbD 31 = true ∧ (linkWord nd).extractLsb' 0 8 = nd.sym ∧
      (linkWord nd).extractLsb' 8 23 = 0#23 := by
  have hw : linkWord nd = 1#1 ++ 0#23 ++ nd.sym := if_pos h
  rw [hw, BitVec.getLsbD_append]
  refine ⟨rfl, BitVec.extractLsb'_append_eq_right, ?_⟩
  rw [BitVec.extractLsb'_append_eq_of_le (Nat.le_refl 8)]
  rfl

/-- The link word of an internal node (R70). -/
theorem linkWord_internal {nd : Node} (h : nd.leaf = false) :
    (linkWord nd).getLsbD 31 = false ∧ (linkWord nd).extractLsb' 0 9 = nd.left ∧
      (linkWord nd).extractLsb' 9 7 = 0#7 ∧ (linkWord nd).extractLsb' 16 9 = nd.right ∧
      (linkWord nd).extractLsb' 25 6 = 0#6 := by
  have hw : linkWord nd = 0#1 ++ 0#6 ++ nd.right ++ 0#7 ++ nd.left := if_neg (by simp [h])
  rw [hw]
  refine ⟨?_, BitVec.extractLsb'_append_eq_right, ?_, ?_, ?_⟩
  · simp only [BitVec.getLsbD_append]
    rfl
  · rw [BitVec.extractLsb'_append_eq_of_le (by decide), BitVec.extractLsb'_append_eq_right]
  · rw [BitVec.extractLsb'_append_eq_of_le (by decide), BitVec.extractLsb'_append_eq_of_le (by decide),
      BitVec.extractLsb'_append_eq_right]
  · rw [BitVec.extractLsb'_append_eq_of_le (by decide), BitVec.extractLsb'_append_eq_of_le (by decide),
      BitVec.extractLsb'_append_eq_of_le (by decide)]
    rfl

/-- The fields of a CLEN word (R71). -/
theorem clenWord_fields (c : BitVec 9) :
    (c.setWidth 32).extractLsb' 0 9 = c ∧ (c.setWidth 32).extractLsb' 9 23 = 0#23 := by
  constructor
  · rw [BitVec.extractLsb'_setWidth_of_le (by decide), BitVec.extractLsb'_eq_self]
  · ext i hi
    rw [BitVec.getElem_extractLsb', getLsbD_setWidth_above c (Nat.le_add_right 9 i), BitVec.getElem_zero]

/-- Bit `31 - j` of word `w` of a stored code is the code's bit `32 w + j`, counted from the first (R71). -/
theorem getLsbD_codeWord (c : BitVec 256) {w j : Nat} (hw : w < 8) (hj : j < 32) :
    (c.extractLsb' (32 * (7 - w)) 32).getLsbD (31 - j) = c.getMsbD (32 * w + j) := by
  rw [BitVec.getLsbD_extractLsb', BitVec.getMsbD, show 256 - 1 - (32 * w + j) = 32 * (7 - w) + (31 - j) by omega]
  simp only [show 31 - j < 32 by omega, show 32 * w + j < 256 by omega]

/-! ### The windows while idle -/

/-- Settles O26: a word of FREQ is the count, and bit `i` of word `w` of FVALID is bit `32 w + i` of the map. -/
theorem frequencyWindows : Obligations.FrequencyWindows := by
  refine fun s hb => ⟨fun k hk => (MapRow.freq k hk rfl).read_idle hb, fun w hw => ?_⟩
  rw [(MapRow.fvalid w hw rfl).read_idle hb]
  refine ⟨rfl, fun i hi => ?_⟩
  simp only [locWord, BitVec.getLsbD_extractLsb', hi, decide_true, Bool.true_and, State.fvalidAt]

/-- Settles O27: both windows read the entry below NODE_MAX and 0 at entry 511; the link word has its two shapes. -/
theorem nodeWindows : Obligations.NodeWindows := by
  refine fun s hb => ⟨fun n hn => ⟨?_, ?_⟩, (MapRow.nodeFreq 511 (by decide) rfl).read_idle hb,
    (MapRow.nodeLink 511 (by decide) rfl).read_idle hb⟩
  · rw [(MapRow.nodeFreq n (by omega) rfl).read_idle hb, locWord, Config.nodeMax, if_pos hn]
  · rw [(MapRow.nodeLink n (by omega) rfl).read_idle hb, locWord, Config.nodeMax, if_pos hn]
    rintro _ rfl
    exact ⟨linkWord_leaf, linkWord_internal⟩

/-- Settles O28: word `w` of a code is 32 bits of it, the first in bit 31. -/
theorem codeWindows : Obligations.CodeWindows := by
  intro s hb a ha
  rw [(MapRow.clen a ha rfl).read_idle hb]
  obtain ⟨hlow, hhigh⟩ := clenWord_fields (s.clenAt a)
  refine ⟨hlow, hhigh, fun w hw j hj => ?_⟩
  rw [(MapRow.code a w ha hw rfl).read_idle hb]
  exact getLsbD_codeWord _ hw hj

/-- Settles O25: a read is `bufferWord` of the four bytes, and a write is `writeInbuf`. -/
theorem bufferWindowsAreLittleEndian : Obligations.BufferWindowsAreLittleEndian := by
  refine ⟨fun s k hk hb i hi => ?_, fun s k v hk hb => ?_⟩
  · rw [(MapRow.inbuf k hk rfl).read_idle hb, (MapRow.outbuf k hk rfl).read_idle hb]
    exact ⟨byteOfWord_bufferWord s.inByte _ hi, byteOfWord_bufferWord s.outByte _ hi⟩
  · have hin : ∀ j, ({ s with inbuf := writeInbuf (4 * k) v s.inbuf } : State).inByte j =
        if 4 * k ≤ j ∧ j < 4 * k + 4 then byteOfWord v (j - 4 * k) else s.inByte j :=
      writeInbuf_get _ _ _ _
    refine ⟨_, (MapRow.inbuf k hk rfl).write v s, ?_⟩
    rw [hostWrite_idle _ _ hb, writeLoc]
    refine ⟨fun i hi => ?_, fun j hj => ?_, rfl⟩
    · rw [hin, if_pos (by omega), Nat.add_sub_cancel_left, byteOfWord]
    · rw [hin, if_neg (by omega)]

/-! ### The registers -/

/-- Settles O21: each register's row, read while idle and written. -/
theorem registerReadsAndWrites : Obligations.RegisterReadsAndWrites := by
  refine ⟨fun s hb => ?_, fun s v hb => ⟨?_, ?_⟩, fun s v => busWriteAt_irqEn v s⟩
  · have read {a l} (h : MapRow a l) := h.read_idle hb
    exact ⟨read (.id rfl), read (.cmd rfl), read (.result rfl), read (.errInfo rfl), read (.data rfl), read (.inLen rfl),
      read (.outLen rfl), read (.root rfl), read (.nnode rfl), read (.nleaf rfl), read (.codeMaxLen rfl),
      read (.irqEn rfl), read (.irqStatus rfl), read (.cap rfl)⟩
  · rw [(MapRow.data rfl).write v s, hostWrite_idle _ _ hb, writeLoc]
  · rw [(MapRow.inLen rfl).write v s, hostWrite_idle _ _ hb, writeLoc]

/-- Settles O30: a read answers the block itself, or the block after one draw. -/
theorem readsHaveNoSideEffect : Obligations.ReadsHaveNoSideEffect := by
  intro s off bytes
  rcases busReadAt_state off bytes s with h | ⟨_, h⟩ <;> rw [h]

/-! ### Reads whose value is fixed (R64, R67) -/

/-- A location that no command writes is fixed at any time. -/
theorem readUnfixed_eq_zero (s : State) {l : Loc} (h : ∀ i, unfixedBits i l = 0#32) : readUnfixed s l = 0#32 := by
  unfold readUnfixed
  split
  · split
    · split
      · exact h _
      · rfl
    · rfl
  · rfl

/-- A read of a fixed location returns its word, busy or not. -/
theorem busReadAt_fixed {off : Offset} {s : State} (h : off.extractLsb' 0 2 = 0#2)
    (hl : readUnfixed s (locate off) = 0#32) : (busReadAt off 4 s).1 = ⟨.ok, locWord s (locate off)⟩ := by
  cases hb : s.busyF with
  | false => rw [busReadAt_idle h hb]
  | true => rw [busReadAt_busy h hb, readWord_fixed hl]

/-! ### Writes that are ignored or dropped (R64, R66) -/

section
variable {a : Nat} {l : Loc} (h : MapRow a l) (v : Word) (s : State)
include h

/-- A write to a read-only or reserved location is ignored, busy or not (R64). -/
theorem MapRow.hostWrite_ignored (ha : a ∉ [0x0004, 0x0014, 0x0018, 0x0030, 0x0034])
    (hin : ¬(0x8000 ≤ a ∧ a ≤ 0xBFFF)) : hostWrite v l s = s := by
  cases h with
  | cmd h | data h | inLen h | irqEn h | irqStatus h => subst h; exact absurd (by decide) ha
  | inbuf k hk h => omega
  | _ => simp [hostWrite, droppedWhileBusy, writeLoc]

/-- A write while busy (R66). -/
theorem MapRow.hostWrite_busy (hb : s.busyF = true) : hostWrite v l s =
    if a = 0x0004 ∨ a = 0x0014 ∨ a = 0x0018 ∨ (0x8000 ≤ a ∧ a ≤ 0xBFFC) then
      { s with irqStatus := s.irqStatus ||| 0b100#3 }
    else if a = 0x0030 then { s with irqEn := v.extractLsb' 0 3 }
    else if a = 0x0034 then { s with irqStatus := s.irqStatus &&& ~~~(v.extractLsb' 0 3) }
    else s := by
  have hdrop : overrun s = { s with irqStatus := s.irqStatus ||| 0b100#3 } := by rw [overrun, irqNext_set, irqOvr]
  by_cases hd : a = 0x0004 ∨ a = 0x0014 ∨ a = 0x0018 ∨ (0x8000 ≤ a ∧ a ≤ 0xBFFC)
  · rw [if_pos hd, ← hdrop]
    cases h with
    | cmd _ | data _ | inLen _ | inbuf _ _ _ => rw [hostWrite, hb]; rfl
    | _ => omega
  by_cases he : a = 0x0030
  · rw [if_neg hd, if_pos he]
    cases h with
    | irqEn _ => rw [hostWrite, droppedWhileBusy, Bool.and_false]; rfl
    | _ => omega
  by_cases hi : a = 0x0034
  · rw [if_neg hd, if_neg he, if_pos hi, ← irqNext_clear]
    cases h with
    | irqStatus _ => rw [hostWrite, droppedWhileBusy, Bool.and_false]; rfl
    | _ => omega
  rw [if_neg hd, if_neg he, if_neg hi]
  obtain ⟨-, h4⟩ := h.bounds
  exact h.hostWrite_ignored v s (by simp only [List.mem_cons, List.not_mem_nil, or_false]; omega) (by omega)

end

/-- Settles O20: a reserved offset is fixed and reads 0, the writes of R64 are ignored, and the words of the registers
end with their fields. -/
theorem reservedAndReadOnlyLocations : Obligations.ReservedAndReadOnlyLocations := by
  refine ⟨fun s off ha hres => ?_, fun s off v ha hn hin => ?_, fun s i hb hi => ?_, fun s i hb hi => ?_,
    fun s i hb hi => ?_, fun s i hb hi => ?_, fun s i hb hi => ?_, fun s v v' h => ?_⟩
  · have hl : locate off = .reserved := (MapRow.reserved ((aligned_iff off).mp ha) hres).locate_eq
    rw [busReadAt_fixed ha (readUnfixed_eq_zero s fun i => by rw [hl]; cases i <;> rfl), hl, locWord]
  · rw [busWriteAt_word v s ha, (mapRow_locate ha).hostWrite_ignored v s hn hin]
  · rw [(MapRow.root rfl).read_idle hb, (MapRow.nleaf rfl).read_idle hb, (MapRow.codeMaxLen rfl).read_idle hb]
    exact ⟨getLsbD_setWidth_above _ hi, getLsbD_setWidth_above _ hi, getLsbD_setWidth_above _ hi⟩
  · rw [(MapRow.nnode rfl).read_idle hb]
    exact getLsbD_setWidth_above _ hi
  · rw [(MapRow.result rfl).read_idle hb]
    exact getLsbD_setWidth_above _ hi
  · rw [busReadAt_status_idle hb, statusWord_high s hi]
  · rw [(MapRow.irqEn rfl).read_idle hb, (MapRow.irqStatus rfl).read_idle hb]
    exact ⟨getLsbD_setWidth_above _ hi, getLsbD_setWidth_above _ hi⟩
  · rw [busWriteAt_irqEn, busWriteAt_irqEn, busWriteAt_irqStatus, busWriteAt_irqStatus, h]
    exact ⟨rfl, rfl⟩

/-! ### Accesses the block rejects (R63) -/

/-- Settles O18: `accessOk` refuses the access, so it answers ERROR and the block itself. -/
theorem misalignedOrNarrowAnswersError : Obligations.MisalignedOrNarrowAnswersError := by
  intro s off bytes v h
  have herr := accessOk_eq_false h
  rw [busWriteAt_error v s herr]
  exact ⟨busReadAt_error s herr, rfl, rfl⟩

/-- An address in the window at HUFF_BASE has its low 16 bits as offset (R60). -/
theorem windowOffset_inWindow {addr : Nat} (hlo : Config.huffBase ≤ addr) (hhi : addr < Config.huffBase + 65536) :
    windowOffset addr = some (BitVec.ofNat 16 addr) := by
  unfold Config.huffBase at hlo hhi
  exact if_pos (by omega)

theorem aligned_ofNat (addr : Nat) : (BitVec.ofNat 16 addr).extractLsb' 0 2 = 0#2 ↔ addr % 4 = 0 := by
  rw [aligned_iff, BitVec.toNat_ofNat]
  omega

/-- Settles O19: read or write, the step only takes the ERROR reply. -/
theorem misalignedAndNarrowAccessesHaveNoEffect : Obligations.MisalignedAndNarrowAccessesHaveNoEffect := by
  intro s addr bytes v rest hlo hhi hbad ht hr ho
  have hoff := windowOffset_inWindow hlo hhi
  have herr : accessOk (BitVec.ofNat 16 addr) bytes = false :=
    accessOk_eq_false (hbad.imp_left (mt (aligned_ofNat addr).mp))
  have hstep : step s = .next (advanceHost (takeReply ⟨.error, 0#32⟩ { s with latency := s.latency - 1 })) := by
    rcases ho with ho | ho
    · rw [step_hostOp ht ho, perform, if_neg (by simp [hr]), performAccess, busReadAccess_in _ _ hoff, readAccess,
        busReadAt_error _ herr]
    · rw [step_hostOp ht ho, perform, if_neg (by simp [hr]), performAccess, busWriteAccess_in _ _ _ hoff, writeAccess,
        busWriteAt_error _ _ herr]
  refine ⟨_, hstep, ?_, rfl, rfl⟩
  rcases ho with ho | ho <;> exact congrArg List.tail ho

/-! ### A decoded word is its command's word (R103, R104) -/

theorem encode_of_withoutArg {op arg : BitVec 8} {i j : Instr} (h : withoutArg op arg i = .ok j)
    (he : encode i = commandWord op 0#8) : commandWord op arg = encode j := by
  obtain ⟨rfl, rfl⟩ := withoutArg_ok.mp h
  exact he.symm

theorem encode_of_withMode {op arg : BitVec 8} {f : Mode → Instr} {j : Instr} (h : withMode op arg f = .ok j)
    (he : ∀ m, encode (f m) = commandWord op (argOfMode m)) : commandWord op arg = encode j := by
  obtain ⟨ha, rfl⟩ := withMode_ok.mp h
  rw [he, argOfMode_modeOfArg arg ha]

theorem encode_of_decode {w : Word} {i : Instr} (h : decode w = .ok i) : w = encode i := by
  by_cases hrsv : rsvField w = 0#16
  · rw [word_eq_commandWord hrsv]
    simp only [decode, hrsv, ne_eq, not_true_eq_false, if_false] at h
    generalize opField w = op at h ⊢
    generalize argField w = arg at h ⊢
    split_ifs at h <;> subst op
    · exact encode_of_withoutArg h rfl
    · exact encode_of_withoutArg h rfl
    · exact encode_of_withoutArg h rfl
    · cases h; rfl
    · cases h; rfl
    · exact encode_of_withoutArg h rfl
    · exact encode_of_withoutArg h rfl
    · exact encode_of_withMode h fun _ => rfl
    · exact encode_of_withMode h fun _ => rfl
    · exact encode_of_withoutArg h rfl
  · rw [decode, if_pos hrsv] at h
    cases h

theorem legalWord_encode (i : Instr) : legalWord (encode i) = true := by
  cases i with
  | nop => exact Laws.EncodesLegal.nop
  | srst => exact Laws.EncodesLegal.srst
  | fclr => exact Laws.EncodesLegal.fclr
  | fset sym => exact Laws.EncodesLegal.fset sym
  | fdel sym => exact Laws.EncodesLegal.fdel sym
  | build => exact Laws.EncodesLegal.build
  | genc => exact Laws.EncodesLegal.genc
  | enc m => exact Laws.EncodesLegal.enc m
  | dec m => exact Laws.EncodesLegal.dec m
  | move => exact Laws.EncodesLegal.move

/-- An illegal word does not decode (R104). -/
theorem decode_illegal {w : Word} (h : legalWord w = false) : ∃ e, decode w = .error e := by
  cases hd : decode w with
  | error e => exact ⟨e, rfl⟩
  | ok i => rw [encode_of_decode hd, legalWord_encode] at h; cases h

/-! ### Any-value reads (R67) -/

/-- The table of R67 by offset is the model's by location: a register's row is one offset, at which both evaluate, and
in a window `omega` decides the table's ranges. Entry 511 of a node window has no bits. -/
theorem MapRow.anyValueBits_eq {a : Nat} {l : Loc} (h : MapRow a l) (i : Instr) :
    anyValueBits i a = unfixedBits i l := by
  cases h with
  | nodeFreq n _ _ | nodeLink n _ _ =>
    by_cases hn : n < 511 <;> cases i <;>
      simp (disch := omega) only [anyValueBits, unfixedBits, unfixedBySrst, unfixedByFreqTable, unfixedByBuild,
        unfixedByGenc, unfixedByStream, unfixedByMove, Bool.and_eq_true, Bool.or_eq_true, decide_eq_true_eq, if_pos,
        if_neg, Config.nodeMax, linkBits, hn, if_true, if_false]
  | reserved _ _ | freq _ _ _ | fvalid _ _ _ | clen _ _ _ | code _ _ _ _ _ | inbuf _ _ _ | outbuf _ _ _ =>
    cases i <;>
      simp (disch := omega) only [anyValueBits, unfixedBits, unfixedBySrst, unfixedByFreqTable, unfixedByBuild,
        unfixedByGenc, unfixedByStream, unfixedByMove, Bool.and_eq_true, Bool.or_eq_true, decide_eq_true_eq, if_pos,
        if_neg, bits9]
  | _ ha => subst ha; cases i <;> rfl

theorem readUnfixed_running {s : State} {w : Word} {i : Instr} (l : Loc) (hb : s.busyF = true)
    (hp : s.pend = some w) (hd : decode w = .ok i) : readUnfixed s l = unfixedBits i l := by
  simp [readUnfixed, hb, hp, hd]

/-- Settles O29: the free bits of a read are those of the table's row, an illegal word has none, and no command has any
in BUSY, DONE, RESULT or ERR_INFO. -/
theorem readsWhileBusy : Obligations.ReadsWhileBusy := by
  refine ⟨fun s w i off hb hp hd ha => ?_, fun s w off hb hp hw ha => ?_, fun s hS hb => ⟨?_, ?_, ?_, ?_⟩⟩
  · rw [busReadAt_busy ha hb, readWord, readUnfixed_running _ hb hp hd, (mapRow_locate ha).anyValueBits_eq]
  · obtain ⟨e, he⟩ := decode_illegal hw
    exact busReadAt_fixed ha (readUnfixed_illegal _ hp he)
  · rw [busReadAt_status_low s (by decide), statusWord_busy, hb]
  · rw [busReadAt_status_low s (by decide), statusWord_done, hS.busy_not_done hb]
  · rw [busReadAt_fixed (by decide) (readUnfixed_eq_zero s fun i => by cases i <;> rfl)]
    rfl
  · rw [busReadAt_fixed (by decide) (readUnfixed_eq_zero s fun i => by cases i <;> rfl)]
    rfl

/-! ### What a step of the host does to the block (R65, R66, R79) -/

/-- A word write of the host, busy or not (R65, R66). -/
theorem step_write {s : State} {off : Offset} {v : Word} {rest : List HostOp} (h : off.extractLsb' 0 2 = 0#2)
    (ht : engineTurn s = false) (hr : s.rstAsserted = false) (ho : s.hostOps = .wr off v :: rest) :
    step s = .next (advanceHost (takeReply ⟨.ok, 0#32⟩
      (hostWrite v (locate off) { s with latency := s.latency - 1 }))) := by
  rw [step_hostOp ht ho, perform, if_neg (by simp [hr]), performAccess, writeAccess, busWriteAt_word _ _ h]

/-- All that an access of the host can write (R65, R79). -/
theorem HostEffect.frame {s b : State} (h : HostEffect s b) :
    b = { s with cmdLast := b.cmdLast, data := b.data, inLen := b.inLen, irqEn := b.irqEn, irqStatus := b.irqStatus,
                 busyF := b.busyF, doneF := b.doneF, pend := b.pend, inbuf := b.inbuf, latency := b.latency,
                 draws := b.draws } := by
  cases h <;> rfl

/-- While busy an access writes the interrupt registers alone (R66). -/
theorem HostEffect.frame_busy {s b : State} (h : HostEffect s b) (hb : s.busyF = true) :
    b = { s with irqEn := b.irqEn, irqStatus := b.irqStatus, draws := b.draws } := by
  cases h with
  | accepted _ hi | data _ hi | inLen _ hi | inbuf _ _ hi _ => rw [hb] at hi; cases hi
  | _ => rfl

/-- A step of the host that asserts no `rst` has one effect on the block, and may release `rst`. -/
theorem step_hostEffect {s t : State} {op : HostOp} {rest : List HostOp} (ht : engineTurn s = false)
    (ho : s.hostOps = op :: rest) (hop : op ≠ .assertRst) (hs : step s = .next t) :
    ∃ b r, HostEffect { s with latency := s.latency - 1 } b ∧ HostMoves { b with rstAsserted := r } t := by
  rcases step_cases hs with ⟨he, _⟩ | ⟨_, hn, _⟩ | ⟨_, op', rest', ho', _, rfl⟩
  · rw [ht] at he; cases he
  · rw [ho] at hn; cases hn
  · obtain ⟨rfl, rfl⟩ := List.cons.inj (ho.symm.trans ho')
    by_cases hrel : op = .releaseRst
    · subst hrel
      exact ⟨_, false, .unchanged, _, _, _, _, rfl⟩
    · obtain ⟨b, hb, hm⟩ := access_effect op { s with latency := s.latency - 1 } hop hrel
      exact ⟨b, b.rstAsserted, hb, hm⟩

/-- Settles O31: the frame of the one effect a step of the host has, idle and busy. -/
theorem hostCannotReachCommandState : Obligations.HostCannotReachCommandState := by
  intro s t op rest ht ho hop hs
  obtain ⟨b, r, hb, _, _, _, _, rfl⟩ := step_hostEffect ht ho hop hs
  refine ⟨?_, fun hbusy => ?_⟩
  · rw [hb.frame]
    exact ⟨rfl, rfl, rfl, rfl, rfl, rfl, rfl, rfl, rfl, rfl, rfl, rfl, rfl, rfl, rfl⟩
  · rw [hb.frame_busy hbusy]
    exact ⟨hbusy, rfl, rfl, rfl, rfl, rfl, rfl⟩

/-- Settles O17: the step is `hostWrite`, which `MapRow.hostWrite_busy` gives offset by offset. -/
theorem writesWhileBusy : Obligations.WritesWhileBusy := by
  intro s off v rest ha hb hl hr ho
  have hframe := (hostWrite_effect v { s with latency := s.latency - 1 } ha).frame
  refine ⟨_, step_write ha (engineTurn_waiting hl ho) hr ho, ?_, ?_, ?_⟩
  · rw [hframe]; exact congrArg List.tail ho
  · rw [hframe]; rfl
  · rw [(mapRow_locate ha).hostWrite_busy v { s with latency := s.latency - 1 } hb]
    split_ifs <;> rfl

/-! ### A DATA write that races with a completion (V9) -/

/-- At the engine's turn NOP completes (R123). -/
theorem step_nop {s : State} (ht : engineTurn s = true) (hp : s.pend = some 0x00000000#32) :
    step s = .next (complete s) := by
  rw [step_engine ht, engineStep, hp]
  rfl

/-- Settles O32: with the LATENCY over NOP completes and then the write is applied; before that the write is dropped with
OVR, and NOP completes in the next step because no host operation is left. -/
theorem dataWriteRacesWithCompletion : Obligations.DataWriteRacesWithCompletion := by
  intro s hb hp hr ho
  by_cases hl : s.latency = 0
  · have ht : engineTurn s = true := by simp [engineTurn, hb, hl]
    exact ⟨complete s, _, step_nop ht hp, step_write_idle (by decide) rfl hr ho, rfl, rfl,
      fun _ => ⟨rfl, irqNext_set _ _⟩, absurd hl⟩
  · have hdrop := (MapRow.data rfl).hostWrite_busy 0x00000005#32 { s with latency := s.latency - 1 } hb
    have hstep := step_write (by decide) (engineTurn_waiting hl ho) hr ho
    rw [show locate 0x0014#16 = .data from rfl, hdrop, if_pos (by decide)] at hstep
    refine ⟨_, _, hstep, step_nop ?_ hp, rfl, rfl, (absurd · hl), fun _ => ⟨rfl, ?_⟩⟩
    · simp [engineTurn, advanceHost, takeReply, hb, ho]
    · rw [complete_irqStatus, irqNext_set]
      exact BitVec.or_assoc _ _ _

end Sys2Proof.Machine

/-! ## The encoding's family: the opcode map, the assembler's words and LOADIN (spec/30_encoding.md)

A word is its three fields, and `eq_commandWord_iff` says which fields a command's word has. `opRow_holds_iff` reads a row
of the opcode map as a condition on the fields, and `LegalFields` is what the ten rows together say. -/

namespace Sys2Proof.Machine

/-! ### Words and their fields (R101) -/

theorem opField_and (v w : Word) : opField (v &&& w) = opField v &&& opField w := BitVec.extractLsb'_and

theorem rsvField_and (v w : Word) : rsvField (v &&& w) = rsvField v &&& rsvField w := BitVec.extractLsb'_and

theorem argField_and (v w : Word) : argField (v &&& w) = argField v &&& argField w := BitVec.extractLsb'_and

theorem eq_commandWord_iff {w : Word} {op arg : BitVec 8} :
    w = commandWord op arg ↔ opField w = op ∧ rsvField w = 0#16 ∧ argField w = arg := by
  constructor
  · rintro rfl
    exact ⟨opField_commandWord op arg, rsvField_commandWord op arg, argField_commandWord op arg⟩
  · rintro ⟨rfl, hrsv, rfl⟩
    exact word_eq_commandWord hrsv

/-- A mask that keeps OP and RSV leaves a word of ARG 0 exactly when the fields it keeps are that word's. -/
theorem and_mask_eq_iff {mask : Word} (hop : opField mask = 0xFF#8) (hrsv : rsvField mask = 0xFFFF#16) (w : Word)
    (op : BitVec 8) : w &&& mask = commandWord op 0#8 ↔
      opField w = op ∧ rsvField w = 0#16 ∧ argField w &&& argField mask = 0#8 := by
  have hop' : opField w &&& 0xFF#8 = opField w := BitVec.and_allOnes
  have hrsv' : rsvField w &&& 0xFFFF#16 = rsvField w := BitVec.and_allOnes
  rw [eq_commandWord_iff, opField_and, rsvField_and, argField_and, hop, hrsv, hop', hrsv']

/-- ARG of the word of a mode command (R102). -/
theorem eq_argOfMode_iff (arg : BitVec 8) (m : Mode) :
    arg = argOfMode m ↔ arg &&& 0xFE#8 = 0#8 ∧ m = if arg.getLsbD 0 then .A else .P := by
  cases m <;> revert arg <;> decide

/-- A word with an ARG is the word with ARG 0 plus that number. -/
theorem commandWord_ofNat (op : BitVec 8) {n : Nat} (hn : n ≤ 255) :
    commandWord op (BitVec.ofNat 8 n) = commandWord op 0#8 + BitVec.ofNat 32 n := by
  have harg : 0#24 ++ BitVec.ofNat 8 n = BitVec.ofNat 32 n := by
    apply BitVec.eq_of_toNat_eq
    rw [BitVec.toNat_append, BitVec.toNat_zero, Nat.zero_shiftLeft, Nat.zero_or, BitVec.toNat_ofNat, BitVec.toNat_ofNat]
    omega
  rw [← harg]
  exact BitVec.append_zero_add_zero_append.symm

/-! ### Decoding and encoding (R103, R105) -/

theorem decode_encode (i : Instr) : decode (encode i) = .ok i := by
  cases i with
  | fset sym | fdel sym => simp [encode, decode]
  | enc m | dec m => cases m <;> rfl
  | _ => rfl

theorem decode_eq_ok_iff {w : Word} {i : Instr} : decode w = .ok i ↔ w = encode i :=
  ⟨encode_of_decode, fun h => h ▸ decode_encode i⟩

/-- Settles O2: a decoded word is its command's word, and every command's word decodes to it. -/
theorem decodeIsInverseOfEncode : Obligations.DecodeIsInverseOfEncode := fun _ _ => decode_eq_ok_iff

/-- Settles O1: the legal words are the words of their commands. -/
theorem decodeOfTableWords : Obligations.DecodeOfTableWords := by
  have h (i : Instr) : decode (encode i) = .ok i := decode_encode i
  exact ⟨h .nop, h .srst, h .fclr, h (.fset 0x61#8), h (.fset 0xFF#8), h (.fdel 0x00#8), h .build, h .genc, h (.enc .P),
    h (.enc .A), h (.dec .P), h (.dec .A), h .move, rfl, rfl, rfl, rfl, rfl⟩

/-! ### The opcode map (R103) -/

/-- A row without a variable field: its word alone. -/
theorem decode_ok_iff_bare (w : Word) (i : Instr) : decode w = .ok i ↔ w &&& 0xFFFFFFFF#32 = encode i := by
  have hw : w &&& 0xFFFFFFFF#32 = w := BitVec.and_allOnes
  rw [decode_eq_ok_iff, hw]

/-- A row whose ARG is SYM. -/
theorem decode_ok_iff_sym {op : BitVec 8} {f : Symbol → Instr} (hf : ∀ sym, encode (f sym) = commandWord op sym)
    (w : Word) (sym : Symbol) :
    decode w = .ok (f sym) ↔ w &&& 0xFFFFFF00#32 = commandWord op 0#8 ∧ sym = argField w := by
  rw [decode_eq_ok_iff, hf, eq_commandWord_iff, and_mask_eq_iff (by decide) (by decide),
    show argField 0xFFFFFF00#32 = 0#8 by decide, BitVec.and_zero, eq_comm (a := sym)]
  tauto

/-- A row whose ARG is MODE. -/
theorem decode_ok_iff_mode {op : BitVec 8} {f : Mode → Instr} (hf : ∀ m, encode (f m) = commandWord op (argOfMode m))
    (w : Word) (m : Mode) :
    decode w = .ok (f m) ↔
      w &&& 0xFFFFFFFE#32 = commandWord op 0#8 ∧ m = (if w.getLsbD 0 then Mode.A else Mode.P) := by
  have hbit : (argField w).getLsbD 0 = w.getLsbD 0 := by simp [argField]
  rw [decode_eq_ok_iff, hf, eq_commandWord_iff, and_mask_eq_iff (by decide) (by decide),
    show argField 0xFFFFFFFE#32 = 0xFE#8 by decide, eq_argOfMode_iff, hbit]
  tauto

/-- A row of the map by fields: its OP, RSV 0, and no bit of ARG but the variable ones. -/
theorem opRow_holds_iff {r : OpRow} (hr : r ∈ opRows) (w : Word) : r.holds w = true ↔
    opField w = opField r.pattern ∧ rsvField w = 0#16 ∧ argField w &&& argField r.mask = 0#8 := by
  have hrow : ∀ r ∈ opRows, opField r.mask = 0xFF#8 ∧ rsvField r.mask = 0xFFFF#16 ∧
      r.pattern = commandWord (opField r.pattern) 0#8 := by decide
  obtain ⟨hop, hrsv, hpat⟩ := hrow r hr
  rw [← and_mask_eq_iff hop hrsv, ← hpat, OpRow.holds, beq_iff_eq]

/-- No two rows share an opcode, so no word is in two rows (R103). -/
theorem length_filter_holds_le_one (w : Word) : (opRows.filter (fun r => r.holds w)).length ≤ 1 := by
  have hops : (opRows.map fun r => opField r.pattern).Nodup := by decide
  calc (opRows.filter (fun r => r.holds w)).length
      = opRows.countP (fun r => r.holds w) := List.countP_eq_length_filter.symm
    _ ≤ opRows.countP (fun r => opField r.pattern == opField w) :=
        List.countP_mono_left fun r hr h => beq_iff_eq.mpr ((opRow_holds_iff hr w).mp h).1.symm
    _ = (opRows.map fun r => opField r.pattern).count (opField w) := by rw [List.count, List.countP_map]; rfl
    _ ≤ 1 := List.nodup_iff_count_le_one.mp hops _

/-- Settles O3: row by row, `decode_eq_ok_iff` with the fields that the row's mask keeps. -/
theorem decodeFollowsOpcodeMap : Obligations.DecodeFollowsOpcodeMap := fun w =>
  ⟨decode_ok_iff_bare w .nop, decode_ok_iff_bare w .srst, decode_ok_iff_bare w .fclr,
    decode_ok_iff_sym (op := 0x03#8) (fun _ => rfl) w, decode_ok_iff_sym (op := 0x04#8) (fun _ => rfl) w,
    decode_ok_iff_bare w .build, decode_ok_iff_bare w .genc,
    decode_ok_iff_mode (op := 0x20#8) (fun _ => rfl) w, decode_ok_iff_mode (op := 0x30#8) (fun _ => rfl) w,
    decode_ok_iff_bare w .move, length_filter_holds_le_one w⟩

/-! ### Illegal words (R104) -/

/-- The fields of a legal word: an opcode of the map, RSV 0, and an ARG that the opcode admits. -/
structure LegalFields (w : Word) : Prop where
  opcode : opField w ∈ [0x00#8, 0x01#8, 0x02#8, 0x03#8, 0x04#8, 0x10#8, 0x11#8, 0x20#8, 0x30#8, 0x40#8]
  reserved : rsvField w = 0#16
  bare : opField w ∈ [0x00#8, 0x01#8, 0x02#8, 0x10#8, 0x11#8, 0x40#8] → argField w = 0#8
  mode : opField w ∈ [0x20#8, 0x30#8] → (argField w).extractLsb' 1 7 = 0#7

/-- The fields of a word in a row are legal. -/
theorem legalFields_of_legalWord {w : Word} (h : legalWord w = true) : LegalFields w := by
  obtain ⟨r, hr, hw⟩ := List.any_eq_true.mp h
  obtain ⟨hop, hrsv, harg⟩ := (opRow_holds_iff hr w).mp hw
  have hops : ∀ r ∈ opRows,
      opField r.pattern ∈ [0x00#8, 0x01#8, 0x02#8, 0x03#8, 0x04#8, 0x10#8, 0x11#8, 0x20#8, 0x30#8, 0x40#8] ∧
      (opField r.pattern ∈ [0x00#8, 0x01#8, 0x02#8, 0x10#8, 0x11#8, 0x40#8] → argField r.mask = 0xFF#8) ∧
      (opField r.pattern ∈ [0x20#8, 0x30#8] → argField r.mask = 0xFE#8) := by decide
  obtain ⟨hmem, hbare, hmode⟩ := hops r hr
  rw [← hop] at hmem hbare hmode
  have hlow : ∀ arg : BitVec 8, arg &&& 0xFF#8 = 0#8 → arg = 0#8 := by decide
  have hhigh : ∀ arg : BitVec 8, arg &&& 0xFE#8 = 0#8 → arg.extractLsb' 1 7 = 0#7 := by decide
  exact ⟨hmem, hrsv, fun hb => hlow _ (hbare hb ▸ harg), fun hm => hhigh _ (hmode hm ▸ harg)⟩

/-- A word with legal fields decodes. -/
theorem LegalFields.decode_ok {w : Word} (h : LegalFields w) : ∃ i, decode w = .ok i := by
  obtain ⟨hop, hrsv, hbare, hmode⟩ := h
  rw [word_eq_commandWord hrsv]
  generalize opField w = op at *
  generalize argField w = arg at *
  have bare (i : Instr) (he : encode i = commandWord op 0#8)
      (hb : op ∈ [0x00#8, 0x01#8, 0x02#8, 0x10#8, 0x11#8, 0x40#8]) : ∃ i, decode (commandWord op arg) = .ok i :=
    ⟨i, decode_eq_ok_iff.mpr (by rw [he, hbare hb])⟩
  have mode (f : Mode → Instr) (he : ∀ m, encode (f m) = commandWord op (argOfMode m)) (hm : op ∈ [0x20#8, 0x30#8]) :
      ∃ i, decode (commandWord op arg) = .ok i :=
    ⟨f (modeOfArg arg), decode_eq_ok_iff.mpr (by rw [he, argOfMode_modeOfArg arg (hmode hm)])⟩
  fin_cases hop
  · exact bare .nop rfl (by decide)
  · exact bare .srst rfl (by decide)
  · exact bare .fclr rfl (by decide)
  · exact ⟨.fset arg, decode_encode (.fset arg)⟩
  · exact ⟨.fdel arg, decode_encode (.fdel arg)⟩
  · exact bare .build rfl (by decide)
  · exact bare .genc rfl (by decide)
  · exact mode .enc (fun _ => rfl) (by decide)
  · exact mode .dec (fun _ => rfl) (by decide)
  · exact bare .move rfl (by decide)

/-- A word is legal exactly when it decodes. -/
theorem legalWord_iff_decode (w : Word) : legalWord w = true ↔ ∃ i, decode w = .ok i := by
  refine ⟨fun h => (legalFields_of_legalWord h).decode_ok, ?_⟩
  rintro ⟨i, hi⟩
  rw [encode_of_decode hi]
  exact legalWord_encode i

theorem legalWord_iff_fields (w : Word) : legalWord w = true ↔ LegalFields w :=
  ⟨legalFields_of_legalWord, fun h => (legalWord_iff_decode w).mpr h.decode_ok⟩

/-- At the engine's turn an illegal word fails and changes nothing else (R104, R121). -/
theorem step_illegal {s : State} {w : Word} (ht : engineTurn s = true) (hp : s.pend = some w)
    (hw : legalWord w = false) : step s = .next (afterFailure 0x04#8 w s) := by
  obtain ⟨e, he⟩ := decode_illegal hw
  simp only [step_engine ht, engineStep, hp, runWord, he, raiseFailure, failureEffects, completeFailed_eq_afterFailure,
    Cause.resultCode]

/-- Settles O4: an illegal word breaks one of the four conditions of `LegalFields`; the acceptance is that of any word,
and the failing completion writes its own fields only. -/
theorem illegalWordsFailAndChangeNothingElse : Obligations.IllegalWordsFailAndChangeNothingElse := by
  intro w
  have harg : (argField w).extractLsb' 1 7 = w.extractLsb' 1 7 := BitVec.extractLsb'_extractLsb'_of_le (by decide)
  refine ⟨?_, ?_, fun s _ hb => ?_, fun s hw hb hp hl => step_illegal (by simp [engineTurn, hb, hl]) hp hw⟩
  · rw [← Bool.not_eq_true, legalWord_iff_fields, ← harg]
    constructor
    · intro h
      by_contra hc
      push Not at hc
      obtain ⟨hop, hrsv, hbare, hmode⟩ := hc
      exact h ⟨hop, hrsv, hbare, hmode⟩
    · rintro (hop | hrsv | ⟨hb, hne⟩ | ⟨hm, hne⟩) h
      · exact hop h.opcode
      · exact hrsv h.reserved
      · exact hne (h.bare hb)
      · exact hne (h.mode hm)
  · rw [← Bool.not_eq_true, legalWord_iff_decode, not_exists]
  · rw [(MapRow.cmd rfl).write w s, hostWrite_idle _ _ hb]
    exact ⟨_, rfl, rfl, rfl, rfl, rfl⟩

/-! ### The assembler (R106) -/

theorem legalWord_of_assemble {l : AsmLine} {w : Word} (h : assemble l = some w) : legalWord w = true := by
  obtain ⟨i, _, rfl⟩ := Option.map_eq_some_iff.mp h
  exact legalWord_encode i

/-- A `sym` in range is ARG of its line's word. -/
theorem assemble_sym {o : SymOperand} {n : Nat} (hw : o.wellFormed = true) (hv : o.value = BitVec.ofNat 8 n)
    (hn : n ≤ 255) : assemble (.fset o) = some (0x03000000#32 + BitVec.ofNat 32 n) ∧
      assemble (.fdel o) = some (0x04000000#32 + BitVec.ofNat 32 n) := by
  simp only [assemble, AsmLine.command, AsmLine.wellFormed, hw, if_true, Option.map_some, encode, hv,
    commandWord_ofNat _ hn]
  exact ⟨rfl, rfl⟩

/-- A `sym` out of range is an assembly error. -/
theorem assemble_sym_refused {o : SymOperand} (hw : o.wellFormed = false) :
    assemble (.fset o) = none ∧ assemble (.fdel o) = none := by
  simp [assemble, AsmLine.command, AsmLine.wellFormed, hw]

/-- Settles O5: a line emits its command's word, which is legal, or nothing. -/
theorem assemblerEmitsOnlyLegalWords : Obligations.AssemblerEmitsOnlyLegalWords :=
  ⟨fun _ _ => legalWord_of_assemble,
    fun _ hn => assemble_sym (decide_eq_true hn) rfl hn,
    fun _ hc => assemble_sym (decide_eq_true hc) rfl (by omega),
    fun _ hn => assemble_sym_refused (decide_eq_false (by omega)),
    rfl, rfl, rfl, rfl, rfl, rfl, rfl, rfl, rfl, rfl⟩

/-! ### LOADIN (R108) -/

/-- One step after a run. -/
theorem run_then_step {s t u : State} {m : Nat} (hrun : core.run m s = .next t) (hstep : step t = .next u) :
    core.run (m + 1) s = .next u := by
  induction m generalizing s with
  | zero => cases hrun; exact run_next 0 hstep
  | succ m ih =>
    cases hs : step s with
    | next s' =>
      rw [run_next _ hs] at hrun ⊢
      exact ih hrun
    | fault r | refused r =>
      have hs' : core.step s = _ := hs
      simp only [Host.Core.run, hs'] at hrun
      cases hrun

/-- Settles O33: the word writes leave the bytes in INBUF, and the last write their number in IN_LEN. -/
theorem loadinStoresTheInput : Obligations.LoadinStoresTheInput := by
  intro s bytes rest hlen hb hr ho
  have hops : s.hostOps = (List.range' 0 ((bytes.length + 3) / 4)).map
      (fun k => writeAt (0x8000 + 4 * k) (loadWord bytes k)) ++
        (.wr inLenOff (BitVec.ofNat 32 bytes.length) :: rest) := by
    rw [ho, loadIn, loadBytes, List.range_eq_range', List.append_assoc]
    rfl
  obtain ⟨t, hrun, hrest, ⟨buf, hmoves⟩, hin⟩ := run_loadWords bytes _ _ 0 s (by omega) hb hr hops
  obtain ⟨hbt, hrt, hframe⟩ : t.busyF = false ∧ t.rstAsserted = false ∧ withHostOf s (withInputOf s t) = s := by
    obtain ⟨_, _, _, _, rfl⟩ := hmoves
    exact ⟨hb, hr, rfl⟩
  have hstep := step_write_idle (by decide) hbt hrt hrest
  refine ⟨_, _, run_then_step hrun hstep, congrArg List.tail hrest, ?_,
    fun i hi => (hin i).trans ?_, fun i hi hpad => (hin i).trans ?_, fun i hi => (hin i).trans ?_, hframe⟩
  · exact (BitVec.toNat_ofNat _ _).trans (Nat.mod_eq_of_lt (by omega))
  · rw [if_pos (by omega), List.getD_eq_getElem _ _ hi]
  · rw [if_pos (by omega), List.getD_eq_default _ _ hi]
  · rw [if_neg (by omega)]

end Sys2Proof.Machine

/-! ## The control family: acceptance, the engine's turn, completion, NOP, SRST and MOVE (spec/40_control.md)

`exec_completes` and `runWord_completes` say that what the engine runs ends in one of the two completions, and
`step_busy` what a step of a busy block does: the engine completes, or the host uses up one of the LATENCY. -/

namespace Sys2Proof.Machine

/-! ### Every command ends in a completion (R121, R122, R235) -/

/-- A completed block is idle and done, and its result is one of R230 with ERR pending after a failure. -/
theorem Completes.done {b t : State} (h : Completes b t) :
    t.busyF = false ∧ t.doneF = true ∧ t.pend = none ∧ t.irqStatus.getLsbD 0 = true ∧ t.result.toNat ≤ 9 ∧
      (t.result ≠ 0x00#8 → t.irqStatus.getLsbD 1 = true) := by
  rcases h with rfl | ⟨f, rfl⟩
  · exact ⟨rfl, rfl, rfl, getLsbD_irqNext_set _ _ _ rfl, Nat.zero_le _, absurd rfl⟩
  · exact ⟨rfl, rfl, rfl, getLsbD_irqNext_set _ _ _ rfl, resultCode_le f.cause,
      fun _ => getLsbD_irqNext_set _ _ _ rfl⟩

/-- GENC finds the codes of the tree when there is one, and fails without it (R170). -/
theorem execGenc_next {s : State} (hT : TreeInv s) : ∃ t, execGenc s = .next t := by
  cases hv : s.treeValid with
  | true =>
    obtain ⟨codes, hx, -⟩ := genc_spec hv (hT.tree hv)
    exact ⟨_, hx⟩
  | false => exact ⟨raiseFailure .genc ⟨.noTree, 0#32⟩ s, by simp [execGenc, hv]⟩

theorem execBuild_next (s : State) : ∃ t, execBuild s = .next t := by
  rcases execBuild_cases s with ⟨_, hx⟩ | ⟨_, _, _, hx, _⟩ | ⟨_, _, _, hx, _⟩ <;> exact ⟨_, hx⟩

theorem execEnc_next (m : Mode) (s : State) : ∃ t, execEnc m s = .next t := by
  unfold execEnc
  split
  · exact ⟨_, rfl⟩
  split
  · exact ⟨_, rfl⟩
  split <;> exact ⟨_, rfl⟩

theorem execDec_next (m : Mode) (s : State) : ∃ t, execDec m s = .next t := by
  unfold execDec
  split
  · exact ⟨_, rfl⟩
  split
  · exact ⟨_, rfl⟩
  split <;> exact ⟨_, rfl⟩

/-- No command stops. GENC alone needs R47. -/
theorem exec_next {s : State} (hT : TreeInv s) (i : Instr) : ∃ t, exec i s = .next t := by
  cases i with
  | build => exact execBuild_next s
  | genc => exact execGenc_next hT
  | enc m => exact execEnc_next m s
  | dec m => exact execDec_next m s
  | _ => exact ⟨_, rfl⟩

theorem exec_completes {s : State} (hT : TreeInv s) (i : Instr) : ∃ b t, exec i s = .next t ∧ Completes b t := by
  obtain ⟨t, ht⟩ := exec_next hT i
  obtain ⟨b, -, hc⟩ := exec_writes ht
  exact ⟨b, t, ht, hc⟩

/-- Settles O12: every command goes on, and what it goes on to is a completion. -/
theorem everyCommandCompletes : Obligations.EveryCommandCompletes := by
  intro i s hT
  obtain ⟨_, t, ht, hc⟩ := exec_completes hT i
  exact ⟨t, ht, hc.done⟩

/-! ### The engine's turn (R121) -/

theorem engineTurn_due {s : State} (hb : s.busyF = true) (h : s.latency = 0 ∨ s.hostOps = []) :
    engineTurn s = true := by
  rcases h with h | h <;> simp [engineTurn, hb, h]

/-- At its turn the engine runs the decoded command. -/
theorem step_command {s : State} {w : Word} {i : Instr} (ht : engineTurn s = true) (hp : s.pend = some w)
    (hd : decode w = .ok i) : step s = exec i s := by
  simp only [step_engine ht, engineStep, hp, runWord, hd]

/-- A whole word of the opcode table is the word itself. -/
theorem tableWord_toNat (w : Word) : tableWord 32 w.toNat = w := by
  rw [tableWord, Nat.mod_eq_of_lt w.isLt, BitVec.ofNat_toNat, BitVec.setWidth_eq]

/-- Settles O15: the turn's step is `exec` of the decoded word, and an accepted command's word decodes to it. -/
theorem stepRunsTheDecodedCommand : Obligations.StepRunsTheDecodedCommand := by
  refine ⟨fun s w i hb hp hd h => step_command (engineTurn_due hb h) hp hd, fun s i => ?_⟩
  rw [State.withFetchWord, tableWord_toNat]
  exact step_command (engineTurn_due rfl (.inl rfl)) rfl (decode_encode i)

/-! ### A busy block (R121, R270) -/

/-- The pending word runs to a completion: its command's, or the failure of an illegal word. -/
theorem runWord_completes {s : State} (hT : TreeInv s) (w : Word) : ∃ b t, runWord w s = .next t ∧ Completes b t := by
  unfold runWord
  split
  · exact exec_completes hT _
  · exact ⟨_, _, rfl, .failure _ _ _⟩

/-- While busy no word is accepted, so no access draws a new LATENCY. -/
theorem HostEffect.latency_busy {s b : State} (h : HostEffect s b) (hb : s.busyF = true) : b.latency = s.latency := by
  rw [h.frame_busy hb]

/-- While busy no operation of the host but `rst` touches the LATENCY itself; the step counts it down. -/
theorem performAccess_latency {s : State} {op : HostOp} (hb : s.busyF = true) (hop : op ≠ .assertRst) :
    (performAccess op s).latency = s.latency := by
  have read (off : Offset) (bytes : Nat) : (readAccess off bytes s).latency = s.latency :=
    ((busReadAt_effect off bytes s).latency_busy hb :)
  have write (off : Offset) (bytes : Nat) (v : Word) : (writeAccess off bytes v s).latency = s.latency :=
    ((busWriteAt_effect off bytes v s).latency_busy hb :)
  cases op with
  | wr off v => exact write off 4 v
  | rd off | expect off _ => exact read off 4
  | wait =>
    rw [performAccess, pollStatus]
    split <;> exact read statusOff 4
  | busRead addr bytes =>
    rw [performAccess, busReadAccess]
    split
    · exact read _ bytes
    · rfl
  | busWrite addr bytes v =>
    rw [performAccess, busWriteAccess]
    split
    · exact write _ bytes v
    · rfl
  | assertRst => exact absurd rfl hop
  | releaseRst => rfl

/-- A busy block steps on: at the engine's turn it completes, and before that the host uses up one of the LATENCY, unless
`rst` abandons the command (R261). -/
theorem step_busy {s : State} (hS : ShapeInv s) (hT : TreeInv s) (hb : s.busyF = true) :
    ∃ t, step s = .next t ∧ (t.busyF = false ∨ t.latency < s.latency) := by
  cases he : engineTurn s with
  | true =>
    obtain ⟨w, hp⟩ := Option.isSome_iff_exists.mp (hS.busy_pending.symm.trans hb)
    obtain ⟨_, t, ht, hc⟩ := runWord_completes hT w
    exact ⟨t, by rw [step_engine he, engineStep, hp]; exact ht, .inl hc.done.1⟩
  | false =>
    obtain ⟨hl, ho⟩ : s.latency ≠ 0 ∧ s.hostOps ≠ [] := by simpa [engineTurn, hb] using he
    obtain ⟨op, rest, ho⟩ := List.exists_cons_of_ne_nil ho
    have hr : s.rstAsserted = false := Bool.eq_false_iff.mpr fun h => by simp [hS.reset_idle h] at hb
    refine ⟨_, by rw [step_hostOp he ho, perform, if_neg (by simp [hr])], ?_⟩
    by_cases hop : op = .assertRst
    · subst hop; exact .inl rfl
    · have hleft := performAccess_latency (s := { s with latency := s.latency - 1 }) hb hop
      exact .inr (hleft.trans_lt (Nat.sub_one_lt hl))

/-- The engine of a sound busy block is idle after at most `n + 1` steps, `n` a bound of its LATENCY. -/
theorem run_busy (n : Nat) {s : State} (hn : s.latency ≤ n) (hS : ShapeInv s) (hT : TreeInv s) (hb : s.busyF = true) :
    ∃ k t, k ≤ n + 1 ∧ core.run k s = .next t ∧ t.busyF = false := by
  induction n generalizing s with
  | zero =>
    obtain ⟨t, hs, h | h⟩ := step_busy hS hT hb
    · exact ⟨1, t, le_rfl, run_next 0 hs, h⟩
    · omega
  | succ n ih =>
    obtain ⟨t, hs, h⟩ := step_busy hS hT hb
    cases hbt : t.busyF with
    | false => exact ⟨1, t, by omega, run_next 0 hs, hbt⟩
    | true =>
      have hlt : t.latency < s.latency := h.resolve_left (by simp [hbt])
      obtain ⟨k, u, hk, hrun, hu⟩ := ih (by omega) (stepKeepsShapeInv s t hS hs) (stepKeepsTreeInv s t hT hs) hbt
      exact ⟨k + 1, u, by omega, (run_next k hs).trans hrun, hu⟩

/-- Settles O13: each step completes, abandons the command or lowers its LATENCY. -/
theorem busyEngineBecomesIdle : Obligations.BusyEngineBecomesIdle := fun s hS hT hb => run_busy s.latency le_rfl hS hT hb

/-! ### Acceptance (R120) -/

/-- Settles O16: `writeLoc` of CMD is the acceptance, and `MapRow.hostWrite_busy` gives the drop. -/
theorem commandWriteIsAcceptedWhenIdle : Obligations.CommandWriteIsAcceptedWhenIdle := by
  refine ⟨fun s w rest hb hr ho => ?_, fun s w rest hb hl hr ho => ?_⟩
  · exact ⟨_, step_write_idle (by decide) hb hr ho, congrArg List.tail ho, rfl, rfl⟩
  · have hdrop := (MapRow.cmd rfl).hostWrite_busy w { s with latency := s.latency - 1 } hb
    have hstep := step_write (by decide) (engineTurn_waiting hl ho) hr ho
    rw [show locate 0x0004#16 = .cmd from rfl, hdrop, if_pos (by decide)] at hstep
    exact ⟨_, hstep, congrArg List.tail ho, rfl, rfl⟩

/-! ### NOP, SRST and MOVE (R123 to R125) -/

/-- Settles O36: NOP's rule is the completion alone. -/
theorem nopOnlyCompletes : Obligations.NopOnlyCompletes :=
  ⟨fun _ => decode_eq_ok_iff, fun s => congrArg Host.Outcome.next (complete_eq_afterSuccess s)⟩

/-- SRST clears IRQ_STATUS and its completion sets DONE (R124). -/
theorem complete_softReset_irqStatus (s : State) : (complete (softReset s)).irqStatus = 0b001#3 := irqNext_set 0#3 irqDone

/-- Settles O37: SRST completes the state `softReset` leaves, which lists what it clears. -/
theorem softResetClearsTheCommandState : Obligations.SoftResetClearsTheCommandState :=
  ⟨fun _ => decode_eq_ok_iff, fun s => ⟨complete (softReset s), rfl, fun _ => BitVec.getLsbD_zero, rfl, rfl, rfl,
    rfl, rfl, rfl, rfl, rfl, rfl, complete_softReset_irqStatus s, rfl⟩⟩

/-- Settles O38: after MOVE INBUF is OUTBUF, written bytes and free values alike. -/
theorem moveCopiesTheOutput : Obligations.MoveCopiesTheOutput :=
  ⟨fun _ => decode_eq_ok_iff, fun s => ⟨_, rfl, fun _ _ => rfl, rfl, complete_eq_afterSuccess s⟩⟩

end Sys2Proof.Machine

/-! ## The frequency table's family: FCLR, FSET and FDEL (spec/41_freq_table.md)

Each of the three writes FREQ and FVALID and completes, so `withFreqOf_complete` is the frame of all three. FSET and FDEL
are one write, `writeKey`: `decode_ok_iff_symWord` is the form of their words and `complete_writeKey_spec` what
the write leaves. -/

namespace Sys2Proof.Machine

/-- A command that writes only FREQ and FVALID changes nothing else but the completion (R122). -/
theorem withFreqOf_complete (s : State) (freq : Table Word) (fvalid : BitVec 256) :
    withFreqOf s (complete { s with freq := freq, fvalid := fvalid }) = afterSuccess s :=
  complete_eq_afterSuccess s

/-! ### FCLR (R140) -/

/-- FCLR writes 0 at every symbol's count. -/
theorem get_putFirst_zeros (free : Nat → Nat → Word) (t : Table Word) {k : Nat} (hk : k < Config.nsym) :
    (t.putFirst (List.replicate Config.nsym 0#32)).get free k = 0#32 := by
  rw [Table.get_putFirst_lt free t _ (by rwa [List.length_replicate]), List.getElem_replicate]

/-- Settles O39: FCLR writes all of FREQ and FVALID with zeros. -/
theorem fclrEmptiesTheMap : Obligations.FclrEmptiesTheMap :=
  ⟨fun _ => decode_eq_ok_iff, fun s => ⟨_, rfl,
    fun _ hk => ⟨get_putFirst_zeros Config.freeFreq s.freq hk, BitVec.getLsbD_zero⟩, withFreqOf_complete s _ _⟩⟩

/-! ### FSET and FDEL (R141, R142) -/

/-- The word of a command whose ARG is SYM is its word for symbol 0 plus the symbol (R101). -/
theorem commandWord_sym (op : BitVec 8) (sym : Symbol) :
    commandWord op sym = commandWord op 0#8 + sym.setWidth 32 := by
  have h := commandWord_ofNat op (n := sym.toNat) (Nat.le_of_lt_succ sym.isLt)
  rwa [BitVec.ofNat_toNat, BitVec.ofNat_toNat, BitVec.setWidth_eq] at h

/-- The words of a command whose ARG is SYM (R103). -/
theorem decode_ok_iff_symWord {op : BitVec 8} {f : Symbol → Instr} (hf : ∀ sym, encode (f sym) = commandWord op sym)
    (w : Word) (sym : Symbol) : decode w = .ok (f sym) ↔ w = commandWord op 0#8 + sym.setWidth 32 := by
  rw [decode_eq_ok_iff, hf, commandWord_sym]

/-- A command that writes the entry of `sym` changes that entry, no other, and nothing else but the completion. -/
theorem complete_writeKey_spec (sym : Symbol) (count : Word) (valid : Bool) (s : State) :
    (∀ k, (complete (writeKey sym count valid s)).freqAt k = if k = sym.toNat then count else s.freqAt k) ∧
    (∀ k, (complete (writeKey sym count valid s)).fvalidAt k = if k = sym.toNat then valid else s.fvalidAt k) ∧
    withFreqOf s (complete (writeKey sym count valid s)) = afterSuccess s :=
  ⟨writeKey_freqAt sym count valid s, writeKey_fvalidAt sym count valid s, withFreqOf_complete s _ _⟩

/-- Settles O40: FSET writes the entry of `sym` with DATA and makes it valid. -/
theorem fsetMakesAKey : Obligations.FsetMakesAKey :=
  ⟨decode_ok_iff_symWord (op := 0x03#8) fun _ => rfl, fun sym s => ⟨_, rfl, complete_writeKey_spec sym s.data true s⟩⟩

/-- Settles O41: FDEL writes the entry of `sym` with 0 and makes it invalid, a key or not. -/
theorem fdelRemovesAKey : Obligations.FdelRemovesAKey :=
  ⟨decode_ok_iff_symWord (op := 0x04#8) fun _ => rfl, fun sym s => ⟨_, rfl, complete_writeKey_spec sym 0#32 false s⟩⟩

end Sys2Proof.Machine

/-! ## The tree builder's family: BUILD (spec/42_tree_builder.md)

`execBuild_cases` says what BUILD can do, `MergeInv` what it has made. Which case a state falls in is decided by its
keys and the sum of their counts: `execBuild_empty`, `execBuild_fits` and `execBuild_overflows`. -/

namespace Sys2Proof.Machine

/-! ### A failing BUILD (R155, R157, R232) -/

/-- A failing BUILD, NODE aside (R232). -/
theorem raiseFailure_build (f : Failure) (s : State) :
    withNodeOf s (raiseFailure .build f s) = afterBuildFailure f.cause.resultCode f.info s := by
  rcases failureEffects_build f.cause s with h | h <;>
    simp [raiseFailure, completeFailed_eq_afterFailure, h, dropTree, unfixNodes, afterFailure, afterBuildFailure,
      withNodeOf]

/-- A failing BUILD keeps the nodes unless a sum overflowed (R232). -/
theorem raiseFailure_build_keeps_node {f : Failure} (hf : f.cause ≠ .freqOverflow) (s : State) :
    raiseFailure .build f s = afterBuildFailure f.cause.resultCode f.info s := by
  rw [← raiseFailure_build, raiseFailure, failureEffects, if_neg hf]
  rfl

/-- A failing BUILD leaves no tree (R232). -/
theorem raiseFailure_build_noTree (f : Failure) (s : State) :
    (raiseFailure .build f s).treeValid = false ∧ (raiseFailure .build f s).root = 0#9 ∧
      (raiseFailure .build f s).nnode = 0#10 ∧ (raiseFailure .build f s).nleaf = 0#9 := by
  rcases failureEffects_build f.cause s with h | h <;> rw [raiseFailure, h] <;> exact ⟨rfl, rfl, rfl, rfl⟩

/-! ### The nodes BUILD has made -/

section
variable {n total : Nat} {nodes : List Node}

/-- Finished merges have made 2n-1 nodes (R154). -/
theorem MergeInv.length_nodes {k : Key} (h : MergeInv n total nodes [k]) : nodes.length = 2 * n - 1 := by
  have hsize := h.size
  rw [List.length_singleton] at hsize
  omega

/-- Finished merges have summed to a frequency of 32 bits. -/
theorem MergeInv.total_le {k : Key} (h : MergeInv n total nodes [k]) : total ≤ Config.freqMax := by
  have hkey : k.1 = (nodeIn nodes k.2).f.toNat := congrArg Prod.fst (h.keys k (List.mem_singleton_self k)).2
  have hsum : k.1 = total := h.sum
  have hlt := (nodeIn nodes k.2).f.isLt
  rw [Config.freqMax]
  omega

/-- The node of the next merge has an index from n to 2n-2. -/
theorem MergeInv.next_index {pool : List Key} (h : MergeInv n total nodes pool) (ho : Overflows pool) :
    n ≤ nodes.length ∧ nodes.length ≤ 2 * n - 2 := by
  have hsize := h.size
  have hpool := ho.bound.1
  exact ⟨h.leaves_made, by omega⟩

/-- The merge that overflows is that of the two least nodes of the pool (R152, R155). -/
theorem MergeInv.overflowing_merge {pool : List Key} (h : MergeInv n total nodes pool) (ho : Overflows pool) :
    ∃ a b, LeastTwo (nodeIn nodes) n nodes.length a b ∧
      Config.freqMax < (nodeIn nodes a).f.toNat + (nodeIn nodes b).f.toNat := by
  obtain ⟨a, poolA, b, poolB, ha, hb, hov⟩ := ho
  obtain ⟨hleast, hka, hkb⟩ := h.leastTwo ha hb
  rw [congrArg Prod.fst hka, congrArg Prod.fst hkb] at hov
  exact ⟨a.2, b.2, hleast, hov⟩

theorem commit_nleaf (hn : n ≤ 256) (pool : List Key) (s : State) :
    (complete (commitTree n nodes pool s)).nleaf.toNat = n := by
  rw [complete_nleaf, commitTree, BitVec.toNat_ofNat]
  omega

end

/-! ### Which of its cases a BUILD takes (R150, R155, R157) -/

/-- BUILD of no key. -/
theorem execBuild_empty {s : State} (h : keySymbols s = []) :
    execBuild s = .next (raiseFailure .build ⟨.emptyAlphabet, 0#32⟩ s) := by
  rcases execBuild_cases s with ⟨_, hx⟩ | ⟨h0, _⟩ | ⟨h0, _⟩
  · exact hx
  · exact absurd h h0
  · exact absurd h h0

/-- BUILD of keys whose counts sum to at most 2^32 - 1. -/
theorem execBuild_fits {s : State} (h0 : keySymbols s ≠ []) (hsum : countSum s ≤ Config.freqMax) :
    ∃ nodes k, execBuild s = .next (complete (commitTree (keySymbols s).length nodes [k] s)) ∧
      MergeInv (keySymbols s).length (countSum s) nodes [k] ∧
      ∀ i (h : i < (keySymbols s).length),
        nodeIn nodes i = leafNode (s.freqAt (keySymbols s)[i]) (keySymbols s)[i] := by
  rcases execBuild_cases s with ⟨h, _⟩ | ⟨_, h⟩ | ⟨_, _, _, _, hi, ho, _⟩
  · exact absurd h h0
  · exact h
  · have hbound := hi.sum ▸ ho.bound.2
    omega

/-- BUILD of keys whose counts sum to more than 2^32 - 1. -/
theorem execBuild_overflows {s : State} (hsum : Config.freqMax < countSum s) :
    ∃ nodes pool, execBuild s = .next (raiseFailure .build ⟨.freqOverflow, BitVec.ofNat 32 nodes.length⟩ s) ∧
      MergeInv (keySymbols s).length (countSum s) nodes pool ∧ Overflows pool ∧
      ∀ i (h : i < (keySymbols s).length),
        nodeIn nodes i = leafNode (s.freqAt (keySymbols s)[i]) (keySymbols s)[i] := by
  rcases execBuild_cases s with ⟨h, _⟩ | ⟨_, _, _, _, hi, _⟩ | ⟨_, h⟩
  · simp [countSum, h] at hsum
  · have hle := hi.total_le
    omega
  · exact h

/-! ### BUILD of a map -/

/-- Settles O42: no key is BUILD's first case, a failure that keeps the nodes. -/
theorem buildOfEmptyMapFails : Obligations.BuildOfEmptyMapFails := by
  intro s h
  have h0 : keySymbols s = [] :=
    List.filter_eq_nil_iff.mpr fun k hk => by simp [h k (List.mem_range.mp hk)]
  exact (execBuild_empty h0).trans (congrArg Host.Outcome.next (raiseFailure_build_keeps_node (by decide) s))

/-- Settles O43: the merges finish, and `build_treeOk` is the tree they commit. -/
theorem buildBuildsTheTree : Obligations.BuildBuildsTheTree := by
  rintro s _ rfl (h0 : keySymbols s ≠ []) hsum
  obtain ⟨nodes, k, hx, hi, hl⟩ := execBuild_fits h0 hsum
  obtain ⟨hT, -, hroot⟩ := build_treeOk s h0 hi hl
  have hpos := List.length_pos_of_ne_nil h0
  have hlen := hi.length_nodes
  have hnleaf := commit_nleaf (nodes := nodes) hi.few [k] s
  refine ⟨_, hx, hT, rfl, rfl, rfl, hnleaf, fun i h => ?_, ?_, fun n hn => ?_, complete_eq_afterSuccess s⟩
  · rw [commit_nodeAt, if_pos (h.trans_le hi.leaves_made)]
    exact hl i h
  · rw [hT.root_index, hnleaf, commit_nodeAt, if_pos (by omega)]
    exact hroot
  · rw [commit_nodeAt, if_neg]
    exact Nat.not_lt.mpr (hlen.trans_le hn)

/-- The keys of a map whose only key is `a`. -/
theorem keySymbols_eq_singleton {s : State} {a : Nat} (ha : a < 256)
    (h : ∀ k, k < 256 → (s.fvalidAt k = true ↔ k = a)) : keySymbols s = [a] := by
  have hcongr : keySymbols s = (List.range 256).filter (· == a) :=
    List.filter_congr fun k hk => by rw [Bool.eq_iff_iff, beq_iff_eq]; exact h k (List.mem_range.mp hk)
  rw [hcongr, List.filter_beq, List.count_eq_one_of_mem List.nodup_range (List.mem_range.mpr ha)]
  rfl

/-- Settles O44: one count always fits, and of one leaf the tree is the leaf. -/
theorem buildOfOneKeyIsASingleLeaf : Obligations.BuildOfOneKeyIsASingleLeaf := by
  intro s a ha h
  have hone : ([a].map fun k => (s.freqAt k).toNat).sum ≤ 0xFFFFFFFF := Nat.le_of_lt_succ (s.freqAt a).isLt
  obtain ⟨t, hx, hT, hvalid, _, _, hnleaf, hleaf, _, _, hframe⟩ :=
    buildBuildsTheTree s [a] (keySymbols_eq_singleton ha h).symm (List.cons_ne_nil a []) hone
  have hidle : t.busyF = false := congrArg State.busyF hframe
  have hnl : t.nleaf.toNat = 1 := hnleaf
  have hroot := hT.root_index
  have hnnode := hT.node_count
  rw [hnl] at hroot hnnode
  refine ⟨t, hx, hleaf 0 Nat.one_pos, BitVec.eq_of_toNat_eq hroot, BitVec.eq_of_toNat_eq hnnode,
    BitVec.eq_of_toNat_eq hnl, hvalid, ?_, hframe⟩
  rw [busReadAt_status_idle hidle, statusWord_single, statusSingle_iff]
  exact ⟨hvalid, hnl⟩

/-- Settles O45: the nodes made before the merge that overflows are the ones asked for. -/
theorem buildOverflowFails : Obligations.BuildOverflowFails := by
  rintro s _ rfl hsum -
  obtain ⟨nodes, pool, hx, hi, ho, hl⟩ := execBuild_overflows hsum
  obtain ⟨hlo, hhi⟩ := hi.next_index ho
  have hinfo : (BitVec.ofNat 32 nodes.length).toNat = nodes.length := by
    have hfew := hi.few
    rw [BitVec.toNat_ofNat]
    omega
  refine ⟨_, _, hx, hinfo.symm ▸ hlo, hinfo.symm ▸ hhi, ⟨nodeIn nodes, hl, fun k hk hk' => ?_, ?_⟩,
    raiseFailure_build _ s⟩
  · rw [hinfo] at hk'
    obtain ⟨_, _, _, _, _, hf⟩ := hi.shape k hk hk'
    exact ⟨hi.greedy k hk hk', hf⟩
  · rw [hinfo]
    exact hi.overflowing_merge ho

/-- Settles O46: a success has committed the nodes of finished merges, whose invariant says it of each. -/
theorem buildMergesTheTwoLeastNodes : Obligations.BuildMergesTheTwoLeastNodes := by
  intro s t he hr k hlo hhi
  rw [exec] at he
  rcases execBuild_cases s with ⟨_, hx⟩ | ⟨h0, nodes, root, hx, hi, hl⟩ | ⟨_, _, _, hx, _⟩ <;>
    rw [hx] at he <;> cases he
  case inl => exact absurd hr (raiseFailure_not_success _ _ s)
  case inr.inr => exact absurd hr (raiseFailure_not_success _ _ s)
  case inr.inl =>
    have hnleaf := commit_nleaf (nodes := nodes) hi.few [root] s
    have hroot := (build_treeOk s h0 hi hl).1.root_index
    have hlen := hi.length_nodes
    rw [hnleaf] at hlo hroot ⊢
    have hk : k < nodes.length := by
      have hpos := List.length_pos_of_ne_nil h0
      omega
    have hnode : ∀ j, j < nodes.length →
        (complete (commitTree (keySymbols s).length nodes [root] s)).nodeAt j = nodeIn nodes j :=
      fun j hj => by rw [commit_nodeAt, if_pos hj]
    obtain ⟨hleaf, hsym, hleft, hright, -, hf⟩ := hi.shape k hlo hk
    rw [hnode k hk, hnode _ (hleft.trans hk), hnode _ (hright.trans hk)]
    exact ⟨(hi.greedy k hlo hk).congr fun j hj => (hnode j (hj.trans hk)).symm, hleaf, hsym, hf⟩

/-! ### What BUILD depends on (R159) -/

/-- The leaves are a function of FVALID and of the keys' counts. -/
theorem leaves_congr {s s' : State} (hv : s.fvalid = s'.fvalid)
    (hf : ∀ k, k < 256 → s.fvalidAt k = true → s.freqAt k = s'.freqAt k) : leaves s = leaves s' := by
  have hvalid : s'.fvalidAt = s.fvalidAt := by funext k; rw [State.fvalidAt, State.fvalidAt, hv]
  have hkeys : keySymbols s' = keySymbols s := by rw [keySymbols, keySymbols, hvalid]
  rw [leaves, leaves, hkeys]
  refine List.map_congr_left fun k hk => ?_
  rw [hf k (keySymbols_lt s k hk) (List.mem_filter.mp hk).2]

/-- States with the same leaves fail alike or commit the same tree. -/
theorem execBuild_congr {s s' : State} (h : leaves s = leaves s') :
    (∃ f, execBuild s = .next (raiseFailure .build f s) ∧ execBuild s' = .next (raiseFailure .build f s')) ∨
    (∃ n nodes pool, execBuild s = .next (complete (commitTree n nodes pool s)) ∧
      execBuild s' = .next (complete (commitTree n nodes pool s'))) := by
  simp only [execBuild, ← h]
  split
  · exact .inl ⟨_, rfl, rfl⟩
  · split
    · exact .inl ⟨_, rfl, rfl⟩
    · exact .inr ⟨_, _, _, rfl, rfl⟩

/-- A committed entry does not depend on the state it is committed to. -/
theorem commit_nodeAt_congr {n m : Nat} {nodes : List Node} {pool : List Key} (s s' : State)
    (hm : m < (complete (commitTree n nodes pool s)).nnode.toNat) :
    (complete (commitTree n nodes pool s)).nodeAt m = (complete (commitTree n nodes pool s')).nodeAt m := by
  have hlt : m < nodes.length := by
    rw [complete_nnode, commitTree, BitVec.toNat_ofNat] at hm
    exact hm.trans_le (Nat.mod_le _ _)
  rw [commit_nodeAt, commit_nodeAt, if_pos hlt, if_pos hlt]

/-- Settles O47: BUILD reads the table through `leaves` alone. -/
theorem buildIsDeterminedByTheTable : Obligations.BuildIsDeterminedByTheTable := by
  intro s s' t t' hv hf he he'
  rw [exec] at he he'
  rcases execBuild_congr (leaves_congr hv hf) with ⟨f, hx, hx'⟩ | ⟨n, nodes, pool, hx, hx'⟩ <;>
    rw [hx] at he <;> rw [hx'] at he' <;> cases he <;> cases he'
  · obtain ⟨hvalid, hroot, hnnode, hnleaf⟩ := raiseFailure_build_noTree f s
    obtain ⟨hvalid', hroot', hnnode', hnleaf'⟩ := raiseFailure_build_noTree f s'
    exact ⟨rfl, rfl, hvalid.trans hvalid'.symm, hroot.trans hroot'.symm, hnnode.trans hnnode'.symm,
      hnleaf.trans hnleaf'.symm, fun hr => absurd hr (raiseFailure_not_success _ _ s)⟩
  · exact ⟨rfl, rfl, rfl, rfl, rfl, rfl, fun _ _ hm => commit_nodeAt_congr s s' hm⟩

end Sys2Proof.Machine

/-! ## The code generator's family: GENC (spec/43_code_generator.md)

On a strict tree `genc_spec` gives the state GENC leaves and every leaf's code, and `genc_codesOk` what holds of the
table as a whole. What is added here is the frame of each outcome, and the Kraft equality: the walk's entries are the
leaves with their codes in another order, so `walkIndex_kraft` carries over to them. -/

namespace Sys2Proof.Machine

/-! ### Without a tree (R170, R232) -/

/-- A failing GENC leaves no codes and keeps the table (R232). -/
theorem raiseFailure_genc (f : Failure) (s : State) :
    raiseFailure .genc f s =
      { afterFailure f.cause.resultCode f.info s with codesValid := false, codeMaxLen := 0#9 } :=
  completeFailed_eq_afterFailure f (dropCodes s)

theorem execGenc_noTree {s : State} (hv : s.treeValid = false) :
    execGenc s = .next (raiseFailure .genc ⟨.noTree, 0#32⟩ s) := by
  rw [execGenc, hv, if_neg Bool.false_ne_true]

/-- Settles O48: without a tree GENC is the raise of NO_TREE, whose effects `raiseFailure_genc` lists. -/
theorem gencWithoutTreeFails : Obligations.GencWithoutTreeFails := fun s hv =>
  (execGenc_noTree hv).trans (congrArg Host.Outcome.next (raiseFailure_genc ⟨.noTree, 0#32⟩ s))

/-! ### The table of a tree (R170 to R174) -/

@[simp] theorem complete_codeString (s : State) : codeString (complete s) = codeString s := rfl

/-- GENC changes nothing but the code table and the completion (R122, R170). -/
theorem withCodesOf_complete (codes : List Coded) (s : State) :
    withCodesOf s (complete (commitCodes codes s)) = afterSuccess s :=
  complete_eq_afterSuccess s

/-- A symbol without a code gets CLEN = 0 and an all-zero CODE (R173). -/
theorem commitCodes_of_codeFor_none {codes : List Coded} (s : State) {a : Nat} (ha : a < 256)
    (h : codeFor codes a = none) :
    (commitCodes codes s).clenAt a = 0#9 ∧ (commitCodes codes s).codeAt a = 0#256 := by
  obtain ⟨hlen, hbits⟩ := commitCodes_tables codes s a ha
  rw [hlen, hbits, lengthFor, bitsFor, h]
  exact ⟨rfl, rfl⟩

/-- The code of a single leaf is "0" (R172). -/
theorem IsCode.of_single {s : State} {k : Nat} {p : List Bool} (h1 : s.nleaf.toNat = 1) (h : IsCode s k p) :
    p = [false] := by
  rwa [IsCode, if_pos h1] at h

/-- The code of a leaf of a larger tree is its path (R171). -/
theorem IsCode.leads {s : State} {k : Nat} {p : List Bool} (h1 : s.nleaf.toNat ≠ 1) (h : IsCode s k p) :
    Leads s.nodeAt s.root.toNat p k := by
  rwa [IsCode, if_neg h1] at h

/-- Settles O49: the leaves' codes are `genc_spec`'s, and `genc_codesOk` gives the zero tail and the greatest length. -/
theorem gencWritesThePathCodes : Obligations.GencWritesThePathCodes := by
  intro s hv T
  obtain ⟨codes, hx, hc, hleaf, hnone⟩ := genc_spec hv T
  have hok := (genc_codesOk hv T hc).1
  refine ⟨complete (commitCodes codes s), hx, rfl, ?_⟩
  rw [complete_clenAt, complete_codeAt, complete_codeMaxLen, complete_codeString]
  refine ⟨fun k hk h2 => ?_, fun h1 => ?_, fun a ha hne => ?_, hok.zero_after, hok.max_bound, hok.max_reached,
    withCodesOf_complete codes s⟩
  · obtain ⟨p, hp, -, hstr, -⟩ := hleaf k hk
    rw [hstr, leafAt_eq_some]
    exact ⟨k, hp.leads (by omega), (T.leaf_shape k hk).1, rfl⟩
  · obtain ⟨p, hp, -, hstr, -⟩ := hleaf 0 (by omega)
    rw [hstr]
    exact hp.of_single h1
  · exact commitCodes_of_codeFor_none s ha (hnone a hne)

/-! ### The Kraft equality (R175) -/

/-- The walk from the root of a strict tree lists each leaf once, with its path. -/
theorem TreeOk.walkIndex_perm {s : State} (T : TreeOk s) {path : Nat → List Bool}
    (hpath : ∀ k, k < s.nleaf.toNat → Leads s.nodeAt s.root.toNat (path k) k) {fuel : Nat}
    {es : List (Nat × List Bool)} (he : walkIndex s.nodeAt fuel s.root.toNat [] = some es) :
    es.Perm ((List.range s.nleaf.toNat).map fun k => (k, path k)) := by
  have hnodup : es.Nodup :=
    (walkIndex_prefix_free he).imp fun hfree => by rintro rfl; exact hfree.1 (List.prefix_refl _)
  have hnodup' : ((List.range s.nleaf.toNat).map fun k => (k, path k)).Nodup :=
    List.nodup_range.map fun _ _ h => congrArg Prod.fst h
  refine (List.perm_ext_iff_of_nodup hnodup hnodup').mpr fun ⟨i, r⟩ => ?_
  have hmem : (i, r) ∈ (List.range s.nleaf.toNat).map (fun k => (k, path k)) ↔
      i < s.nleaf.toNat ∧ path i = r := by
    simp
  rw [walkIndex_mem he, hmem]
  constructor
  · rintro ⟨q, rfl, hq, hl⟩
    obtain ⟨hle, -, -⟩ := T.leads_bound T.root_lt hq
    have hi : i < 2 * s.nleaf.toNat - 1 := hle.trans_lt T.root_lt
    have hik := (T.leaf_iff hi).mp hl
    exact ⟨hik, T.path_unique hi (hpath i hik) hq⟩
  · rintro ⟨hi, rfl⟩
    exact ⟨path i, rfl, hpath i hi, (T.leaf_shape i hi).1⟩

/-- The lengths of the leaves' paths have Kraft sum 1. -/
theorem TreeOk.kraft {s : State} (T : TreeOk s) {path : Nat → List Bool}
    (hpath : ∀ k, k < s.nleaf.toNat → Leads s.nodeAt s.root.toNat (path k) k) :
    ((List.range s.nleaf.toNat).map fun k => (1 / 2 : ℚ) ^ (path k).length).sum = 1 := by
  have hfuel : s.root.toNat + 1 < Config.nodeMax + s.nleaf.toNat := by
    have hroot := T.root_index
    have hcount := T.leaf_count
    rw [Config.nodeMax]
    omega
  obtain ⟨es, he⟩ := T.walk_some (fuel := Config.nodeMax) [] T.root_lt (by decide) hfuel
  have hperm := (T.walkIndex_perm hpath he).map fun c => (1 / 2 : ℚ) ^ c.2.length
  rw [List.map_map] at hperm
  exact hperm.sum_eq.symm.trans ((walkIndex_kraft he).trans (pow_zero _))

/-- Settles O50: each clause is a fact about `IsCode`, by the code that `genc_spec` gives each leaf. -/
theorem gencCodesArePrefixFreeAndComplete : Obligations.GencCodesArePrefixFreeAndComplete := by
  intro s t hv T he
  obtain ⟨codes, hx, hc, hleaf, -⟩ := genc_spec hv T
  obtain rfl : complete (commitCodes codes s) = t := Host.Outcome.next.inj (hx.symm.trans he)
  have hok := (genc_codesOk hv T hc).1
  have hcode : ∀ k, k < s.nleaf.toNat →
      IsCode s k (codeString (commitCodes codes s) (s.nodeAt k).sym.toNat) ∧
      ((commitCodes codes s).clenAt (s.nodeAt k).sym.toNat).toNat =
        (codeString (commitCodes codes s) (s.nodeAt k).sym.toNat).length := fun k hk => by
    obtain ⟨p, hp, -, rfl, hlen⟩ := hleaf k hk
    exact ⟨hp, hlen⟩
  rw [complete_clenAt, complete_codeString]
  refine ⟨fun k hk => ?_, fun j k hj hk hjk => ?_, fun h2 a ha => ⟨?_, ?_⟩, ?_⟩
  · obtain ⟨hp, hlen⟩ := hcode k hk
    obtain ⟨hpos, -, -⟩ := hp.length T hk
    rwa [hlen]
  · exact (hcode j hj).1.not_prefix T hj hk hjk (hcode k hk).1
  · by_contra hlong
    obtain ⟨k, hk, rfl⟩ := (hok.coded_iff_leaf a ha).mp (by omega)
    obtain ⟨hp, hlen⟩ := hcode k hk
    obtain ⟨-, -, hle⟩ := hp.length T hk
    exact hlong (hlen.trans_le (hle h2))
  · have hcount := T.leaf_count
    omega
  · rw [List.map_congr_left fun k hk => by rw [(hcode k (List.mem_range.mp hk)).2]]
    split
    · next h1 =>
      rw [h1, List.range_one, List.map_singleton, List.sum_singleton, (hcode 0 (by omega)).1.of_single h1]
      exact pow_one _
    · next h1 => exact T.kraft fun k hk => (hcode k hk).1.leads h1

end Sys2Proof.Machine

/-! ## The encoder's family: ENC, and the round trip through MOVE and DEC (spec/44_encoder.md)

`encodeFrom_prefix` runs the encoder's loop over the positions it passes; what the next position answers is
`encodeFrom_succ`. For the round trip, `TreeOk.decode_codes` is the decoder on a sequence of leaves' codes, and
`CodesFromTree.isCode` says that the table holds such codes. -/

namespace Sys2Proof.Machine

/-! ### A failing ENC or DEC that keeps OUTBUF (R190, R194, R232) -/

/-- The failures before any symbol is read keep OUTBUF (R232). -/
theorem raiseFailure_stream_keeps_outbuf {f : Failure} (hf : f.cause.unfixesOutbuf = false) (s : State) :
    raiseFailure .stream f s = afterStreamFailure f.cause.resultCode f.info s := by
  rw [← raiseFailure_stream, raiseFailure, failureEffects, hf, if_neg Bool.false_ne_true]
  rfl

theorem execEnc_noCodes (m : Mode) {s : State} (hv : s.codesValid = false) :
    execEnc m s = .next (raiseFailure .stream ⟨.noCodes, 0#32⟩ s) := by
  rw [execEnc, hv, Bool.not_false, if_pos rfl]

theorem execEnc_tooLong (m : Mode) {s : State} (hv : s.codesValid = true) (hl : Config.bufBytes < s.inLen.toNat) :
    execEnc m s = .next (raiseFailure .stream ⟨.inLenRange, s.inLen⟩ s) := by
  rw [execEnc, hv, Bool.not_true, if_neg Bool.false_ne_true, if_pos hl]

/-- Settles O51: both are raises that keep OUTBUF. -/
theorem encPreconditions : Obligations.EncPreconditions := fun m s =>
  ⟨fun hv => (execEnc_noCodes m hv).trans (congrArg Host.Outcome.next (raiseFailure_stream_keeps_outbuf rfl s)),
   fun hv hl => (execEnc_tooLong m hv hl).trans (congrArg Host.Outcome.next (raiseFailure_stream_keeps_outbuf rfl s))⟩

/-! ### The loop over the positions it passes (R190, R191, R194) -/

/-- The codes of the first `k` input symbols, in order. -/
def codesBefore (s : State) (k : Nat) : List Bool := ((List.range k).map (codeBitsAt s)).flatten

@[simp] theorem codesBefore_zero (s : State) : codesBefore s 0 = [] := rfl

theorem codesBefore_succ (s : State) (k : Nat) : codesBefore s (k + 1) = codesBefore s k ++ codeBitsAt s k := by
  simp [codesBefore, List.range_succ]

theorem length_codesBefore (s : State) (k : Nat) :
    (codesBefore s k).length = ((List.range k).map (lenAt s)).sum := by
  simp [codesBefore, List.length_flatten, Function.comp_def]

theorem lenAt_eq_zero_iff (s : State) (i : Nat) : lenAt s i = 0 ↔ s.clenAt (s.inByte i).toNat = 0#9 :=
  BitVec.toNat_inj (y := 0#9)

theorem bitCapacity_lt (m : Mode) : bitCapacity m < 2 ^ 32 := by cases m <;> decide

/-- The loop passes the first `k` positions when their symbols have codes and the codes fit. -/
theorem encodeFrom_prefix {s : State} {cap k : Nat} (hcoded : ∀ j, j < k → lenAt s j ≠ 0)
    (hfit : (codesBefore s k).length ≤ cap) (rem : Nat) :
    encodeFrom s cap (k + rem) 0 0 =
      (encodeFrom s cap rem k (codesBefore s k).length).map (codesBefore s k ++ ·) := by
  induction k generalizing rem with
  | zero =>
    rw [Nat.zero_add, codesBefore_zero, List.length_nil]
    cases encodeFrom s cap rem 0 0 <;> rfl
  | succ k ih =>
    rw [codesBefore_succ, List.length_append, length_codeBitsAt] at hfit ⊢
    rw [Nat.add_assoc, Nat.add_comm 1 rem, ih (fun j hj => hcoded j (hj.trans k.lt_succ_self)) (by omega),
      encodeFrom_succ, if_neg (hcoded k k.lt_succ_self), if_neg (by omega)]
    cases encodeFrom s cap rem (k + 1) ((codesBefore s k).length + lenAt s k) with
    | error f => rfl
    | ok rest => exact congrArg Except.ok (List.append_assoc _ _ _).symm

section
variable {m : Mode} {s : State} {i : Nat}

/-- ENC succeeds when every symbol has a code and the codes fit (R190, R192, R193). -/
theorem execEnc_fits (hv : s.codesValid = true) (hl : s.inLen.toNat ≤ Config.bufBytes)
    (hcoded : ∀ j, j < s.inLen.toNat → lenAt s j ≠ 0)
    (hfit : (codesBefore s s.inLen.toNat).length ≤ bitCapacity m) :
    execEnc m s = .next (complete (commitEncoding m (codesBefore s s.inLen.toNat) s)) := by
  have hrun := encodeFrom_prefix hcoded hfit 0
  rw [Nat.add_zero, encodeFrom, Except.map, List.append_nil] at hrun
  rw [execEnc_run m hv hl, hrun]

/-- When the loop passes every position before `i`, ENC fails with what position `i` answers (R191, R194). -/
theorem execEnc_fails (hv : s.codesValid = true) (hl : s.inLen.toNat ≤ Config.bufBytes) (hi : i < s.inLen.toNat)
    (hcoded : ∀ j, j < i → lenAt s j ≠ 0) (hfit : (codesBefore s i).length ≤ bitCapacity m) {f : Failure}
    (hf : ∀ rem, encodeFrom s (bitCapacity m) (rem + 1) i (codesBefore s i).length = .error f) :
    ∃ t, execEnc m s = .next t ∧ withOutbufOf s t = afterStreamFailure f.cause.resultCode f.info s := by
  refine ⟨_, ?_, raiseFailure_stream f s⟩
  have hrun := encodeFrom_prefix hcoded hfit (s.inLen.toNat - i - 1 + 1)
  rw [hf, Except.map, show i + (s.inLen.toNat - i - 1 + 1) = s.inLen.toNat by omega] at hrun
  rw [execEnc_run m hv hl, hrun]

/-- A success of ENC answers the codes of an input whose symbols all have one (R190). -/
theorem execEnc_success {t : State} (hv : s.codesValid = true) (hx : execEnc m s = .next t)
    (ht : t.result = 0x00#8) :
    s.inLen.toNat ≤ Config.bufBytes ∧ (∀ j, j < s.inLen.toNat → lenAt s j ≠ 0) ∧
      (codesBefore s s.inLen.toNat).length ≤ bitCapacity m ∧
      t = complete (commitEncoding m (codesBefore s s.inLen.toNat) s) := by
  have hraise : ∀ f, execEnc m s ≠ .next (raiseFailure .stream f s) := fun f hf =>
    raiseFailure_not_success .stream f s (Host.Outcome.next.inj (hf.symm.trans hx) ▸ ht)
  have hl : s.inLen.toNat ≤ Config.bufBytes := not_lt.mp fun hlong => hraise _ (execEnc_tooLong m hv hlong)
  have hrun := execEnc_run m hv hl
  rcases encodeFrom_cases s (bitCapacity m) s.inLen.toNat 0 0 (Nat.zero_le _) with
    ⟨bits, he, rfl, hcoded, hfit⟩ | ⟨k, -, -, -, -, ⟨-, he⟩ | ⟨-, -, he⟩⟩ <;> rw [he] at hrun
  · rw [← List.range_eq_range'] at hfit hrun
    rw [Nat.zero_add] at hfit hcoded
    exact ⟨hl, fun j => hcoded j j.zero_le, hfit, Host.Outcome.next.inj (hx.symm.trans hrun)⟩
  · exact absurd hrun (hraise _)
  · exact absurd hrun (hraise _)

end

/-! ### The output of a successful ENC (R192, R193, R195) -/

/-- ENC changes nothing but its output and the completion (R122, R195). -/
theorem withOutputOf_complete_commitEncoding (m : Mode) (bits : List Bool) (s : State) :
    withOutputOf s (complete (commitEncoding m bits s)) = afterSuccess s :=
  complete_eq_afterSuccess s

section
variable {m : Mode} {bits : List Bool} (s : State)

theorem commitEncoding_outLen (h : bits.length ≤ bitCapacity m) :
    (commitEncoding m bits s).outLen.toNat = bits.length :=
  BitVec.toNat_ofNat _ _ |>.trans (Nat.mod_eq_of_lt (h.trans_lt (bitCapacity_lt m)))

/-- The stream of OUTBUF is the bits that were written. -/
theorem commitEncoding_streamBit {j : Nat} (hj : j < bits.length) :
    streamBit m (commitEncoding m bits s).outByte j = some bits[j] :=
  streamBit_streamBytes m bits _ (fun k hk => by rw [commitEncoding_outByte, dif_pos hk]) j hj

/-- The bytes above the stream are kept (R195). -/
theorem commitEncoding_outByte_above {k : Nat} (hk : (streamBytes m bits).length ≤ k) :
    (commitEncoding m bits s).outByte k = s.outByte k := by
  rw [commitEncoding_outByte, dif_neg hk.not_gt]

/-- In mode P the packed bits are the stream's, and 0 after its end (R72, R192). -/
theorem commitEncoding_packed_bit {i : Nat} (hi : i / 8 < (bits.length + 7) / 8) :
    ((commitEncoding .P bits s).outByte (i / 8)).getLsbD (7 - i % 8) = bits.getD i false := by
  rw [commitEncoding_outByte, dif_pos (hi.trans_eq (length_streamBytes .P bits).symm)]
  exact getLsbD_packBytes _ _ _ hi

/-- In mode A byte `i` is the character of bit `i` (R73, R193). -/
theorem commitEncoding_char {i : Nat} (hi : i < bits.length) :
    (commitEncoding .A bits s).outByte i = charOfBit bits[i] := by
  rw [commitEncoding_outByte, dif_pos (hi.trans_eq (length_streamBytes .A bits).symm)]
  exact List.getElem_map _

end

/-- Settles O52: `execEnc_fits` gives the state, and the lemmas above its output in each mode. -/
theorem encWritesTheCodesInOrder : Obligations.EncWritesTheCodesInOrder := by
  intro m s bits hv hl hcoded hbits hroom
  obtain rfl : bits = codesBefore s s.inLen.toNat := hbits
  have hfit : (codesBefore s s.inLen.toNat).length ≤ bitCapacity m := hroom.trans_eq (by cases m <;> rfl)
  refine ⟨_, execEnc_fits hv hl (fun j hj => mt (lenAt_eq_zero_iff s j).mp (hcoded j hj)) hfit,
    commitEncoding_outLen s hfit, ?_, withOutputOf_complete_commitEncoding m _ s⟩
  rw [complete_outByte]
  cases m with
  | P =>
    refine ⟨fun i hi => ?_, fun i hi hpad => ?_, fun k hk => ?_⟩
    · rw [commitEncoding_packed_bit s (by omega), List.getD_eq_getElem]
    · rw [commitEncoding_packed_bit s (by omega), List.getD_eq_default _ _ hi]
    · exact commitEncoding_outByte_above s ((length_streamBytes .P _).trans_le hk)
  | A =>
    exact ⟨fun i hi => commitEncoding_char s hi,
      fun k hk => commitEncoding_outByte_above s ((length_streamBytes .A _).trans_le hk)⟩

/-- Settles O53: the loop passes the positions before `i`, and `encodeFrom_succ` says what `i` answers. -/
theorem encReportsTheFirstFailure : Obligations.EncReportsTheFirstFailure := by
  intro m s i len cap hv hl hi hcap hcoded hlen hfit
  obtain rfl : cap = bitCapacity m := hcap.trans (by cases m <;> rfl)
  obtain rfl : len = (codesBefore s i).length := hlen.trans (length_codesBefore s i).symm
  have hpass : ∀ j, j < i → lenAt s j ≠ 0 := fun j hj => mt (lenAt_eq_zero_iff s j).mp (hcoded j hj)
  constructor
  · intro h0
    refine execEnc_fails hv hl hi hpass hfit (f := ⟨.unknownSymbol, taggedInfo (s.inByte i) i⟩) fun rem => ?_
    rw [encodeFrom_succ, if_pos ((lenAt_eq_zero_iff s i).mpr h0)]
  · intro h0 hover
    refine execEnc_fails hv hl hi hpass hfit (f := ⟨.outOverflow, BitVec.ofNat 32 i⟩) fun rem => ?_
    rw [encodeFrom_succ, if_neg (mt (lenAt_eq_zero_iff s i).mp h0)]
    exact if_pos hover

/-! ### The round trip (R197) -/

/-- With the table GENC derives, a coded symbol is a leaf's and its code is the leaf's (R170 to R174). -/
theorem CodesFromTree.isCode {s : State} (h : CodesFromTree s) (hv : s.treeValid = true) (T : TreeOk s) {a : Nat}
    (ha : a < 256) (hcoded : s.clenAt a ≠ 0#9) :
    ∃ k, k < s.nleaf.toNat ∧ (s.nodeAt k).sym.toNat = a ∧ IsCode s k (codeString s a) := by
  obtain ⟨codes, -, hc, hleaf, hnone⟩ := genc_spec hv T
  obtain ⟨hlen, hbits⟩ := (codesFromTree_iff hv hc).mp h a ha
  obtain ⟨hlen', hbits'⟩ := commitCodes_tables codes s a ha
  have hstr : codeString (commitCodes codes s) a = codeString s a := by
    rw [codeString, codeString, hlen', hbits', hlen, hbits]
  by_cases hex : ∃ k, k < s.nleaf.toNat ∧ (s.nodeAt k).sym.toNat = a
  · obtain ⟨k, hk, rfl⟩ := hex
    obtain ⟨p, hp, -, hpstr, -⟩ := hleaf k hk
    exact ⟨k, hk, rfl, hstr ▸ hpstr ▸ hp⟩
  · rw [lengthFor, hnone a fun k hk hka => hex ⟨k, hk, hka⟩] at hlen
    exact absurd hlen.symm hcoded

/-- `c` is the code of a leaf with the leaf's symbol. -/
def IsLeafCode (s : State) (c : List Bool × Symbol) : Prop :=
  ∃ k, k < s.nleaf.toNat ∧ IsCode s k c.1 ∧ (s.nodeAt k).sym = c.2

/-- On a single-leaf tree every code is the sole symbol's "0" (R172). -/
theorem IsLeafCode.of_single {s : State} (T : TreeOk s) (h1 : s.nleaf.toNat = 1) {c : List Bool × Symbol}
    (h : IsLeafCode s c) : c = ([false], (s.nodeAt s.root.toNat).sym) := by
  obtain ⟨k, hk, hp, hsym⟩ := h
  have hroot := T.root_index
  obtain rfl : k = s.root.toNat := by omega
  exact Prod.ext (hp.of_single h1) hsym.symm

/-- On a larger tree a code leads from the root to its leaf (R171). -/
theorem IsLeafCode.leafAt {s : State} (T : TreeOk s) (h1 : s.nleaf.toNat ≠ 1) {c : List Bool × Symbol}
    (h : IsLeafCode s c) : leafAt s.nodeAt s.root.toNat c.1 = some c.2 := by
  obtain ⟨k, hk, hp, hsym⟩ := h
  exact leafAt_eq_some.mpr ⟨k, hp.leads h1, (T.leaf_shape k hk).1, hsym⟩

/-- The decoder reads a sequence of leaves' codes as their symbols, on every tree (R210, R213). -/
theorem TreeOk.decode_codes {s : State} (T : TreeOk s) {m : Mode} {chunks : List (List Bool × Symbol)}
    (hcode : ∀ c ∈ chunks, IsLeafCode s c)
    (hbits : ∀ j (hj : j < (chunkBits chunks).length), streamBit m s.inByte j = some (chunkBits chunks)[j])
    (hroom : chunks.length ≤ Config.bufBytes) :
    decodeFrom s m (chunkBits chunks).length 0 ⟨s.root.toNat, 0, 0⟩ = .ok (chunks.map Prod.snd) := by
  have hend : ∀ j start count, decodeFrom s m 0 j ⟨s.root.toNat, start, count⟩ = .ok [] :=
    fun _ _ _ => if_pos rfl
  by_cases h1 : s.nleaf.toNat = 1
  · obtain ⟨n, rfl⟩ : ∃ n, chunks = List.replicate n ([false], (s.nodeAt s.root.toNat).sym) :=
      ⟨_, List.eq_replicate_of_mem fun c hc => (hcode c hc).of_single T h1⟩
    have hleaf := (T.leaf_shape s.root.toNat (by rw [T.root_index, h1]; decide)).1
    have hlen : (chunkBits (List.replicate n ([false], (s.nodeAt s.root.toNat).sym))).length = n := by
      simp [chunkBits]
    rw [List.length_replicate] at hroom
    have hrun := decode_single_run hleaf (m := m) n 0 0 0
      (fun x hx => by rw [Nat.zero_add, hbits x (hx.trans_eq hlen.symm)]; rfl) ((Nat.zero_add n).trans_le hroom) 0
    rw [hlen, List.map_replicate]
    simpa only [hend, Nat.add_zero, List.append_nil] using hrun
  · have hcount := T.leaf_count
    obtain ⟨start, hrun⟩ := T.decode_paths (by omega) 0 chunks 0 0 0 (fun c hc => (hcode c hc).leafAt T h1)
      (fun x hx => (congrArg _ x.zero_add).trans (hbits x hx)) ((Nat.zero_add _).trans_le hroom)
    simpa only [hend, Nat.add_zero, List.append_nil] using hrun

/-- DEC of a sequence of leaves' codes (R210, R213, R215). -/
theorem TreeOk.execDec_codes {s : State} (T : TreeOk s) (hv : s.treeValid = true) {m : Mode}
    {chunks : List (List Bool × Symbol)} (hcode : ∀ c ∈ chunks, IsLeafCode s c)
    (hbits : ∀ j (hj : j < (chunkBits chunks).length), streamBit m s.inByte j = some (chunkBits chunks)[j])
    (hroom : chunks.length ≤ Config.bufBytes) (hlen : s.inLen.toNat = (chunkBits chunks).length)
    (hfit : (chunkBits chunks).length ≤ bitCapacity m) :
    execDec m s = .next (complete (commitDecoding (chunks.map Prod.snd) s)) := by
  rw [execDec_run m hv (hlen.trans_le hfit), hlen, T.decode_codes hcode hbits hroom]

/-- The first `n` input symbols of ENC as the decoder's chunks: each symbol with its code. -/
def inputChunks (s : State) (n : Nat) : List (List Bool × Symbol) :=
  (List.range n).map fun i => (codeBitsAt s i, s.inByte i)

@[simp] theorem length_inputChunks (s : State) (n : Nat) : (inputChunks s n).length = n := by simp [inputChunks]

theorem chunkBits_inputChunks (s : State) (n : Nat) : chunkBits (inputChunks s n) = codesBefore s n := by
  simp [chunkBits, inputChunks, codesBefore, Function.comp_def]

theorem symbols_inputChunks (s : State) (n : Nat) : (inputChunks s n).map Prod.snd = (List.range n).map s.inByte := by
  simp [inputChunks, Function.comp_def]

/-- Every code of a successful ENC's input is a leaf's, with the symbol it stands for. -/
theorem CodesFromTree.isLeafCode_inputChunks {s : State} (h : CodesFromTree s) (hv : s.treeValid = true) (T : TreeOk s)
    {n : Nat} (hcoded : ∀ j, j < n → lenAt s j ≠ 0) : ∀ c ∈ inputChunks s n, IsLeafCode s c := by
  intro c hc
  obtain ⟨i, hi, rfl⟩ := List.mem_map.mp hc
  obtain ⟨k, hk, hsym, hp⟩ :=
    h.isCode hv T (s.inByte i).isLt (mt (lenAt_eq_zero_iff s i).mpr (hcoded i (List.mem_range.mp hi)))
  exact ⟨k, hk, hp, BitVec.eq_of_toNat_eq hsym⟩

/-- After MOVE, DEC reads the output of the command before it, on the same tree (R125). -/
theorem move_input {s : State} (hv : s.treeValid = true) (T : TreeOk s) :
    ∃ u, exec .move s = .next u ∧ u.treeValid = true ∧ TreeOk u ∧ u.inByte = s.outByte ∧ u.inLen = s.outLen ∧
      u.nodeAt = s.nodeAt ∧ u.root = s.root ∧ u.nleaf = s.nleaf :=
  ⟨_, rfl, hv, T.congr rfl rfl rfl rfl, rfl, rfl, rfl, rfl, rfl⟩

theorem IsLeafCode.congr {s u : State} (hn : u.nodeAt = s.nodeAt) (hr : u.root = s.root) (hl : u.nleaf = s.nleaf)
    {c : List Bool × Symbol} (h : IsLeafCode s c) : IsLeafCode u c := by
  simpa only [IsLeafCode, IsCode, hn, hr, hl] using h

/-- Settles O60: ENC leaves the leaves' codes of its input in OUTBUF, and DEC reads them where MOVE puts them. -/
theorem encodeMoveDecodeIsTheIdentity : Obligations.EncodeMoveDecodeIsTheIdentity := by
  intro m s t hv T hcv hC hx ht
  obtain ⟨hl, hcoded, hfit, ht'⟩ := execEnc_success hcv hx ht
  have hcode := hC.isLeafCode_inputChunks hv T hcoded
  have hcount := length_inputChunks s s.inLen.toNat
  rw [← chunkBits_inputChunks] at hfit ht'
  subst ht'
  obtain ⟨u, hu, huv, huT, hin, hlen, hn, hr, hnl⟩ :=
    move_input (s := complete (commitEncoding m (chunkBits (inputChunks s s.inLen.toNat)) s)) hv
      (T.congr rfl rfl rfl rfl)
  have hdec := huT.execDec_codes huv (m := m) (fun c hc => (hcode c hc).congr hn hr hnl)
    (fun j hj => by rw [hin, complete_outByte, commitEncoding_streamBit s hj]) (hcount.trans_le hl)
    (by rw [hlen, complete_outLen, commitEncoding_outLen s hfit]) hfit
  refine ⟨u, _, hu, hdec, rfl, ?_, fun k hk => ?_⟩
  · rw [complete_outLen, commitDecoding, List.length_map, hcount, BitVec.ofNat_toNat, BitVec.setWidth_eq]
  · rw [complete_outByte, symbols_inputChunks, commitDecoding_outByte, dif_pos (by simpa using hk), List.getElem_map,
      List.getElem_range]

end Sys2Proof.Machine

/-! ## The decoder's family: DEC (spec/45_decoder.md)

`execDec_decodes` and `execDec_fails` turn a run of the decoder's loop into the state DEC leaves. The runs themselves are
`decode_single_stream` on a single leaf, `TreeOk.decode_stream` on a larger tree, and `TreeOk.decode_badCharacter` on
either. -/

namespace Sys2Proof.Machine

/-! ### Before the first bit (R210, R211, R233) -/

theorem execDec_noTree (m : Mode) {s : State} (hv : s.treeValid = false) :
    execDec m s = .next (raiseFailure .stream ⟨.noTree, 0#32⟩ s) := by
  rw [execDec, hv, Bool.not_false, if_pos rfl]

theorem execDec_tooLong (m : Mode) {s : State} (hv : s.treeValid = true) (hl : bitCapacity m < s.inLen.toNat) :
    execDec m s = .next (raiseFailure .stream ⟨.inLenRange, s.inLen⟩ s) := by
  rw [execDec, hv, Bool.not_true, if_neg Bool.false_ne_true, if_pos hl]

/-- Settles O54: both are raises that keep OUTBUF. -/
theorem decPreconditions : Obligations.DecPreconditions := by
  intro m s
  refine ⟨fun hv => (execDec_noTree m hv).trans (congrArg Host.Outcome.next (raiseFailure_stream_keeps_outbuf rfl s)),
    fun hv hl => ?_⟩
  have hlong : bitCapacity m < s.inLen.toNat := by cases m <;> exact hl
  exact (execDec_tooLong m hv hlong).trans (congrArg Host.Outcome.next (raiseFailure_stream_keeps_outbuf rfl s))

/-! ### How DEC ends (R214, R215, R232) -/

section
variable {m : Mode} {s : State}

/-- When the loop answers symbols, DEC succeeds with them and keeps the bytes above them (R215). -/
theorem execDec_decodes {syms : List Symbol} (hv : s.treeValid = true) (hl : s.inLen.toNat ≤ bitCapacity m)
    (hrun : decodeFrom s m s.inLen.toNat 0 ⟨s.root.toNat, 0, 0⟩ = .ok syms) :
    ∃ t, execDec m s = .next t ∧ t.outLen.toNat = syms.length ∧
      (∀ k (h : k < syms.length), t.outByte k = syms[k]) ∧
      (∀ k, syms.length ≤ k → t.outByte k = s.outByte k) ∧ withOutputOf s t = afterSuccess s := by
  have hroom : 0 + syms.length ≤ 16384 := decodeFrom_length hrun (Nat.zero_le _)
  refine ⟨complete (commitDecoding syms s), by rw [execDec_run m hv hl, hrun], ?_, fun k hk => ?_, fun k hk => ?_,
    complete_eq_afterSuccess s⟩
  · exact (BitVec.toNat_ofNat _ _).trans (Nat.mod_eq_of_lt (by omega))
  · rw [complete_outByte, commitDecoding_outByte, dif_pos hk]
  · rw [complete_outByte, commitDecoding_outByte, dif_neg hk.not_gt]

/-- When the loop fails, DEC fails with the same cause and ERR_INFO (R232). -/
theorem execDec_fails {f : Failure} (hv : s.treeValid = true) (hl : s.inLen.toNat ≤ bitCapacity m)
    (hrun : decodeFrom s m s.inLen.toNat 0 ⟨s.root.toNat, 0, 0⟩ = .error f) :
    ∃ t, execDec m s = .next t ∧ withOutbufOf s t = afterStreamFailure f.cause.resultCode f.info s :=
  ⟨_, by rw [execDec_run m hv hl, hrun], raiseFailure_stream f s⟩

/-! ### One turn of the loop (R210, R211, R214) -/

/-- A stream that ends with the cursor at the root ends between two codes (R214). -/
theorem decodeFrom_end (j start count : Nat) : decodeFrom s m 0 j ⟨s.root.toNat, start, count⟩ = .ok [] := if_pos rfl

theorem decodeFrom_bad {j : Nat} (hb : streamBit m s.inByte j = none) (rem : Nat) (c : Cursor) :
    decodeFrom s m (rem + 1) j c = .error ⟨.malformedInput, taggedInfo 0x01#8 j⟩ := by
  rw [decodeFrom, hb]

section
variable {j : Nat} {b : Bool} {c : Cursor} (hb : streamBit m s.inByte j = some b)
include hb

theorem decodeFrom_bit_fails {f : Failure} (hf : decodeBit s j b c = .error f) (rem : Nat) :
    decodeFrom s m (rem + 1) j c = .error f := by
  rw [decodeFrom, hb]
  simp only [hf]

theorem decodeFrom_bit {c' : Cursor} {sym : Option Symbol} (hbit : decodeBit s j b c = .ok (c', sym)) (rem : Nat) :
    decodeFrom s m (rem + 1) j c = (decodeFrom s m rem (j + 1) c').map (sym.toList ++ ·) := by
  rw [decodeFrom, hb]
  simp only [hbit]
  cases decodeFrom s m rem (j + 1) c' <;> rfl

end

/-! ### A single-leaf tree (R213) -/

/-- The run of `decode_single_run` from the first bit on. -/
theorem decode_single_stream (hroot : (s.nodeAt s.root.toNat).leaf = true) {n : Nat}
    (hbits : ∀ j, j < n → (streamBit m s.inByte j).isSome = true) (hroom : n ≤ Config.bufBytes) (rem : Nat) :
    decodeFrom s m (n + rem) 0 ⟨s.root.toNat, 0, 0⟩ =
      (decodeFrom s m rem n ⟨s.root.toNat, 0, n⟩).map (List.replicate n (s.nodeAt s.root.toNat).sym ++ ·) := by
  have hrun := decode_single_run hroot n 0 0 0 (fun x hx => by rw [Nat.zero_add]; exact hbits x hx)
    ((Nat.zero_add n).trans_le hroom) rem
  rw [hrun, Nat.zero_add]
  cases decodeFrom s m rem n ⟨s.root.toNat, 0, n⟩ <;> rfl

/-- A bit on a single-leaf tree when the buffer is full (R215). -/
theorem decode_single_full (hroot : (s.nodeAt s.root.toNat).leaf = true) {j : Nat}
    (hbit : (streamBit m s.inByte j).isSome = true) (rem start : Nat) :
    decodeFrom s m (rem + 1) j ⟨s.root.toNat, start, Config.bufBytes⟩ = .error ⟨.outOverflow, BitVec.ofNat 32 j⟩ := by
  obtain ⟨b, hb⟩ := Option.isSome_iff_exists.mp hbit
  exact decodeFrom_bit_fails hb ((decodeBit_single hroot j b _).trans (if_pos rfl)) rem

end

/-- Settles O56: `decode_single_stream` to the end of the stream, or to the bit that finds the buffer full. -/
theorem decOfASingleLeafTree : Obligations.DecOfASingleLeafTree := by
  intro m s hv T h1 hlen hbits
  have hl : s.inLen.toNat ≤ bitCapacity m := by cases m <;> exact hlen
  have hroot0 : s.root.toNat = 0 := by rw [T.root_index, h1]
  have hroot : (s.nodeAt s.root.toNat).leaf = true := (T.leaf_shape _ (by omega)).1
  constructor
  · intro hroom
    have hrun := decode_single_stream hroot hbits hroom 0
    rw [Nat.add_zero, decodeFrom_end, Except.map, List.append_nil] at hrun
    obtain ⟨t, ht, hout, hbytes, habove, hframe⟩ := execDec_decodes hv hl hrun
    rw [List.length_replicate] at hout habove
    refine ⟨t, ht, BitVec.eq_of_toNat_eq hout, fun k hk => ?_, habove, hframe⟩
    rw [hbytes k (hk.trans_eq List.length_replicate.symm), List.getElem_replicate, hroot0]
  · intro hlong
    obtain ⟨rem, hrem⟩ : ∃ rem, s.inLen.toNat = Config.bufBytes + (rem + 1) := Nat.exists_eq_add_of_lt hlong
    have hrun := decode_single_stream hroot (n := Config.bufBytes) (fun j hj => hbits j (hj.trans hlong)) le_rfl
      (rem + 1)
    rw [decode_single_full hroot (j := Config.bufBytes) (hbits _ hlong), Except.map, ← hrem] at hrun
    exact execDec_fails hv hl hrun

/-! ### A tree of two leaves or more (R212, R214, R215) -/

/-- A stream read as two parts, the second from its own first bit. -/
theorem streamBit_append {m : Mode} {byteAt : Nat → Byte} {bs bs' : List Bool}
    (h : ∀ j (hj : j < (bs ++ bs').length), streamBit m byteAt j = some (bs ++ bs')[j]) :
    (∀ j (hj : j < bs.length), streamBit m byteAt j = some bs[j]) ∧
      ∀ j (hj : j < bs'.length), streamBit m byteAt (bs.length + j) = some bs'[j] := by
  have hlen : (bs ++ bs').length = bs.length + bs'.length := List.length_append
  refine ⟨fun j hj => ?_, fun j hj => ?_⟩
  · rw [h j (by omega), List.getElem_append_left hj]
  · rw [h (bs.length + j) (by omega), List.getElem_append_right (Nat.le_add_right _ _)]
    simp only [Nat.add_sub_cancel_left]

theorem chunkBits_concat (chunks : List (List Bool × Symbol)) (c : List Bool × Symbol) :
    chunkBits (chunks ++ [c]) = chunkBits chunks ++ c.1 := by simp [chunkBits]

section
variable {m : Mode} {s : State} (T : TreeOk s) (hn : 2 ≤ s.nleaf.toNat)
include T hn

/-- The run of `TreeOk.decode_paths` from the first bit on. -/
theorem TreeOk.decode_stream {chunks : List (List Bool × Symbol)}
    (hleaf : ∀ c ∈ chunks, leafAt s.nodeAt s.root.toNat c.1 = some c.2)
    (hbits : ∀ j (hj : j < (chunkBits chunks).length), streamBit m s.inByte j = some (chunkBits chunks)[j])
    (hroom : chunks.length ≤ Config.bufBytes) (rem : Nat) :
    ∃ start, decodeFrom s m ((chunkBits chunks).length + rem) 0 ⟨s.root.toNat, 0, 0⟩ =
      (decodeFrom s m rem (chunkBits chunks).length ⟨s.root.toNat, start, chunks.length⟩).map
        (chunks.map Prod.snd ++ ·) := by
  obtain ⟨start, hrun⟩ := T.decode_paths hn rem chunks 0 0 0 hleaf
    (fun x hx => (congrArg _ x.zero_add).trans (hbits x hx)) ((Nat.zero_add _).trans_le hroom)
  rw [Nat.zero_add, Nat.zero_add] at hrun
  refine ⟨start, hrun.trans ?_⟩
  cases decodeFrom s m rem (chunkBits chunks).length ⟨s.root.toNat, start, chunks.length⟩ <;> rfl

/-- A stream that ends on a proper part of a path from the root fails at that path's start (R214). -/
theorem TreeOk.decode_truncated {tail rest : List Bool} {sym : Symbol} (htail : tail ≠ []) (hrest : rest ≠ [])
    (hleaf : leafAt s.nodeAt s.root.toNat (tail ++ rest) = some sym) {j : Nat}
    (hbits : ∀ x (hx : x < tail.length), streamBit m s.inByte (j + x) = some tail[x]) (start count : Nat) :
    decodeFrom s m tail.length j ⟨s.root.toNat, start, count⟩ =
      .error ⟨.malformedInput, taggedInfo 0x02#8 j⟩ := by
  obtain ⟨k, hpath, -, -⟩ := leafAt_eq_some.mp hleaf
  obtain ⟨i, htail', hrest'⟩ := Leads.append_iff.mp hpath
  obtain ⟨b, r, rfl⟩ := List.exists_cons_of_ne_nil hrest
  have hbelow := (T.leads_bound T.root_lt htail').2.1
  have hi : i ≠ s.root.toNat := by have := List.length_pos_of_ne_nil htail; omega
  rw [← Nat.add_zero tail.length, T.decode_inside hn 0 T.root_lt htail' (Leads.cons_iff.mp hrest').1 hbits,
    decodeFrom, if_neg hi, if_pos ⟨htail, rfl⟩]

end

/-- Settles O55: the loop reads every path and ends at the root. -/
theorem decReadsPathsFromTheRoot : Obligations.DecReadsPathsFromTheRoot := by
  intro m s chunks bits hv T hn hlen hroom hleaf hbits hall hstream
  obtain rfl : bits = chunkBits chunks := hbits
  have hl : s.inLen.toNat ≤ bitCapacity m := by cases m <;> exact hlen
  obtain ⟨start, hrun⟩ := T.decode_stream hn hleaf hstream hroom 0
  rw [decodeFrom_end, Except.map, List.append_nil, Nat.add_zero, hall] at hrun
  obtain ⟨t, ht, hout, hbytes, habove, hframe⟩ := execDec_decodes hv hl hrun
  rw [List.length_map] at hout habove
  refine ⟨t, ht, hout, fun k hk => ?_, habove, hframe⟩
  rw [hbytes k (hk.trans_eq (List.length_map _).symm), List.getElem_map]

/-- Settles O57: the loop reads every whole path and then fails as `TreeOk.decode_truncated` says. -/
theorem decOfATruncatedStreamFails : Obligations.DecOfATruncatedStreamFails := by
  intro m s chunks tail rest sym bits hv T hn hlen hroom hleaf htail hrest hpath hbits hall hstream
  obtain rfl : bits = chunkBits chunks ++ tail := hbits
  have hl : s.inLen.toNat ≤ bitCapacity m := by cases m <;> exact hlen
  obtain ⟨hwhole, hpart⟩ := streamBit_append hstream
  obtain ⟨start, hrun⟩ := T.decode_stream hn hleaf hwhole hroom tail.length
  rw [T.decode_truncated hn htail hrest hpath hpart, Except.map, ← List.length_append, hall] at hrun
  exact execDec_fails hv hl hrun

/-- Settles O59: the loop reads 16384 paths, and the last one finds the buffer full (`TreeOk.decode_path`). -/
theorem decOutputOverflowFails : Obligations.DecOutputOverflowFails := by
  intro m s chunks bits hv T hn hlen hcount hleaf hbits hall hstream
  have hl : s.inLen.toNat ≤ bitCapacity m := by cases m <;> exact hlen
  rcases List.eq_nil_or_concat' chunks with rfl | ⟨cs, c, rfl⟩
  · cases hcount
  · obtain rfl : bits = chunkBits cs ++ c.1 := hbits.trans (chunkBits_concat cs c)
    have hfull : cs.length = Config.bufBytes := Nat.succ.inj (List.length_append.symm.trans hcount)
    obtain ⟨rem, hrem⟩ := Nat.exists_eq_add_of_le hall
    obtain ⟨i, hpath, hi, -⟩ := leafAt_eq_some.mp (hleaf c (List.mem_concat_self))
    obtain ⟨hwhole, hlast⟩ := streamBit_append hstream
    obtain ⟨start, hrun⟩ := T.decode_stream hn (fun c' hc' => hleaf c' (List.mem_append_left _ hc')) hwhole hfull.le
      (c.1.length + rem)
    rw [T.decode_path hn rem hpath hi hlast, if_pos hfull, Except.map, ← Nat.add_assoc, ← List.length_append,
      ← hrem] at hrun
    exact execDec_fails hv hl hrun

/-! ### A bad character (R211, R233) -/

/-- The cursor stands where a bit can be read: in the tree, and on no leaf but a sole one. -/
structure CursorOk (s : State) (c : Cursor) : Prop where
  in_tree : c.node < 2 * s.nleaf.toNat - 1
  internal : (s.nodeAt s.root.toNat).leaf = false → (s.nodeAt c.node).leaf = false

theorem TreeOk.cursorOk_root {s : State} (T : TreeOk s) (start count : Nat) :
    CursorOk s ⟨s.root.toNat, start, count⟩ := ⟨T.root_lt, id⟩

/-- A bit fails at no such cursor while there is room for a symbol (R210, R216). -/
theorem TreeOk.decodeBit_passes {s : State} (T : TreeOk s) {c : Cursor} (hc : CursorOk s c)
    (hroom : c.count < Config.bufBytes) (j : Nat) (b : Bool) :
    ∃ c' sym, decodeBit s j b c = .ok (c', sym) ∧ CursorOk s c' ∧ c'.count ≤ c.count + 1 := by
  cases hroot : (s.nodeAt s.root.toNat).leaf with
  | true => exact ⟨_, _, (decodeBit_single hroot j b c).trans (if_neg hroom.ne), T.cursorOk_root _ _, le_rfl⟩
  | false =>
    have hchild := T.child_lt hc.in_tree (hc.internal hroot) b
    have hnode := hc.in_tree
    rw [decodeBit_walk hroot, if_neg (by rw [T.node_count]; omega)]
    cases hleaf : (s.nodeAt (childOn s.nodeAt c.node b)).leaf with
    | true =>
      rw [if_pos rfl, if_neg hroom.ne]
      exact ⟨_, _, rfl, T.cursorOk_root _ _, le_rfl⟩
    | false =>
      rw [if_neg Bool.false_ne_true]
      exact ⟨_, _, rfl, ⟨hchild.trans hnode, fun _ => hleaf⟩, c.count.le_succ⟩

/-- The loop reads the good bits before the first bad character, with room for a symbol each, and fails there. -/
theorem TreeOk.decode_badCharacter {s : State} (T : TreeOk s) {m : Mode} (rem : Nat) {n j : Nat} {c : Cursor}
    (hc : CursorOk s c) (hroom : c.count + n ≤ Config.bufBytes)
    (hgood : ∀ x, x < n → (streamBit m s.inByte (j + x)).isSome = true) (hbad : streamBit m s.inByte (j + n) = none) :
    decodeFrom s m (n + (rem + 1)) j c = .error ⟨.malformedInput, taggedInfo 0x01#8 (j + n)⟩ := by
  induction n generalizing j c with
  | zero => exact (Nat.zero_add (rem + 1)).symm ▸ decodeFrom_bad hbad rem c
  | succ n ih =>
    obtain ⟨b, hb⟩ := Option.isSome_iff_exists.mp (hgood 0 n.succ_pos)
    obtain ⟨c', sym, hbit, hc', hcount⟩ := T.decodeBit_passes hc (by omega) j b
    have hshift : ∀ x, j + 1 + x = j + (x + 1) := fun x => by omega
    have hrest := ih (j := j + 1) hc' (by omega)
      (fun x hx => (hshift x).symm ▸ hgood (x + 1) (Nat.succ_lt_succ hx)) ((hshift n).symm ▸ hbad)
    rw [Nat.add_right_comm, decodeFrom_bit (j := j) hb hbit, hrest, Except.map, hshift]

/-- Settles O58: `TreeOk.decode_badCharacter` from the root on; the buffer has room for a symbol a character. -/
theorem decOfABadCharacterFails : Obligations.DecOfABadCharacterFails := by
  intro s j hv T hlen hj hgood h0 h1
  obtain ⟨rem, hrem⟩ := Nat.exists_eq_add_of_lt hj
  have hbad : streamBit .A s.inByte j = none := (bitOfChar_eq_none _).mpr ⟨h0, h1⟩
  have hpass : ∀ i, i < j → (streamBit .A s.inByte i).isSome = true := fun i hi => by
    rcases hgood i hi with h | h <;> rw [streamBit, h] <;> rfl
  have hrun := T.decode_badCharacter rem (T.cursorOk_root 0 0) (n := j) (j := 0)
    ((Nat.zero_add j).trans_le (hj.le.trans hlen)) (fun x hx => by rw [Nat.zero_add]; exact hpass x hx)
    ((congrArg _ j.zero_add).trans hbad)
  rw [← Nat.add_assoc, ← hrem, Nat.zero_add] at hrun
  exact execDec_fails (m := .A) hv hlen hrun

end Sys2Proof.Machine

/-! ## The exceptions' family: what a raise writes (spec/60_exceptions.md)

A raise is `failureEffects` under the completion that every command shares. The failing commands' own sections above say
what it writes where the contents of NODE and OUTBUF stay; here are the contents it leaves not fixed, free values of a
new draw, and the illegal word, which has no effects but the completion. -/

namespace Sys2Proof.Machine

/-- A BUILD whose sum overflows leaves every node a free value of a new draw (R232, U3). -/
theorem raiseFailure_build_frees_node {f : Failure} (hf : f.cause = .freqOverflow) (s : State) (n : Nat) :
    (raiseFailure .build f s).nodeAt n = freeNode s.draws n := by
  rw [raiseFailure, failureEffects, if_pos hf, completeFailed_nodeAt, State.nodeAt, unfixNodes_node,
    Table.get_unspecified, dropTree_draws]

/-- An ENC or DEC that fails once it has begun leaves every byte of OUTBUF a free value of a new draw (R232, U4). -/
theorem raiseFailure_stream_frees_outbuf {f : Failure} (hf : f.cause.unfixesOutbuf = true) (s : State) (k : Nat) :
    (raiseFailure .stream f s).outByte k = Config.freeByte s.draws k := by
  rw [raiseFailure, failureEffects, if_pos hf, completeFailed_outByte, State.outByte, unfixOutbuf_outbuf,
    Table.get_unspecified, dropOutput_draws]

/-- An illegal word has the shared completion alone (R104, R232). -/
theorem raiseFailure_illegal (f : Failure) (s : State) :
    raiseFailure .illegal f s = afterFailure f.cause.resultCode f.info s :=
  completeFailed_eq_afterFailure f s

/-- The causes that leave OUTBUF not fixed, with their result codes (R230, R232). -/
theorem unfixesOutbuf_resultCode {cause : Cause} {code : BitVec 8}
    (h : (cause, code) ∈
      [(Cause.unknownSymbol, 0x02#8), (Cause.malformedInput, 0x03#8), (Cause.outOverflow, 0x08#8)]) :
    cause.unfixesOutbuf = true ∧ cause.resultCode = code := by
  simp only [List.mem_cons, List.not_mem_nil, or_false, Prod.mk.injEq] at h
  obtain ⟨rfl, rfl⟩ | ⟨rfl, rfl⟩ | ⟨rfl, rfl⟩ := h <;> exact ⟨rfl, rfl⟩

/-- Settles O34: each command's raise, its registers and then the contents it leaves not fixed. -/
theorem raiseWritesTheFailure : Obligations.RaiseWritesTheFailure := by
  have hcause : Cause.emptyAlphabet ≠ .freqOverflow := by decide
  refine ⟨fun s info => raiseFailure_build_keeps_node hcause s,
    fun s info => ⟨_, rfl, raiseFailure_build _ s, raiseFailure_build_frees_node rfl s⟩,
    fun s info => raiseFailure_genc _ s,
    fun s info => ⟨raiseFailure_stream_keeps_outbuf rfl s, raiseFailure_stream_keeps_outbuf rfl s,
      raiseFailure_stream_keeps_outbuf rfl s⟩,
    fun s info cause code h => ?_, fun s info => raiseFailure_illegal _ s⟩
  obtain ⟨hfree, rfl⟩ := unfixesOutbuf_resultCode h
  exact ⟨_, rfl, raiseFailure_stream _ s, raiseFailure_stream_frees_outbuf hfree s⟩

end Sys2Proof.Machine

/-! ## The family of reset: `rst` at any time, and the stops (spec/70_reset_and_hazards.md)

`step_notWindow` and `step_window_inReset` are the two sides of `perform_cases` at a step: an operation that does not
access the window, such as those on `rst`, never stops, and a window access stops while `rst` is asserted.
`step_next_or_stops` says that a sound machine has no third way. -/

namespace Sys2Proof.Machine

/-! ### Asserting and releasing `rst` (R260, R261) -/

/-- At the host's turn an operation that does not access the window is performed, `rst` asserted or not. -/
theorem step_notWindow {s : State} {op : HostOp} {rest : List HostOp} (ht : engineTurn s = false)
    (ho : s.hostOps = op :: rest) (hop : ¬ IsWindowAccess op) :
    step s = .next (performAccess op { s with latency := s.latency - 1 }) := by
  rw [step_hostOp ht ho]
  rcases perform_cases op { s with latency := s.latency - 1 } with ⟨_, hw, _⟩ | ⟨_, hp⟩
  · exact absurd hw hop
  · exact hp

theorem hardReset_registers (s : State) : ResetRegisters (hardReset s) := { afterRst_registers s.draws with }

theorem hardReset_memories (s : State) : ResetMemories s.draws (hardReset s) := { afterRst_memories s.draws with }

/-- `ResetRegisters` does not speak of the host. -/
theorem ResetRegisters.advance {s : State} (h : ResetRegisters s) : ResetRegisters (advanceHost s) := { h with }

/-- `ResetMemories` does not speak of the host. -/
theorem ResetMemories.advance {d : Nat} {s : State} (h : ResetMemories d s) : ResetMemories d (advanceHost s) :=
  { h with }

/-- Settles O7: the assertion is `hardReset`, whatever state it meets, and the release changes the level alone. -/
theorem rstAbandonsTheCommandAndResets : Obligations.RstAbandonsTheCommandAndResets := by
  refine ⟨fun s rest ht ho => ?_, fun s rest ht ho => ?_⟩
  · exact ⟨_, step_notWindow ht ho id, (hardReset_registers _).advance, (hardReset_memories _).advance, rfl, rfl,
      congrArg List.tail ho, rfl⟩
  · exact ⟨_, step_notWindow ht ho id, congrArg List.tail ho, rfl⟩

/-! ### The stops (R260, U12) -/

/-- At the host's turn a window access stops while `rst` is asserted. -/
theorem step_window_inReset {s : State} {op : HostOp} {rest : List HostOp} (ht : engineTurn s = false)
    (ho : s.hostOps = op :: rest) (hr : s.rstAsserted = true) (hop : IsWindowAccess op) :
    step s = .fault .accessDuringReset := by
  rw [step_hostOp ht ho]
  rcases perform_cases op { s with latency := s.latency - 1 } with ⟨_, _, hp⟩ | ⟨hn, _⟩
  · exact hp
  · exact absurd ⟨hr, hop⟩ hn

/-- A sound machine goes on, or it is idle in reset with the host at a window access: a busy block steps on
(`step_busy`), so the stop is the host's. -/
theorem step_next_or_stops {s : State} (hS : ShapeInv s) (hT : TreeInv s) :
    (∃ t, step s = .next t) ∨
    (step s = .fault .accessDuringReset ∧ s.rstAsserted = true ∧ s.busyF = false ∧
      ∃ op rest, s.hostOps = op :: rest ∧ IsWindowAccess op) := by
  cases hb : s.busyF with
  | true =>
    obtain ⟨t, ht, _⟩ := step_busy hS hT hb
    exact .inl ⟨t, ht⟩
  | false =>
    have hturn : engineTurn s = false := engineTurn_idle hb
    cases ho : s.hostOps with
    | nil => exact .inl ⟨s, by rw [step_host hturn, hostStep, ho]⟩
    | cons op rest =>
      rw [step_hostOp hturn ho]
      rcases perform_cases op { s with latency := s.latency - 1 } with ⟨hr, hw, hp⟩ | ⟨_, hp⟩
      · exact .inr ⟨hp, hr, rfl, op, rest, rfl, hw⟩
      · exact .inl ⟨_, hp⟩

/-- Settles O14: no stop but the one of `step_next_or_stops`, and every window access in reset makes it. -/
theorem onlyAccessesDuringResetStop : Obligations.OnlyAccessesDuringResetStop := by
  refine ⟨fun s hS hT => ?_, fun s op rest hr hb ho hop => step_window_inReset (engineTurn_idle hb) ho hr hop⟩
  rcases step_next_or_stops hS hT with ⟨t, hs⟩ | ⟨hs, hr, hb, hop⟩ <;> rw [hs]
  · exact ⟨nofun, nofun⟩
  · refine ⟨nofun, fun f hf => ?_⟩
    cases hf
    exact ⟨rfl, hr, hb, hop⟩

end Sys2Proof.Machine
